-- ==== Sys2Proof/Word.lean ====
section
/-! DEFINITION. The byte and the small bit vectors of the block (00_scope.md R8, R9). Every value is unsigned. -/

namespace Sys2Proof

/-- One byte, `DATA_WIDTH` = 8 (R8). -/
abbrev Byte := BitVec 8

/-- A transceiver register address, `REG_ADDR_WIDTH` = 6 (R8). -/
abbrev RegAddr := BitVec 6

/-- A host op code, 4 bits (30_encoding.md R130). -/
abbrev OpCode := BitVec 4

end Sys2Proof
end

