-- ==== Sys2Proof/Syntax.lean ====
section
/-! DEFINITION. The host command record (30_encoding.md R130), the instructions (one constructor per row of
spec/opcode_table.json) and the host program's lines and pseudo-instructions (R134, R135). -/

namespace Sys2Proof

/-- A host command record: a tuple of named fields with no packed layout (30_encoding.md R130). `buf` has
`HOST_ADDR_WIDTH` bits; that width is an OPEN parameter (00_scope.md R8), so host addresses are numbers here, below
`2 ^ HOST_ADDR_WIDTH` where the machine uses them (log 9). -/
structure Command where
  op     : OpCode
  addr   : Byte := 0
  value  : Byte := 0
  mask   : Byte := 0
  pos    : BitVec 3 := 0
  offset : Byte := 0
  len    : Byte := 0
  buf    : Nat := 0
  deriving DecidableEq, Repr, Inhabited

/-- The instructions: the six bus command bytes of 30_encoding.md R122 and the host commands of R131,
`FRAME_WRITE` once per `MODE`, each with the operands R130 says it uses. -/
inductive Instr where
  | busRegWrite (addr : RegAddr)
  | busRegRead (addr : RegAddr)
  | busFrameWrite
  | busFrameRead
  | busSramWrite
  | busSramRead
  | regWrite (addr value : Byte)
  | regRead (addr : Byte)
  | frameWriteBlocking (buf : Nat) (len : Byte)
  | frameWriteNonblocking (buf : Nat) (len : Byte)
  | frameRead (buf : Nat) (len : Byte)
  | sramWrite (offset : Byte) (buf : Nat) (len : Byte)
  | sramRead (offset : Byte) (buf : Nat) (len : Byte)
  | bitfieldRead (addr mask : Byte) (pos : BitVec 3)
  | bitfieldWrite (addr mask : Byte) (pos : BitVec 3) (value : Byte)
  | ctrlWrite (value : Byte)
  | ctrlRead
  | statusRead
  deriving DecidableEq, Repr, Inhabited

/-- The pseudo-instructions of 30_encoding.md R135. -/
inductive Pseudo where
  | pollIdle
  | actIrqOn
  | actIrqOff
  | setField (addr mask : Byte) (pos : BitVec 3) (value : Byte)
  | getField (addr mask : Byte) (pos : BitVec 3)
  deriving DecidableEq, Repr

/-- The command a pseudo-instruction issues (30_encoding.md R135). `POLL_IDLE` issues its command again for as long
as bit 0 of the response is 1; the others issue theirs once. -/
def Pseudo.command : Pseudo → Instr
  | .pollIdle => .statusRead
  | .actIrqOn => .ctrlWrite 0x01
  | .actIrqOff => .ctrlWrite 0x00
  | .setField addr mask pos value => .bitfieldWrite addr mask pos value
  | .getField addr mask pos => .bitfieldRead addr mask pos

/-- A line of a host program (30_encoding.md R134): a command, the host-side write `HWRITE a, v`, or a
pseudo-instruction. A `label:` line only names a place and `POLL_IDLE` is the only control flow, so no line is a
label here. -/
inductive HostLine where
  | command (i : Instr)
  | hwrite (a : Nat) (v : Byte)
  | pseudo (p : Pseudo)
  deriving DecidableEq, Repr

/-- A line of the mainline program as mainline runs it, its operands put into a record: a command, the host-side write, or
the poll, which alone has control flow of its own (30_encoding.md R134, R135). -/
inductive Line where
  | command (c : Command)
  | hwrite (a : Nat) (v : Byte)
  | pollIdle
  deriving DecidableEq, Repr, Inhabited

end Sys2Proof
end

