-- ==== Sys2Proof/Config.lean ====
section
/-! DEFINITION. What an instance fixes (00_scope.md R8, 10_state.md R34), the bus peer that is a parameter of the
model (20_memory.md R86, R87), the events that say which agent moves next (10_state.md R30), and the free values. -/

namespace Sys2Proof

/-- `MODE` (00_scope.md R3). -/
inductive Mode where
  | blocking
  | nonblocking
  deriving DecidableEq, Repr, Inhabited

/-- Which bus peer the instance has (20_memory.md R86): the unconstrained one, or the reference loopback peer of
R87–R97. Every other peer is an instance of the unconstrained one (log 10). -/
inductive PeerKind where
  | reference
  | unconstrained
  deriving DecidableEq, Repr, Inhabited

/-- The OPEN parameters of 00_scope.md R8. No step writes them (10_state.md R34; log 6). -/
structure Params where
  mode            : Mode
  hostAddrWidth   : Nat
  tSramSettle     : Nat
  peerKind        : PeerKind
  frameBufferSize : Nat
  sramSize        : Nat
  sideEffectRegs  : List RegAddr
  deriving DecidableEq, Repr, Inhabited

/-- The sizes R8 calls positive integers are positive. -/
def Params.wf (p : Params) : Bool :=
  decide (0 < p.hostAddrWidth) && decide (0 < p.frameBufferSize) && decide (0 < p.sramSize)

/-- The number of host memory addresses, `2 ^ HOST_ADDR_WIDTH` (20_memory.md R70). -/
def Params.hostSize (p : Params) : Nat := 2 ^ p.hostAddrWidth

/-- The parameters of `State.reset`: DESIGN CHOICE, the settings of 95_test_vectors.md section 0, with
`MODE = NONBLOCKING` and `T_SRAM_SETTLE = 1` (unsafe where a claim is stated of these alone; logs 6, 7). -/
def Params.launch : Params where
  mode := .nonblocking
  hostAddrWidth := 16
  tSramSettle := 1
  peerKind := .reference
  frameBufferSize := 128
  sramSize := 256
  sideEffectRegs := []

/-- The phases of the reference peer (20_memory.md R87–R96). -/
inductive Phase where
  | idle
  | cmd
  | regw (a : RegAddr)
  | regr (a : RegAddr)
  | fbw (k : Nat)
  | fbr (k : Nat)
  | srwOff
  | srrOff
  | srw (a : Nat)
  | srr (a : Nat)
  | done
  deriving DecidableEq, Repr, Inhabited

/-- The reference peer's state (20_memory.md R87). Each of the three stores lists its written cells by address;
a cell that is not listed is unwritten. -/
structure Peer where
  regs : List (Nat × Byte)
  fb   : List (Nat × Byte)
  sram : List (Nat × Byte)
  ph   : Phase
  deriving DecidableEq, Repr, Inhabited

/-- The reference peer's launch state: every cell unwritten, phase `IDLE` (20_memory.md R87). -/
def Peer.launch : Peer := ⟨[], [], [], .idle⟩

/-- One move of one agent (10_state.md R30; logs 1, 3). -/
inductive Event where
  /-- `HOST`, mainline: the next line of its program. A command is issued and mainline blocks until its `RESPOND`
  (30_encoding.md R134, R135). -/
  | mainline
  /-- `HOST`, any context: the issue step alone (10_state.md R57). -/
  | issue (c : Command)
  /-- `HOST`: `hwrite(a, v)` (20_memory.md R71). -/
  | hostWrite (a : Nat) (v : Byte)
  /-- `SEQ`: the next primitive of the command in flight. -/
  | sequencer
  /-- `BUS`: the byte in the shifter completes (20_memory.md R82). -/
  | bus
  /-- `CEV`: the completion event (45_async_frame_write.md R202). -/
  | completion
  /-- `ENV`: the line `trx_irq` takes a level (10_state.md R48). -/
  | environment (level : Bool)
  deriving DecidableEq, Repr, Inhabited

/-- An event whose host addresses have `HOST_ADDR_WIDTH` bits: a drawn event is read modulo the address space. -/
def Event.within (p : Params) : Event → Event
  | .hostWrite a v => .hostWrite (a % p.hostSize) v
  | .issue c => .issue { c with buf := c.buf % p.hostSize }
  | e => e

/-- FREE VALUE: the n-th byte the peer draws (20_memory.md R83, R86, R88–R96; log 11). -/
opaque Config.freeByte : Nat → Byte

/-- FREE VALUE: the state the unconstrained peer moves to (20_memory.md R86; log 10). -/
opaque Config.freePeer : Nat → Peer

/-- FREE VALUE: which agent moves next, and with what, where `State.sched` does not say (10_state.md R30; log 2). -/
opaque Config.freeEvent : Nat → Event

end Sys2Proof
end

