-- ==== Sys2Proof/WellFormed.lean ====
section
/-! DEFINITION. Well-formed instructions: every operand fits its field (30_encoding.md R130, R133). The bit-vector
operands fit by their types (`pos ≥ 8` and `len ≥ 256` cannot be written, 93_implementation_defined.md V5, V6); the
buffer address must have `HOST_ADDR_WIDTH` bits. What R57 checks at issue (`addr ≥ 0x40`, `len = 0`, the buffer's end)
is no matter of form: such a record can be issued, and faults. -/

namespace Sys2Proof

/-- The buffer operand fits the record's `buf` field. -/
def bufFits (p : Params) (buf : Nat) : Bool := decide (buf < p.hostSize)

/-- Every operand of the instruction fits its field. -/
def Instr.wf (p : Params) : Instr → Bool
  | .busRegWrite _ => true
  | .busRegRead _ => true
  | .busFrameWrite => true
  | .busFrameRead => true
  | .busSramWrite => true
  | .busSramRead => true
  | .regWrite _ _ => true
  | .regRead _ => true
  | .frameWriteBlocking buf _ => bufFits p buf
  | .frameWriteNonblocking buf _ => bufFits p buf
  | .frameRead buf _ => bufFits p buf
  | .sramWrite _ buf _ => bufFits p buf
  | .sramRead _ buf _ => bufFits p buf
  | .bitfieldRead _ _ _ => true
  | .bitfieldWrite _ _ _ _ => true
  | .ctrlWrite _ => true
  | .ctrlRead => true
  | .statusRead => true

/-- The row exists in an instance of this `MODE`: `FRAME_WRITE` has one row per `MODE` (30_encoding.md R131), every
other row is in both (00_scope.md R3). -/
def Instr.inMode (m : Mode) : Instr → Bool
  | .busRegWrite _ => true
  | .busRegRead _ => true
  | .busFrameWrite => true
  | .busFrameRead => true
  | .busSramWrite => true
  | .busSramRead => true
  | .regWrite _ _ => true
  | .regRead _ => true
  | .frameWriteBlocking _ _ => decide (m = .blocking)
  | .frameWriteNonblocking _ _ => decide (m = .nonblocking)
  | .frameRead _ _ => true
  | .sramWrite _ _ _ => true
  | .sramRead _ _ _ => true
  | .bitfieldRead _ _ _ => true
  | .bitfieldWrite _ _ _ _ => true
  | .ctrlWrite _ => true
  | .ctrlRead => true
  | .statusRead => true

end Sys2Proof
end

