-- ==== Sys2Proof/Decode.lean ====
section
/-! DEFINITION. The two encodings of 30_encoding.md: the bus command byte (R121–R124, R128) and the host command
record (R130–R133). Decoding is total and rejects by name; the encoder follows the same tables. -/

namespace Sys2Proof

/-- Why a byte or a record is no instruction. -/
inductive DecodeError where
  /-- Host op codes 0x0 and 0xC..0xF (30_encoding.md R132). -/
  | reservedOp (op : OpCode)
  /-- Command bytes with `code[1] = 0` and bits 4:0 not zero (30_encoding.md R128). -/
  | reservedCommandByte (b : Byte)
  deriving DecidableEq, Repr

/-- What decoding answers. -/
inductive Decoded where
  | instr (i : Instr)
  | reject (e : DecodeError)
  deriving DecidableEq, Repr

/-- The instruction decoded, if there is one. -/
def Decoded.toOption : Decoded → Option Instr
  | .instr i => some i
  | .reject _ => none

/-- `zext_8(addr[5:0])` (30_encoding.md R123). -/
def regField (addr : RegAddr) : Byte := addr.setWidth 8

/-- Register write command byte, `0xC0 | addr` (30_encoding.md R122, R123). -/
def regWriteByte (addr : RegAddr) : Byte := 0xC0#8 ||| regField addr

/-- Register read command byte, `0x80 | addr` (30_encoding.md R122, R123). -/
def regReadByte (addr : RegAddr) : Byte := 0x80#8 ||| regField addr

/-- Frame write command byte (30_encoding.md R124). -/
def frameWriteByte : Byte := 0x60

/-- Frame read command byte (30_encoding.md R124). -/
def frameReadByte : Byte := 0x20

/-- SRAM write command byte (30_encoding.md R124). -/
def sramWriteByte : Byte := 0x40

/-- SRAM read command byte (30_encoding.md R124). -/
def sramReadByte : Byte := 0x00

/-- The bus command byte's decoding, as 30_encoding.md R121 and R122 lay it out: `code` in bits 7:6, the register
address in bits 5:0 when `code[1] = 1`, else the four exact bytes; every other byte is reserved (R128). -/
def decodeByte (b : Byte) : Decoded :=
  if b.extractLsb' 6 2 = 0b11#2 then .instr (.busRegWrite (b.extractLsb' 0 6))
  else if b.extractLsb' 6 2 = 0b10#2 then .instr (.busRegRead (b.extractLsb' 0 6))
  else if b = frameWriteByte then .instr .busFrameWrite
  else if b = frameReadByte then .instr .busFrameRead
  else if b = sramWriteByte then .instr .busSramWrite
  else if b = sramReadByte then .instr .busSramRead
  else .reject (.reservedCommandByte b)

/-- The host record's decoding, by `op` (30_encoding.md R131). Fields the op does not use are ignored (R130); `MODE`
selects the row of `FRAME_WRITE` (00_scope.md R3; log 7). -/
def decodeRecord (m : Mode) (c : Command) : Decoded :=
  if c.op = 0x1#4 then .instr (.regWrite c.addr c.value)
  else if c.op = 0x2#4 then .instr (.regRead c.addr)
  else if c.op = 0x3#4 then
    match m with
    | .blocking => .instr (.frameWriteBlocking c.buf c.len)
    | .nonblocking => .instr (.frameWriteNonblocking c.buf c.len)
  else if c.op = 0x4#4 then .instr (.frameRead c.buf c.len)
  else if c.op = 0x5#4 then .instr (.sramWrite c.offset c.buf c.len)
  else if c.op = 0x6#4 then .instr (.sramRead c.offset c.buf c.len)
  else if c.op = 0x7#4 then .instr (.bitfieldRead c.addr c.mask c.pos)
  else if c.op = 0x8#4 then .instr (.bitfieldWrite c.addr c.mask c.pos c.value)
  else if c.op = 0x9#4 then .instr (.ctrlWrite c.value)
  else if c.op = 0xA#4 then .instr .ctrlRead
  else if c.op = 0xB#4 then .instr .statusRead
  else .reject (.reservedOp c.op)

/-- An instruction as the hardware sees it: a byte on the bus, or a record on the command port. -/
inductive Code where
  | byte (b : Byte)
  | record (c : Command)
  deriving DecidableEq, Repr

/-- The decoding of either kind of code. -/
def decode (m : Mode) : Code → Decoded
  | .byte b => decodeByte b
  | .record c => decodeRecord m c

/-- The record of `REG_WRITE`. In this and the following records a field the op does not use is 0 (30_encoding.md
R130, R131, R133). -/
def Command.regWrite (addr value : Byte) : Command := { op := 0x1, addr, value }

/-- The record of `REG_READ` (30_encoding.md R131). -/
def Command.regRead (addr : Byte) : Command := { op := 0x2, addr }

/-- The record of `FRAME_WRITE`, in either `MODE` (30_encoding.md R131). -/
def Command.frameWrite (buf : Nat) (len : Byte) : Command := { op := 0x3, buf, len }

/-- The record of `FRAME_READ` (30_encoding.md R131). -/
def Command.frameRead (buf : Nat) (len : Byte) : Command := { op := 0x4, buf, len }

/-- The record of `SRAM_WRITE` (30_encoding.md R131). -/
def Command.sramWrite (offset : Byte) (buf : Nat) (len : Byte) : Command := { op := 0x5, offset, buf, len }

/-- The record of `SRAM_READ` (30_encoding.md R131). -/
def Command.sramRead (offset : Byte) (buf : Nat) (len : Byte) : Command := { op := 0x6, offset, buf, len }

/-- The record of `BITFIELD_READ` (30_encoding.md R131). -/
def Command.bitfieldRead (addr mask : Byte) (pos : BitVec 3) : Command := { op := 0x7, addr, mask, pos }

/-- The record of `BITFIELD_WRITE` (30_encoding.md R131). -/
def Command.bitfieldWrite (addr mask : Byte) (pos : BitVec 3) (value : Byte) : Command :=
  { op := 0x8, addr, mask, pos, value }

/-- The record of `CTRL_WRITE` (30_encoding.md R131). -/
def Command.ctrlWrite (value : Byte) : Command := { op := 0x9, value }

/-- The record of `CTRL_READ` (30_encoding.md R131). -/
def Command.ctrlRead : Command := { op := 0xA }

/-- The record of `STATUS_READ` (30_encoding.md R131). -/
def Command.statusRead : Command := { op := 0xB }

/-- The encoder: the byte or the record of an instruction (30_encoding.md R122, R131). -/
def encode : Instr → Code
  | .busRegWrite addr => .byte (regWriteByte addr)
  | .busRegRead addr => .byte (regReadByte addr)
  | .busFrameWrite => .byte frameWriteByte
  | .busFrameRead => .byte frameReadByte
  | .busSramWrite => .byte sramWriteByte
  | .busSramRead => .byte sramReadByte
  | .regWrite addr value => .record (.regWrite addr value)
  | .regRead addr => .record (.regRead addr)
  | .frameWriteBlocking buf len => .record (.frameWrite buf len)
  | .frameWriteNonblocking buf len => .record (.frameWrite buf len)
  | .frameRead buf len => .record (.frameRead buf len)
  | .sramWrite offset buf len => .record (.sramWrite offset buf len)
  | .sramRead offset buf len => .record (.sramRead offset buf len)
  | .bitfieldRead addr mask pos => .record (.bitfieldRead addr mask pos)
  | .bitfieldWrite addr mask pos value => .record (.bitfieldWrite addr mask pos value)
  | .ctrlWrite value => .record (.ctrlWrite value)
  | .ctrlRead => .record .ctrlRead
  | .statusRead => .record .statusRead

/-- The host record whose op code is `op` and whose other fields are 0. -/
def Command.ofOp (op : Nat) : Command := { op := BitVec.ofNat 4 op }

/-- The code that a row's bits stand for. A row of 4 bits is a host op code; of the 8-bit values, 0x01..0x0F are no
command byte (30_encoding.md R128), so they are read as an op code padded to a byte, and every other one is a bus
command byte (log 18). -/
def tableCode (nbits w : Nat) : Option Code :=
  if nbits ≤ 4 then some (.record (.ofOp w))
  else if nbits ≤ 8 then
    if 0 < w ∧ w < 16 then some (.record (.ofOp w)) else some (.byte (BitVec.ofNat 8 w))
  else none

/-- The instruction read from a row's word, in the `MODE` of `State.reset` (logs 7, 18). -/
def decodeTableWord (nbits w : Nat) : Option Instr :=
  (tableCode nbits w).bind fun c => (decode Params.launch.mode c).toOption

end Sys2Proof
end

