-- ==== Sys2Proof/Machine/State.lean ====
section
/-! DEFINITION. The machine's state as plain data (10_state.md §3), the model faults (60_exceptions.md R240), the
reasons a step can stop, and the state after reset (70_reset_and_hazards.md R260, R261). -/

namespace Sys2Proof.Machine

/-- The serial shift unit and its done latch (10_state.md R36). -/
inductive Shifter where
  | idle
  | busy (tx : Byte)
  | done (rx : Byte)
  deriving DecidableEq, Repr, Inhabited

/-- The asynchronous transfer state (10_state.md R40). -/
inductive AsyncState where
  | idle
  | writing
  deriving DecidableEq, Repr, Inhabited

/-- A command in flight, `RUN(cmd, upc, i, r)` (10_state.md R42, R43; logs 15, 16). -/
structure Run where
  cmd : Command
  upc : Nat
  i   : Byte
  r   : Option Byte
  deriving DecidableEq, Repr, Inhabited

/-- An event of the observable bus history (10_state.md R46). -/
inductive BusEvent where
  | sel (level : Bool)
  | xfer (tx rx : Byte)
  | delay (t : Nat)
  deriving DecidableEq, Repr, Inhabited

/-- A response `(op, v)`, with `v` absent for `RESPOND()` (10_state.md R45). -/
structure Response where
  op    : OpCode
  value : Option Byte
  deriving DecidableEq, Repr, Inhabited

/-- The codes of the model faults, in the order of their numbers (60_exceptions.md R240). -/
inductive FaultCode where
  | portOverlap
  | illegalOp
  | asyncOverlap
  | busBusy
  | addrRange
  | zeroLength
  | hostAddrRange
  | guardDepth
  | shifterBusy
  | reservedCmd
  | peerRange
  deriving DecidableEq, Repr, Inhabited

/-- The number of a fault code (60_exceptions.md R240). -/
def FaultCode.number : FaultCode → Nat
  | .portOverlap => 1
  | .illegalOp => 2
  | .asyncOverlap => 3
  | .busBusy => 4
  | .addrRange => 5
  | .zeroLength => 6
  | .hostAddrRange => 7
  | .guardDepth => 8
  | .shifterBusy => 9
  | .reservedCmd => 10
  | .peerRange => 11

/-- A recorded fault, `Some(code, info)` (10_state.md R47). `info` is the number 60_exceptions.md R240 names: the op,
the address, the depth, the byte or the index. -/
structure FaultRecord where
  code : FaultCode
  info : Nat
  deriving DecidableEq, Repr, Inhabited

/-- The state: the controller's (10_state.md §3), its inputs and surroundings (R48, 20_memory.md R71, R87), the fixed
parameters (R34), and the model's own `prog`, `sched` and `draws`. -/
structure State where
  /-- The parameters of the instance; no step writes them (10_state.md R34). -/
  cfg            : Params
  cs             : Bool
  shifter        : Shifter
  actIrqEn       : Bool
  cmpIrqEn       : Bool
  guardDepth     : Byte
  guardSaved     : Bool
  asyncState     : AsyncState
  asyncRemaining : Byte
  asyncCursor    : Nat
  seq            : Option Run
  trace          : List BusEvent
  resp           : List Response
  fault          : Option FaultRecord
  /-- The activity-interrupt line, an input (10_state.md R48). -/
  trxIrq         : Bool
  /-- Host memory (20_memory.md R71): the bytes that are not `Memory.unlisted`, by rising address. -/
  mem            : List Host.Cell
  /-- The reference peer's state (20_memory.md R87). -/
  peer           : Peer
  /-- The model's own: the lines mainline has still to run, next first (30_encoding.md R134; log 20). -/
  prog           : List Line
  /-- The model's own: the moves known to come next, first first (logs 1, 2). -/
  sched          : List Event
  /-- The model's own: how many free values have been drawn (log 11). -/
  draws          : Nat
  deriving DecidableEq, Repr, Inhabited

/-- The byte host memory holds where no byte is listed: DESIGN CHOICE 0x00, unsafe where a claim rests on it (log 8). -/
def Memory.unlisted : Byte := 0x00

/-- The addresses of a list of cells rise strictly. -/
def Cells.rising : List (Nat × Byte) → Bool
  | [] => true
  | [_] => true
  | c :: d :: rest => decide (c.1 < d.1) && Cells.rising (d :: rest)

/-- Host memory's canonical form: addresses rise strictly, no entry holds the unlisted byte. -/
def Memory.wf (m : List Host.Cell) : Bool :=
  Cells.rising m && m.all fun c => decide (c.2 ≠ Memory.unlisted)

/-- The reference peer's stores in canonical form: addresses rise strictly. -/
def PeerStores.wf (p : Peer) : Bool :=
  Cells.rising p.regs && Cells.rising p.fb && Cells.rising p.sram

/-- The machine right after reset, in an instance with these parameters and this launch memory and peer: the block's
registers as 70_reset_and_hazards.md R260 gives them; memory and peer are the launch state's (R261). `trx_irq` is 0 by
DESIGN CHOICE (log 14). -/
def State.launch (cfg : Params) (mem : List Host.Cell) (peer : Peer) : State where
  cfg := cfg
  cs := false
  shifter := .idle
  actIrqEn := false
  cmpIrqEn := false
  guardDepth := 0
  guardSaved := false
  asyncState := .idle
  asyncRemaining := 0
  asyncCursor := 0
  seq := none
  trace := []
  resp := []
  fault := none
  trxIrq := false
  mem := mem
  peer := peer
  prog := []
  sched := []
  draws := 0

/-- The machine right after reset (70_reset_and_hazards.md R260), with the parameters `Params.launch`, nothing listed
in host memory and the reference peer's launch state (20_memory.md R87; logs 6, 7, 8). -/
def State.reset : State := State.launch Params.launch [] Peer.launch

/-- Why the machine has no next state. The spec's own faults are no entries here: they are recorded in
`State.fault` by a next state (log 5). -/
inductive Fault where
  /-- Any move asked of a state whose `fault` is recorded: no agent has a step (10_state.md R47). Safe. -/
  | halted (code : FaultCode) (info : Nat)
  /-- An access to a host address outside `2 ^ HOST_ADDR_WIDTH` (20_memory.md R70): a `hostWrite` event or line, or a
  sequencer or completion-event access that the issue check rules out. Safe (log 9). -/
  | outsideHostMemory (a : Nat)
  /-- A `BUS` step while the reference peer is not selected (`ph = IDLE`): the spec gives the peer no rule for it, and
  it cannot be reached (10_state.md R55). Safe (log 12). -/
  | peerNotSelected (tx : Byte)
  /-- A `SEQ` step that reads the local `r` while it holds no value (10_state.md R42): cannot be reached. Safe
  (log 15). -/
  | localUnwritten
  /-- A `SEQ` step past the end of the command's body (10_state.md R43): cannot be reached. Safe (log 15). -/
  | noPrimitive (upc : Nat)
  deriving DecidableEq, Repr

/-- Why the model gives an instruction no meaning. -/
inductive Refusal where
  /-- Raised by `exec`'s arm of an instruction that has no meaning yet: none is left. Safe. -/
  | notModelled (mnemonic : String)
  deriving DecidableEq, Repr

end Sys2Proof.Machine
end

