-- ==== Sys2Proof/Machine/Ops.lean ====
section
/-! DEFINITION. The named operations over the state: running only while no fault is recorded, raising a fault (the one
operation by which an exception is taken, 00_scope.md R11), memory cells and host memory (20_memory.md R71–R73), and
the bus primitives (R76–R81). -/

namespace Sys2Proof.Machine

/-- What a move answers. -/
abbrev Result := Host.Outcome State Fault Refusal

/-- Run `k` unless a fault is recorded; with one recorded, no agent has a step (10_state.md R47). -/
def whileRunning (s : State) (k : State → Result) : Result :=
  match s.fault with
  | some f => .fault (.halted f.code f.info)
  | none => k s

/-- Do `k` after `r`, unless `r` recorded a fault or has no next state (00_scope.md R10: a failed check writes its fault
and nothing else). -/
def andThen (r : Result) (k : State → Result) : Result :=
  match r with
  | .next s => if s.fault.isSome then .next s else k s
  | .fault f => .fault f
  | .refused f => .refused f

/-- `raise Fault(code, info)`: taking an exception. It writes `fault` and changes no other state (00_scope.md R11,
10_state.md R47). There is no return: no step clears `fault`. -/
def raise (code : FaultCode) (info : Nat) (s : State) : Result :=
  .next { s with fault := some ⟨code, info⟩ }

/-! ### Cells -/

/-- The byte listed at an address, if one is. -/
def Cells.get : List (Nat × Byte) → Nat → Option Byte
  | [], _ => none
  | c :: rest, a => if c.1 = a then some c.2 else Cells.get rest a

/-- List a byte at an address, in its place by rising address. -/
def Cells.put : List (Nat × Byte) → Nat → Byte → List (Nat × Byte)
  | [], a, v => [(a, v)]
  | c :: rest, a, v =>
    if a < c.1 then (a, v) :: c :: rest
    else if a = c.1 then (a, v) :: rest
    else c :: Cells.put rest a v

/-- List nothing at an address. -/
def Cells.drop : List (Nat × Byte) → Nat → List (Nat × Byte)
  | [], _ => []
  | c :: rest, a => if c.1 = a then Cells.drop rest a else c :: Cells.drop rest a

/-! ### Host memory -/

/-- The byte of host memory at an address (20_memory.md R71, R72). -/
def Memory.read (m : List Host.Cell) (a : Nat) : Byte :=
  (Cells.get m a).getD Memory.unlisted

/-- Host memory with one byte set (20_memory.md R73); the canonical form is kept. -/
def Memory.write (m : List Host.Cell) (a : Nat) (v : Byte) : List Host.Cell :=
  if v = Memory.unlisted then Cells.drop m a else Cells.put m a v

/-- The address lies in host memory (20_memory.md R70). -/
def inHostMemory (s : State) (a : Nat) : Bool := decide (a < s.cfg.hostSize)

/-- `MemRead(a, 1)`, then `k` with the byte (20_memory.md R72); outside host memory there is no byte (log 9). -/
def withMemRead (a : Nat) (s : State) (k : Byte → Result) : Result :=
  if inHostMemory s a then k (Memory.read s.mem a) else .fault (.outsideHostMemory a)

/-- `MemWrite(a, 1, v)` (20_memory.md R73); outside host memory there is no byte to write (log 9). -/
def memWrite (a : Nat) (v : Byte) (s : State) : Result :=
  if inHostMemory s a then .next { s with mem := Memory.write s.mem a v } else .fault (.outsideHostMemory a)

/-! ### Bus primitives -/

/-- The peer sees a chip-select event, `on_sel(level)` (20_memory.md R86, R87). What the unconstrained peer moves to is
a free value (log 10). -/
def onSel (level : Bool) (s : State) : State :=
  match s.cfg.peerKind with
  | .reference => { s with peer := { s.peer with ph := if level then .cmd else .idle } }
  | .unconstrained => { s with peer := Config.freePeer s.draws, draws := s.draws + 1 }

/-- `SEL_ASSERT` (20_memory.md R76). -/
def selAssert (s : State) : State :=
  onSel true { s with cs := true, trace := s.trace ++ [.sel true] }

/-- `SEL_DEASSERT` (20_memory.md R77). -/
def selDeassert (s : State) : State :=
  onSel false { s with cs := false, trace := s.trace ++ [.sel false] }

/-- `SETTLE` (20_memory.md R81). -/
def settle (s : State) : State :=
  { s with trace := s.trace ++ [.delay s.cfg.tSramSettle] }

/-- `SEND(b)` (20_memory.md R78). -/
def send (b : Byte) (s : State) : Result :=
  match s.shifter with
  | .idle => .next { s with shifter := .busy b }
  | _ => raise .shifterBusy b.toNat s

/-- `RESPOND(v)` and `RESPOND()`: append the response of the op, free the port (10_state.md R45). -/
def respond (op : OpCode) (v : Option Byte) (s : State) : State :=
  { s with resp := s.resp ++ [⟨op, v⟩], seq := none }

end Sys2Proof.Machine
end

