-- ==== Sys2Proof/Machine/Operands.lean ====
section
/-! DEFINITION. The operand forms (30_encoding.md R123, R130, R133) and the codec's arithmetic (44_subregister_codec.md
R190, R191; 00_scope.md R9). -/

namespace Sys2Proof.Machine

/-- `DUMMY_BYTE` (00_scope.md R8). -/
def dummyByte : Byte := 0x00

/-- The register address of an 8-bit address operand, `addr[5:0]` (30_encoding.md R123). -/
def addrLow (addr : Byte) : RegAddr := addr.extractLsb' 0 6

/-- The address operand is a register address, `addr[7:6] = 0` (10_state.md R57). -/
def addrInRange (addr : Byte) : Bool := decide (addr.extractLsb' 6 2 = 0#2)

/-- Host address of data byte `i` of a buffer, `buf + i` (30_encoding.md R133). -/
def bufferAddr (buf : Nat) (i : Byte) : Nat := buf + i.toNat

/-- The buffer's last byte lies in host memory, `buf + len - 1 < 2 ^ HOST_ADDR_WIDTH` (10_state.md R57). It is asked
only of `len ≠ 0`. -/
def bufferInRange (p : Params) (buf : Nat) (len : Byte) : Bool :=
  decide (buf + len.toNat - 1 < p.hostSize)

/-- The ops whose record has a register address (10_state.md R57, 30_encoding.md R130). -/
def usesAddr (op : OpCode) : Bool := op = 0x1#4 || op = 0x2#4 || op = 0x7#4 || op = 0x8#4

/-- The ops whose record has a buffer and a length (10_state.md R57, 30_encoding.md R130). -/
def usesBuffer (op : OpCode) : Bool := op = 0x3#4 || op = 0x4#4 || op = 0x5#4 || op = 0x6#4

/-- The op codes of 30_encoding.md R131, `0x1 .. 0xB`. -/
def legalOp (op : OpCode) : Bool := decide (1 ≤ op.toNat) && decide (op.toNat ≤ 0xB)

/-- `FRAME_WRITE` (30_encoding.md R131). -/
def opFrameWrite : OpCode := 0x3

/-- `STATUS_READ` (30_encoding.md R131). -/
def opStatusRead : OpCode := 0xB

/-- The codec's read, `(r & mask) >> pos` (44_subregister_codec.md R190). -/
def fieldRead (r mask : Byte) (pos : BitVec 3) : Byte := (r &&& mask) >>> pos.toNat

/-- The new value in place, `(zext_16(value) << pos)[7:0] & mask` (44_subregister_codec.md R191, 00_scope.md R9). -/
def fieldPlaced (value mask : Byte) (pos : BitVec 3) : Byte :=
  ((value.setWidth 16) <<< pos.toNat).setWidth 8 &&& mask

/-- The codec's merge, `(r & ~mask) | placed` (44_subregister_codec.md R191). -/
def fieldMerge (r mask : Byte) (pos : BitVec 3) (value : Byte) : Byte :=
  (r &&& ~~~mask) ||| fieldPlaced value mask pos

end Sys2Proof.Machine
end

