-- ==== Sys2Proof/Machine/Bodies.lean ====
section
/-! DEFINITION. The bodies of the host commands: the pseudocode of 40_register_access.md to 46_control_status.md as
lists of primitives, in the order the spec writes them. `upc` is an index into the list (10_state.md R43): a loop stands
in it once for each value of `i` (log 16). -/

namespace Sys2Proof.Machine

/-- Where a `SEND` takes its byte. -/
inductive Source where
  /-- A byte the operands fix. -/
  | byte (b : Byte)
  /-- `MemRead(buf + i, 1)`, part of the `SEND` step (10_state.md R32). -/
  | hostByte
  /-- The codec's merge of `r` with the operands, part of the `SEND` step (10_state.md R32, 44_subregister_codec.md
  R191). -/
  | merged
  deriving DecidableEq, Repr

/-- What a `WAIT` does with the received byte (20_memory.md R83). -/
inductive Sink where
  | discard
  /-- `r <- rx`. -/
  | toLocal
  /-- `MemWrite(buf + i, 1, rx)`, part of the `WAIT` step (10_state.md R32). -/
  | hostByte
  deriving DecidableEq, Repr

/-- What a `RESPOND` returns. -/
inductive Returns where
  | nothing
  /-- The local `r`. -/
  | fromLocal
  /-- `(r & mask) >> pos` (44_subregister_codec.md R190). -/
  | field
  deriving DecidableEq, Repr

/-- The primitives, each one atomic step of `SEQ` (00_scope.md R10, 10_state.md R32). -/
inductive Prim where
  | guardEnter
  | guardExit
  | selAssert
  | selDeassert
  | settle
  | send (src : Source)
  /-- The `SEND` that opens round `k` of a stream's loop: `i` takes the value `k` in this step (10_state.md R32). -/
  | sendRound (k : Nat) (src : Source)
  | wait (dst : Sink)
  | respond (v : Returns)
  /-- Step 1 of the asynchronous start (45_async_frame_write.md R201). -/
  | asyncSelect
  /-- Step 3 of the asynchronous start, which ends with `RESPOND()` (45_async_frame_write.md R201). -/
  | asyncArm
  /-- The one step of `CTRL_WRITE` (46_control_status.md R215). -/
  | ctrlWrite
  /-- The one step of `CTRL_READ` (46_control_status.md R216). -/
  | ctrlRead
  /-- The one step of `STATUS_READ` (46_control_status.md R217). -/
  | statusRead
  deriving DecidableEq, Repr

/-- `xfer(b) -> rx`: `SEND`, then `WAIT` (20_memory.md R80). -/
def xfer (src : Source) (dst : Sink) : List Prim := [.send src, .wait dst]

/-- The `n` rounds of a stream's loop from `i = k` on: `SEND`, then `WAIT`, once for each value of `i` (10_state.md
R43). -/
def rounds (src : Source) (dst : Sink) : Nat → Nat → List Prim
  | _, 0 => []
  | k, n + 1 => .sendRound k src :: .wait dst :: rounds src dst (k + 1) n

/-- `for i in 0 .. len-1: xfer` (00_scope.md R10, 20_memory.md R98). -/
def stream (src : Source) (dst : Sink) (len : Nat) : List Prim := rounds src dst 0 len

/-- The guarded register-write transaction (40_register_access.md R150). -/
def regWriteTransaction (addr : Byte) (src : Source) : List Prim :=
  [.guardEnter, .selAssert] ++ xfer (.byte (regWriteByte (addrLow addr))) .discard ++ xfer src .discard
    ++ [.selDeassert, .guardExit]

/-- The guarded register-read transaction (40_register_access.md R151). -/
def regReadTransaction (addr : Byte) : List Prim :=
  [.guardEnter, .selAssert] ++ xfer (.byte (regReadByte (addrLow addr))) .discard ++ xfer (.byte dummyByte) .toLocal
    ++ [.selDeassert, .guardExit]

/-- `REG_WRITE` (40_register_access.md R150). -/
def regWriteBody (addr value : Byte) : List Prim :=
  regWriteTransaction addr (.byte value) ++ [.respond .nothing]

/-- `REG_READ` (40_register_access.md R151). -/
def regReadBody (addr : Byte) : List Prim :=
  regReadTransaction addr ++ [.respond .fromLocal]

/-- `FRAME_WRITE` with `MODE = BLOCKING` (41_frame_buffer.md R160). -/
def frameWriteBody (len : Byte) : List Prim :=
  [.guardEnter, .selAssert] ++ xfer (.byte frameWriteByte) .discard ++ stream .hostByte .discard len.toNat
    ++ [.selDeassert, .guardExit, .respond .nothing]

/-- `FRAME_WRITE` with `MODE = NONBLOCKING`: the three steps of the start (45_async_frame_write.md R201). -/
def asyncStartBody : List Prim :=
  [.asyncSelect, .send (.byte frameWriteByte), .asyncArm]

/-- `FRAME_READ` (41_frame_buffer.md R161): no guard. -/
def frameReadBody (len : Byte) : List Prim :=
  [.selAssert] ++ xfer (.byte frameReadByte) .discard ++ stream (.byte dummyByte) .hostByte len.toNat
    ++ [.selDeassert, .respond .nothing]

/-- `SRAM_WRITE` (42_sram.md R170). -/
def sramWriteBody (offset len : Byte) : List Prim :=
  [.guardEnter, .selAssert] ++ xfer (.byte sramWriteByte) .discard ++ xfer (.byte offset) .discard
    ++ stream .hostByte .discard len.toNat ++ [.selDeassert, .guardExit, .respond .nothing]

/-- `SRAM_READ` (42_sram.md R171): the settling delay stands between `SEL(1)` and the command byte. -/
def sramReadBody (offset len : Byte) : List Prim :=
  [.guardEnter, .selAssert, .settle] ++ xfer (.byte sramReadByte) .discard ++ xfer (.byte offset) .discard
    ++ stream (.byte dummyByte) .hostByte len.toNat ++ [.selDeassert, .guardExit, .respond .nothing]

/-- `BITFIELD_READ` (44_subregister_codec.md R190). -/
def bitfieldReadBody (addr : Byte) : List Prim :=
  regReadTransaction addr ++ [.respond .field]

/-- `BITFIELD_WRITE` (44_subregister_codec.md R191): two transactions, each guarded alone (R192). -/
def bitfieldWriteBody (addr : Byte) : List Prim :=
  regReadTransaction addr ++ regWriteTransaction addr .merged ++ [.respond .nothing]

/-- The body of a host command. A bus command byte is no host command and has none. -/
def body : Instr → List Prim
  | .busRegWrite _ => []
  | .busRegRead _ => []
  | .busFrameWrite => []
  | .busFrameRead => []
  | .busSramWrite => []
  | .busSramRead => []
  | .regWrite addr value => regWriteBody addr value
  | .regRead addr => regReadBody addr
  | .frameWriteBlocking _ len => frameWriteBody len
  | .frameWriteNonblocking _ _ => asyncStartBody
  | .frameRead _ len => frameReadBody len
  | .sramWrite offset _ len => sramWriteBody offset len
  | .sramRead offset _ len => sramReadBody offset len
  | .bitfieldRead addr _ _ => bitfieldReadBody addr
  | .bitfieldWrite addr _ _ _ => bitfieldWriteBody addr
  | .ctrlWrite _ => [.ctrlWrite]
  | .ctrlRead => [.ctrlRead]
  | .statusRead => [.statusRead]

/-- The body of a record, in an instance of this `MODE` (30_encoding.md R131). -/
def bodyOf (m : Mode) (c : Command) : List Prim :=
  match decodeRecord m c with
  | .instr i => body i
  | .reject _ => []

end Sys2Proof.Machine
end

