-- ==== Sys2Proof/Machine/BusPeer.lean ====
section
/-! DEFINITION. The bus peer's side of a byte and the `BUS` step (20_memory.md R82, R86–R96). -/

namespace Sys2Proof.Machine

/-- What the reference peer does with a byte. -/
inductive Exchange where
  | answer (rx : Byte) (peer : Peer)
  | raises (code : FaultCode) (info : Nat)
  | unselected
  deriving DecidableEq, Repr

/-- The phase a command byte leads to, by the instruction it decodes to (20_memory.md R88). -/
def commandPhase (tx : Byte) : Option Phase :=
  match decodeByte tx with
  | .instr (.busRegWrite a) => some (.regw a)
  | .instr (.busRegRead a) => some (.regr a)
  | .instr .busFrameWrite => some (.fbw 0)
  | .instr .busFrameRead => some (.fbr 0)
  | .instr .busSramWrite => some .srwOff
  | .instr .busSramRead => some .srrOff
  | _ => none

/-- `Peer.exchange` of the reference peer, by phase (20_memory.md R88–R96). `draw` is the free byte of this exchange;
a byte sent while the peer is not selected has no rule (log 12). -/
def exchange (p : Params) (peer : Peer) (tx draw : Byte) : Exchange :=
  match peer.ph with
  | .idle => .unselected
  | .cmd =>
    match commandPhase tx with
    | some ph => .answer draw { peer with ph := ph }
    | none => .raises .reservedCmd tx.toNat
  | .regw a => .answer draw { peer with regs := Cells.put peer.regs a.toNat tx, ph := .done }
  | .regr a =>
    .answer (if p.sideEffectRegs.contains a then draw else (Cells.get peer.regs a.toNat).getD draw)
      { peer with ph := .done }
  | .fbw k =>
    if k < p.frameBufferSize then .answer draw { peer with fb := Cells.put peer.fb k tx, ph := .fbw (k + 1) }
    else .raises .peerRange k
  | .fbr k =>
    if k < p.frameBufferSize then .answer ((Cells.get peer.fb k).getD draw) { peer with ph := .fbr (k + 1) }
    else .raises .peerRange k
  | .srwOff => .answer draw { peer with ph := .srw tx.toNat }
  | .srrOff => .answer draw { peer with ph := .srr tx.toNat }
  | .srw a =>
    if a < p.sramSize then .answer draw { peer with sram := Cells.put peer.sram a tx, ph := .srw (a + 1) }
    else .raises .peerRange a
  | .srr a =>
    if a < p.sramSize then .answer ((Cells.get peer.sram a).getD draw) { peer with ph := .srr (a + 1) }
    else .raises .peerRange a
  | .done => .answer draw peer

/-- The end of `bus_complete`: the peer has moved, the done latch holds the received byte, the exchange is in the
trace (20_memory.md R82). One free value has been drawn. -/
def byteDone (tx rx : Byte) (peer : Peer) (s : State) : State :=
  { s with
    peer := peer
    shifter := .done rx
    trace := s.trace ++ [.xfer tx rx]
    draws := s.draws + 1 }

/-- The `BUS` step (20_memory.md R82). It is enabled only when `shifter = BUSY(tx)`; otherwise nothing happens
(log 4). The unconstrained peer answers any byte and moves anywhere (R86): both are free values (log 10). -/
def busStep (s : State) : Result :=
  match s.shifter with
  | .busy tx =>
    match s.cfg.peerKind with
    | .unconstrained => .next (byteDone tx (Config.freeByte s.draws) (Config.freePeer s.draws) s)
    | .reference =>
      match exchange s.cfg s.peer tx (Config.freeByte s.draws) with
      | .answer rx peer => .next (byteDone tx rx peer s)
      | .raises code info => raise code info s
      | .unselected => .fault (.peerNotSelected tx)
  | _ => .next s

/-- The byte in the shifter is `tx` and the peer takes it as a command byte: the reference peer is in phase `CMD`
(20_memory.md R88). The unconstrained peer has no phase to ask. -/
def commandByteReady (tx : Byte) (s : State) : Bool :=
  decide (s.shifter = .busy tx) && (decide (s.cfg.peerKind = .unconstrained) || decide (s.peer.ph = .cmd))

/-- The `BUS` step that completes command byte `tx`; where that byte is not there to complete, `BUS` has no such step
and nothing happens (logs 4, 13). -/
def completeCommandByte (tx : Byte) (s : State) : Result :=
  whileRunning s fun s => if commandByteReady tx s then busStep s else .next s

end Sys2Proof.Machine
end

