-- ==== Sys2Proof/Machine/Flags.lean ====
section
/-! DEFINITION. The block has no flags or condition codes (10_state.md R44). Its status bits are here: `CTRL`, `STATUS`
and the interrupt output (R48–R50), each computed from the state bits it shows. -/

namespace Sys2Proof.Machine

/-- A bit as a one-bit vector. -/
def bit (b : Bool) : BitVec 1 := if b then 1#1 else 0#1

/-- `CTRL`: bit 0 is `act_irq_en`, bits 7:1 read 0 (10_state.md R49). -/
def ctrlByte (s : State) : Byte := (bit s.actIrqEn).setWidth 8

/-- `STATUS`: `{3'b000, MODE, ACT_IRQ_EN, CMP_IRQ_EN, CS, ASYNC_BUSY}` (10_state.md R50, 46_control_status.md R217). -/
def statusByte (s : State) : Byte :=
  0#3 ++ bit (decide (s.cfg.mode = .nonblocking)) ++ bit s.actIrqEn ++ bit s.cmpIrqEn ++ bit s.cs
    ++ bit (decide (s.asyncState = .writing))

/-- `irq_out = trx_irq & act_irq_en` (10_state.md R48). -/
def irqOut (s : State) : Bool := s.trxIrq && s.actIrqEn

/-- The bus-completion interrupt is pending: the done latch is set (60_exceptions.md R243). -/
def completionPending (s : State) : Bool :=
  match s.shifter with
  | .done _ => true
  | _ => false

/-- The completion event is enabled: `CEV` exists in `NONBLOCKING` only (10_state.md R30), and the event needs
`cmp_irq_en` and the done latch (45_async_frame_write.md R202). -/
def completionEnabled (s : State) : Bool :=
  decide (s.cfg.mode = .nonblocking) && s.cmpIrqEn && completionPending s

end Sys2Proof.Machine
end

