-- ==== Sys2Proof/Machine/Guard.lean ====
section
/-! DEFINITION. The Critical Section Guard: `GUARD_ENTER` and `GUARD_EXIT` (43_critical_section_guard.md R180, R181). -/

namespace Sys2Proof.Machine

/-- `GUARD_ENTER` (43_critical_section_guard.md R180). -/
def guardEnter (s : State) : Result :=
  if s.guardDepth.toNat < 255 then
    .next { s with
      guardSaved := if s.guardDepth = 0 then s.actIrqEn else s.guardSaved
      actIrqEn := false
      guardDepth := s.guardDepth + 1 }
  else raise .guardDepth s.guardDepth.toNat s

/-- `GUARD_EXIT` (43_critical_section_guard.md R181). -/
def guardExit (s : State) : Result :=
  if 0 < s.guardDepth.toNat then
    .next { s with
      guardDepth := s.guardDepth - 1
      actIrqEn := if s.guardDepth - 1 = 0 then s.guardSaved else s.actIrqEn }
  else raise .guardDepth 0 s

end Sys2Proof.Machine
end

