-- ==== Sys2Proof/Machine/Sequencer.lean ====
section
/-! DEFINITION. The command port's issue step (10_state.md R57), the sequencer's step (R32, R42, R43), and a whole
command run from issue to `RESPOND` (logs 3, 16). -/

namespace Sys2Proof.Machine

/-- The first check of 10_state.md R57 that fails, in the order written there, with what it records. -/
def issueFault (c : Command) (s : State) : Option FaultRecord :=
  if s.seq.isSome then some ⟨.portOverlap, c.op.toNat⟩
  else if !legalOp c.op then some ⟨.illegalOp, c.op.toNat⟩
  else if s.asyncState = .writing ∧ c.op = opFrameWrite then some ⟨.asyncOverlap, c.op.toNat⟩
  else if s.asyncState = .writing ∧ c.op ≠ opStatusRead then some ⟨.busBusy, c.op.toNat⟩
  else if usesAddr c.op ∧ !addrInRange c.addr then some ⟨.addrRange, c.addr.toNat⟩
  else if usesBuffer c.op ∧ c.len = 0 then some ⟨.zeroLength, c.op.toNat⟩
  else if usesBuffer c.op ∧ !bufferInRange s.cfg c.buf c.len then some ⟨.hostAddrRange, c.buf⟩
  else none

/-- `seq <- RUN(cmd, upc = 0, i = 0, r = unwritten)` (10_state.md R57). -/
def accept (c : Command) (s : State) : State :=
  { s with seq := some ⟨c, 0, 0, none⟩ }

/-- The `HOST` step that issues a command (10_state.md R57). -/
def issue (c : Command) (s : State) : Result :=
  match issueFault c s with
  | some f => raise f.code f.info s
  | none => .next (accept c s)

/-- The primitive is done: `upc` moves to the next one (10_state.md R43). -/
def advance (run : Run) (s : State) : Result :=
  .next { s with seq := some { run with upc := run.upc + 1 } }

/-- The byte of a `SEND`, then `k` with it. -/
def withSource (src : Source) (run : Run) (s : State) (k : Byte → Result) : Result :=
  match src with
  | .byte b => k b
  | .hostByte => withMemRead (bufferAddr run.cmd.buf run.i) s k
  | .merged =>
    match run.r with
    | some r => k (fieldMerge r run.cmd.mask run.cmd.pos run.cmd.value)
    | none => .fault .localUnwritten

/-- A `SEND` of a body, the run as it is for this step (10_state.md R32). -/
def sendFrom (src : Source) (run : Run) (s : State) : Result :=
  withSource src run s fun b => andThen (send b s) (advance run)

/-- The received byte of a `WAIT` is put where the body says, then `k` with the run as it now is. -/
def withSink (dst : Sink) (rx : Byte) (run : Run) (s : State) (k : Run → State → Result) : Result :=
  match dst with
  | .discard => k run s
  | .toLocal => k { run with r := some rx } s
  | .hostByte => andThen (memWrite (bufferAddr run.cmd.buf run.i) rx s) (k run)

/-- `WAIT` (20_memory.md R79): only the done latch lets it go on; otherwise the sequencer holds. -/
def waitStep (dst : Sink) (s : State) (run : Run) (k : Run → State → Result) : Result :=
  match s.shifter with
  | .done rx => withSink dst rx run { s with shifter := .idle } k
  | _ => .next s

/-- `RESPOND` of a body (10_state.md R45). -/
def respondStep (v : Returns) (run : Run) (s : State) : Result :=
  match v, run.r with
  | .nothing, _ => .next (respond run.cmd.op none s)
  | .fromLocal, some r => .next (respond run.cmd.op (some r) s)
  | .field, some r => .next (respond run.cmd.op (some (fieldRead r run.cmd.mask run.cmd.pos)) s)
  | _, none => .fault .localUnwritten

/-- Step 3 of the asynchronous start (45_async_frame_write.md R201). -/
def asyncArm (run : Run) (s : State) : State :=
  respond run.cmd.op none
    { s with
      asyncCursor := run.cmd.buf
      asyncRemaining := run.cmd.len
      asyncState := .writing
      cmpIrqEn := true }

/-- One primitive of the command in flight (10_state.md R32). -/
def primStep (run : Run) (s : State) : Prim → Result
  | .guardEnter => andThen (guardEnter s) (advance run)
  | .guardExit => andThen (guardExit s) (advance run)
  | .selAssert => advance run (selAssert s)
  | .selDeassert => advance run (selDeassert s)
  | .settle => advance run (settle s)
  | .send src => sendFrom src run s
  | .sendRound k src => sendFrom src { run with i := BitVec.ofNat 8 k } s
  | .wait dst => waitStep dst s run advance
  | .respond v => respondStep v run s
  | .asyncSelect => advance run (selAssert { s with actIrqEn := false })
  | .asyncArm => .next (asyncArm run s)
  | .ctrlWrite => .next (respond run.cmd.op none { s with actIrqEn := run.cmd.value.getLsbD 0 })
  | .ctrlRead => .next (respond run.cmd.op (some (ctrlByte s)) s)
  | .statusRead => .next (respond run.cmd.op (some (statusByte s)) s)

/-- The next primitive of a run (10_state.md R43). -/
def nextPrim (m : Mode) (run : Run) : Option Prim := (bodyOf m run.cmd)[run.upc]?

/-- The `SEQ` step (10_state.md R30, R32). With no command in flight `SEQ` has no step, and nothing happens (log 4). -/
def seqStep (s : State) : Result :=
  match s.seq with
  | none => .next s
  | some run =>
    match nextPrim s.cfg.mode run with
    | some p => primStep run s p
    | none => .fault (.noPrimitive run.upc)

/-- The sequencer holds at a `WAIT` while a byte is shifting (20_memory.md R79). -/
def heldAtWait (s : State) : Bool :=
  match s.seq, s.shifter with
  | some run, .busy _ =>
    match nextPrim s.cfg.mode run with
    | some (.wait _) => true
    | _ => false
  | _, _ => false

/-- The step that takes a command forward when no other agent moves: `BUS` where the sequencer holds for it, else
`SEQ`. -/
def forward (s : State) : Result := if heldAtWait s then busStep s else seqStep s

/-- Take the command in flight forward, at most `n` steps, until it has responded or a fault is recorded. -/
def drive : Nat → State → Result
  | 0, s => .next s
  | n + 1, s =>
    if s.fault.isSome || s.seq.isNone then .next s
    else
      match forward s with
      | .next t => drive n t
      | .fault f => .fault f
      | .refused f => .refused f

/-- A host command from issue to `RESPOND`, as mainline sees it (10_state.md R58, 30_encoding.md R134): the issue step,
then `SEQ` and `BUS` in the one order in which no other agent moves (log 3). Each primitive takes at most one `BUS`
step besides its own. -/
def runCommand (c : Command) (s : State) : Result :=
  whileRunning s fun s => andThen (issue c s) (drive (2 * (bodyOf s.cfg.mode c).length))

end Sys2Proof.Machine
end

