-- ==== Sys2Proof/Machine/AsyncWrite.lean ====
section
/-! DEFINITION. The Asynchronous Frame-Write State Machine: the start and the completion event
(45_async_frame_write.md R201–R204). -/

namespace Sys2Proof.Machine

/-- `FRAME_WRITE buf, len` with `MODE = NONBLOCKING`, the start (45_async_frame_write.md R201; body
`asyncStartBody`). The record on the port is that of `FRAME_WRITE`, and the instance's `MODE` selects the body
(00_scope.md R3; log 7). -/
def execFrameWriteNonblocking (buf : Nat) (len : Byte) (s : State) : Result := runCommand (.frameWrite buf len) s

/-- The cursor after one push, modulo the address space (45_async_frame_write.md R203). -/
def nextCursor (s : State) : Nat := (s.asyncCursor + 1) % s.cfg.hostSize

/-- The push branch (45_async_frame_write.md R203), the shifter already emptied. -/
def completionPush (s : State) : Result :=
  withMemRead s.asyncCursor s fun b => andThen (send b s) fun t =>
    .next { t with asyncCursor := nextCursor s, asyncRemaining := s.asyncRemaining - 1 }

/-- The completion branch (45_async_frame_write.md R204), the shifter already emptied. -/
def completionFinish (s : State) : State :=
  { selDeassert s with cmpIrqEn := false, actIrqEn := true, asyncState := .idle }

/-- The completion event, one atomic `CEV` step (45_async_frame_write.md R202, 60_exceptions.md R248): the shifter is
emptied, then exactly one branch is taken. Where the event is not enabled, nothing happens (log 4). -/
def completionStep (s : State) : Result :=
  if completionEnabled s then
    if s.asyncRemaining = 0 then .next (completionFinish { s with shifter := .idle })
    else completionPush { s with shifter := .idle }
  else .next s

end Sys2Proof.Machine
end

