-- ==== Sys2Proof/Machine/Codec.lean ====
section
/-! DEFINITION. The Subregister Codec: `BITFIELD_READ` and `BITFIELD_WRITE` (44_subregister_codec.md R190, R191). -/

namespace Sys2Proof.Machine

/-- `BITFIELD_READ addr, mask, pos` (44_subregister_codec.md R190; body `bitfieldReadBody`). -/
def execBitfieldRead (addr mask : Byte) (pos : BitVec 3) (s : State) : Result :=
  runCommand (.bitfieldRead addr mask pos) s

/-- `BITFIELD_WRITE addr, mask, pos, value` (44_subregister_codec.md R191; body `bitfieldWriteBody`). -/
def execBitfieldWrite (addr mask : Byte) (pos : BitVec 3) (value : Byte) (s : State) : Result :=
  runCommand (.bitfieldWrite addr mask pos value) s

end Sys2Proof.Machine
end

