-- ==== Sys2Proof/Machine/CommandByte.lean ====
section
/-! DEFINITION. The six bus command bytes (30_encoding.md R122), each executed by the `BUS` step that completes it: the
peer decodes the byte and enters the phase of 20_memory.md R88 (log 13). -/

namespace Sys2Proof.Machine

/-- Register write, `0xC0 | addr`: the peer enters `REGW(addr)` (20_memory.md R88, 40_register_access.md R150). -/
def execBusRegWrite (addr : RegAddr) (s : State) : Result := completeCommandByte (regWriteByte addr) s

/-- Register read, `0x80 | addr`: the peer enters `REGR(addr)` (20_memory.md R88, 40_register_access.md R151). -/
def execBusRegRead (addr : RegAddr) (s : State) : Result := completeCommandByte (regReadByte addr) s

/-- Frame write, `0x60`: the peer enters `FBW(0)` (20_memory.md R88, 41_frame_buffer.md R160). -/
def execBusFrameWrite (s : State) : Result := completeCommandByte frameWriteByte s

/-- Frame read, `0x20`: the peer enters `FBR(0)` (20_memory.md R88, 41_frame_buffer.md R161). -/
def execBusFrameRead (s : State) : Result := completeCommandByte frameReadByte s

/-- SRAM write, `0x40`: the peer awaits the offset byte in `SRW_OFF` (20_memory.md R88, 42_sram.md R170). -/
def execBusSramWrite (s : State) : Result := completeCommandByte sramWriteByte s

/-- SRAM read, `0x00`: the peer awaits the offset byte in `SRR_OFF` (20_memory.md R88, 42_sram.md R171). -/
def execBusSramRead (s : State) : Result := completeCommandByte sramReadByte s

end Sys2Proof.Machine
end

