-- ==== Sys2Proof/Machine/Control.lean ====
section
/-! DEFINITION. Control and status commands (46_control_status.md R215–R217). None makes a bus transaction. -/

namespace Sys2Proof.Machine

/-- `CTRL_WRITE value` (46_control_status.md R215). -/
def execCtrlWrite (value : Byte) (s : State) : Result := runCommand (.ctrlWrite value) s

/-- `CTRL_READ` (46_control_status.md R216). -/
def execCtrlRead (s : State) : Result := runCommand .ctrlRead s

/-- `STATUS_READ` (46_control_status.md R217). -/
def execStatusRead (s : State) : Result := runCommand .statusRead s

end Sys2Proof.Machine
end

