-- ==== Sys2Proof/Machine/Frame.lean ====
section
/-! DEFINITION. Frame buffer access: the blocking `FRAME_WRITE` and `FRAME_READ` (41_frame_buffer.md R160, R161). -/

namespace Sys2Proof.Machine

/-- `FRAME_WRITE buf, len` with `MODE = BLOCKING` (41_frame_buffer.md R160; body `frameWriteBody`). The record on the
port is that of `FRAME_WRITE`, and the instance's `MODE` selects the body (00_scope.md R3; log 7). -/
def execFrameWriteBlocking (buf : Nat) (len : Byte) (s : State) : Result := runCommand (.frameWrite buf len) s

/-- `FRAME_READ buf, len`, in both modes (41_frame_buffer.md R161; body `frameReadBody`). -/
def execFrameRead (buf : Nat) (len : Byte) (s : State) : Result := runCommand (.frameRead buf len) s

end Sys2Proof.Machine
end

