-- ==== Sys2Proof/Machine/Register.lean ====
section
/-! DEFINITION. Register access: `REG_WRITE` and `REG_READ` (40_register_access.md R150, R151). -/

namespace Sys2Proof.Machine

/-- `REG_WRITE addr, value` (40_register_access.md R150; body `regWriteBody`). -/
def execRegWrite (addr value : Byte) (s : State) : Result := runCommand (.regWrite addr value) s

/-- `REG_READ addr` (40_register_access.md R151; body `regReadBody`). -/
def execRegRead (addr : Byte) (s : State) : Result := runCommand (.regRead addr) s

end Sys2Proof.Machine
end

