-- ==== Sys2Proof/Machine/Sram.lean ====
section
/-! DEFINITION. SRAM access: `SRAM_WRITE` and `SRAM_READ` (42_sram.md R170, R171). -/

namespace Sys2Proof.Machine

/-- `SRAM_WRITE offset, buf, len` (42_sram.md R170; body `sramWriteBody`). -/
def execSramWrite (offset : Byte) (buf : Nat) (len : Byte) (s : State) : Result :=
  runCommand (.sramWrite offset buf len) s

/-- `SRAM_READ offset, buf, len` (42_sram.md R171; body `sramReadBody`). -/
def execSramRead (offset : Byte) (buf : Nat) (len : Byte) (s : State) : Result :=
  runCommand (.sramRead offset buf len) s

end Sys2Proof.Machine
end

