-- ==== Sys2Proof/Machine/Dispatch.lean ====
section
/-! DEFINITION. One arm per instruction, each one call of its meaning. -/

namespace Sys2Proof.Machine

def exec (i : Instr) (s : State) : Host.Outcome State Fault Refusal :=
  match i with
  | .busRegWrite addr => Sys2Proof.Machine.execBusRegWrite addr s
  | .busRegRead addr => Sys2Proof.Machine.execBusRegRead addr s
  | .busFrameWrite => Sys2Proof.Machine.execBusFrameWrite s
  | .busFrameRead => Sys2Proof.Machine.execBusFrameRead s
  | .busSramWrite => Sys2Proof.Machine.execBusSramWrite s
  | .busSramRead => Sys2Proof.Machine.execBusSramRead s
  | .regWrite addr value => Sys2Proof.Machine.execRegWrite addr value s
  | .regRead addr => Sys2Proof.Machine.execRegRead addr s
  | .frameWriteBlocking buf len => Sys2Proof.Machine.execFrameWriteBlocking buf len s
  | .frameWriteNonblocking buf len => Sys2Proof.Machine.execFrameWriteNonblocking buf len s
  | .frameRead buf len => Sys2Proof.Machine.execFrameRead buf len s
  | .sramWrite offset buf len => Sys2Proof.Machine.execSramWrite offset buf len s
  | .sramRead offset buf len => Sys2Proof.Machine.execSramRead offset buf len s
  | .bitfieldRead addr mask pos => Sys2Proof.Machine.execBitfieldRead addr mask pos s
  | .bitfieldWrite addr mask pos value => Sys2Proof.Machine.execBitfieldWrite addr mask pos value s
  | .ctrlWrite value => Sys2Proof.Machine.execCtrlWrite value s
  | .ctrlRead => Sys2Proof.Machine.execCtrlRead s
  | .statusRead => Sys2Proof.Machine.execStatusRead s

end Sys2Proof.Machine
end

