-- ==== Sys2Proof/Machine/Agents.lean ====
section
/-! DEFINITION. What one event does: the moves of `HOST`, `SEQ`, `BUS`, `CEV` and `ENV` (10_state.md R30; logs 1–4). -/

namespace Sys2Proof.Machine

/-- A command of a mainline program: the record is decoded and executed whole; a reserved op fails its issue check
(10_state.md R57, 30_encoding.md R132). -/
def commandLine (c : Command) (s : State) : Result :=
  match decodeRecord s.cfg.mode c with
  | .instr i => exec i s
  | .reject _ => issue c s

/-- The `HOST` step `hwrite(a, v)` (20_memory.md R71, R107). -/
def hostWrite (a : Nat) (v : Byte) (s : State) : Result := memWrite a v s

/-- The last response says `ASYNC_BUSY` (10_state.md R50, 30_encoding.md R135). -/
def answeredBusy (s : State) : Bool :=
  match s.resp.getLast? with
  | some ⟨_, some v⟩ => v.getLsbD 0
  | _ => false

/-- `POLL_IDLE`, with the lines after it (30_encoding.md R135): `STATUS_READ`; if the response's bit 0 is 1 the poll stays
the next line, otherwise mainline goes on to the line after it. -/
def pollLine (after : List Line) (s : State) : Result :=
  andThen (exec Pseudo.pollIdle.command s) fun t => .next (if answeredBusy t then t else { t with prog := after })

/-- The `HOST` move of mainline: the next line of its program. With no line left mainline has no move, and nothing happens
(30_encoding.md R134, R135; logs 4, 20). -/
def mainlineStep (s : State) : Result :=
  match s.prog with
  | [] => .next s
  | .command c :: after => commandLine c { s with prog := after }
  | .hwrite a v :: after => hostWrite a v { s with prog := after }
  | .pollIdle :: after => pollLine after s

/-- One `BUS` move. A byte that the reference peer takes as a command byte is fetched from the shifter, decoded and
executed; any other byte is completed by the peer's phase (20_memory.md R82, R88). -/
def busMove (s : State) : Result :=
  match s.shifter with
  | .busy tx =>
    if commandByteReady tx s then
      match decodeByte tx with
      | .instr i => exec i s
      | .reject _ => busStep s
    else busStep s
  | _ => busStep s

/-- One move of one agent. -/
def runEvent (e : Event) (s : State) : Result :=
  match e with
  | .mainline => mainlineStep s
  | .issue c => issue c s
  | .hostWrite a v => hostWrite a v s
  | .sequencer => seqStep s
  | .bus => busMove s
  | .completion => completionStep s
  | .environment level => .next { s with trxIrq := level }

/-- The next move: the head of the schedule, or a drawn one where the schedule is empty (10_state.md R30; log 2). -/
def takeEvent (s : State) : Event × State :=
  match s.sched with
  | e :: rest => (e, { s with sched := rest })
  | [] => ((Config.freeEvent s.draws).within s.cfg, { s with draws := s.draws + 1 })

/-- The record of a host command, as its line puts it on the port (30_encoding.md R134). -/
def lineCommand (i : Instr) : Command :=
  match encode i with
  | .record c => c
  | .byte _ => {op := 0}

/-- A host line as mainline runs it (30_encoding.md R134, R135). -/
def assemble : HostLine → Line
  | .command i => .command (lineCommand i)
  | .hwrite a v => .hwrite a v
  | .pseudo .pollIdle => .pollIdle
  | .pseudo p => .command (lineCommand p.command)

/-- A state with a host program for mainline to run (30_encoding.md R134; logs 19, 20). -/
def withProgram (s : State) (lines : List HostLine) : State :=
  { s with prog := lines.map assemble ++ s.prog }

/-- A state whose next move fetches this code: a record is mainline's next line, and mainline moves next; a byte stands in
the shifter of an open transaction, for the reference peer to take as its command byte (log 19). -/
def withCode (s : State) : Code → State
  | .record c => { s with prog := .command c :: s.prog, sched := .mainline :: s.sched }
  | .byte b =>
    { s with
      cs := true
      shifter := .busy b
      peer := { s.peer with ph := .cmd }
      sched := .bus :: s.sched }

end Sys2Proof.Machine
end

