-- ==== Sys2Proof/Machine/Step.lean ====
section
/-! DEFINITION. One step of the machine (10_state.md R30, R47), and how the host places an instruction for it. -/

namespace Sys2Proof.Machine

/-- One step: the next move of the schedule. With a fault recorded no agent has a step (10_state.md R47). -/
def step (s : State) : Host.Outcome State Fault Refusal :=
  whileRunning s fun s => runEvent (takeEvent s).1 (takeEvent s).2

/-- The state with an instruction of spec/opcode_table.json placed where the next step fetches it (logs 18, 19). A word
that is no code of the table leaves the state as it is. -/
def State.withFetchWord (s : State) (nbits w : Nat) : State :=
  match tableCode nbits w with
  | some c => withCode s c
  | none => s

end Sys2Proof.Machine
end

