-- ==== Sys2Proof/Safety.lean ====
section
/-! DEFINITION. The terms claims are stated in: when the port takes a command, and the controller's invariant
(10_state.md R51–R56, 43_critical_section_guard.md R183, R185), strengthened so that every single step keeps it. -/

namespace Sys2Proof.Machine

/-- No command is in flight, no asynchronous write is running, and the shifter and the guard are at rest: what the
invariants of 10_state.md R53–R55 leave for an idle port. -/
structure Ready (s : State) : Prop where
  fault      : s.fault = none
  seq        : s.seq = none
  asyncState : s.asyncState = .idle
  shifter    : s.shifter = .idle
  guardDepth : s.guardDepth = 0

/-- The buffer of a frame or SRAM command passes the issue check (10_state.md R57). -/
def BufferOk (s : State) (buf : Nat) (len : Byte) : Prop :=
  len ≠ 0 ∧ buf + len.toNat - 1 < s.cfg.hostSize

/-- The peer has room for `n` data bytes from place `k` of a store of that size: the unconstrained peer always, the
reference peer up to its size (20_memory.md R86, R91, R94). -/
def PeerRoom (s : State) (size k n : Nat) : Prop :=
  s.cfg.peerKind = .unconstrained ∨ k + n ≤ size

/-- The bytes of a host buffer, in order (20_memory.md R98). -/
def bufferBytes (m : List Host.Cell) (buf n : Nat) : List Byte :=
  (List.range n).map fun k => Memory.read m (buf + k)

/-- The register's content is what a register read answers (20_memory.md R90, R102): the reference peer, and no side
effect. -/
def PlainRegister (s : State) (addr : Byte) : Prop :=
  s.cfg.peerKind = .reference ∧ addrLow addr ∉ s.cfg.sideEffectRegs

/-- What a command's body has left behind by some place in it. -/
structure Spot where
  /-- Chip-select is asserted. -/
  selected : Bool
  /-- Guards held. -/
  guards   : Nat
  /-- A byte has been sent and not yet waited for. -/
  sent     : Bool
  /-- Chip-select is asserted and no byte has been sent since. -/
  fresh    : Bool
  /-- The settling delay has passed since chip-select was asserted. -/
  settled  : Bool
  /-- The activity interrupt is masked by this command. -/
  masked   : Bool
  /-- The value of the loop index `i`. -/
  index    : Nat
  /-- The local `r` has been written. -/
  hasLocal : Bool
  deriving DecidableEq, Repr

/-- The place before the first primitive. -/
def Spot.start : Spot := ⟨false, 0, false, false, false, false, 0, false⟩

/-- The place after one more primitive. -/
def Spot.after (p : Spot) : Prim → Spot
  | .guardEnter => { p with guards := p.guards + 1, masked := true }
  | .guardExit => { p with guards := p.guards - 1, masked := decide (p.guards - 1 ≠ 0) }
  | .selAssert => { p with selected := true, fresh := true, settled := false }
  | .selDeassert => { p with selected := false, fresh := false }
  | .settle => { p with settled := true }
  | .send _ => { p with sent := true, fresh := false }
  | .sendRound k _ => { p with sent := true, fresh := false, index := k }
  | .wait .toLocal => { p with sent := false, hasLocal := true }
  | .wait _ => { p with sent := false }
  | .respond _ => p
  | .asyncSelect => { p with selected := true, fresh := true, settled := false, masked := true }
  | .asyncArm => p
  | .ctrlWrite => p
  | .ctrlRead => p
  | .statusRead => p

/-- The place at which a command in flight stands. -/
def Run.spot (m : Mode) (run : Run) : Spot :=
  ((bodyOf m run.cmd).take run.upc).foldl Spot.after Spot.start

/-- A command in flight and the rest of the state agree. -/
structure RunFits (s : State) (run : Run) : Prop where
  upc      : run.upc < (bodyOf s.cfg.mode run.cmd).length
  i        : run.i.toNat = (run.spot s.cfg.mode).index
  r        : (run.spot s.cfg.mode).hasLocal = true → run.r ≠ none
  depth    : s.guardDepth.toNat = (run.spot s.cfg.mode).guards
  masked   : (run.spot s.cfg.mode).masked = true → s.actIrqEn = false
  buffer   : usesBuffer run.cmd.op = true → run.cmd.buf + run.cmd.len.toNat - 1 < s.cfg.hostSize
  selected : s.asyncState = .idle → s.cs = (run.spot s.cfg.mode).selected
  sent     : s.asyncState = .idle → (s.shifter = .idle ↔ (run.spot s.cfg.mode).sent = false)
  status   : s.asyncState = .writing → run.cmd.op = opStatusRead

/-- The controller's invariant. -/
structure BlockInv (s : State) : Prop where
  /-- 10_state.md R51. -/
  blocking : s.cfg.mode = .blocking → s.asyncState = .idle
  /-- 10_state.md R52, first half. -/
  cmpIrq   : s.cmpIrqEn = true ↔ s.asyncState = .writing
  /-- 10_state.md R52, second half; and the byte of an asynchronous write is always in the shifter. -/
  writing  : s.asyncState = .writing → s.actIrqEn = false ∧ s.cs = true ∧ s.shifter ≠ .idle
  /-- What an asynchronous write has yet to read lies in host memory. -/
  cursor   : s.asyncState = .writing → s.asyncRemaining ≠ 0 →
    s.asyncCursor + s.asyncRemaining.toNat ≤ s.cfg.hostSize
  /-- 10_state.md R53 and, with nothing running, R54 and R55. -/
  idlePort : s.seq = none → s.guardDepth = 0 ∧ (s.asyncState = .idle → s.cs = false ∧ s.shifter = .idle)
  /-- 10_state.md R42, R43. -/
  run      : ∀ run, s.seq = some run → RunFits s run
  /-- 10_state.md R55. -/
  selected : s.shifter ≠ .idle → s.cs = true
  /-- The reference peer is selected while chip-select is asserted, and waits for a command byte only where one is
  about to be sent or is on its way (20_memory.md R87, R88, 30_encoding.md R128). -/
  peer     : s.cfg.peerKind = .reference → s.cs = true → s.peer.ph ≠ .idle ∧
    (s.peer.ph = .cmd →
      (s.shifter = .idle ∧ ∃ run, s.seq = some run ∧ (run.spot s.cfg.mode).fresh = true) ∨
        ∃ tx, s.shifter = .busy tx ∧ commandPhase tx ≠ none)

/-- The byte may open a transaction: a command byte of the six forms (30_encoding.md R122, R128), that of `SRAM_READ`
after the settling delay and every other one without it (R120). -/
def opensWith (settled : Bool) (tx : Byte) : Bool :=
  (commandPhase tx).isSome && decide (tx = sramReadByte) == settled

/-- Where the bus history stands: no transaction open, one open with no byte yet (and the settling delay past or not), one
open past its command byte. -/
inductive BusPhase where
  | closed
  | opened (settled : Bool)
  | talking
  deriving DecidableEq, Repr

/-- One more event of the history; `none` where it breaks the form of a transaction (30_encoding.md R120, R128,
10_state.md R35): `SEL(1)`, for `SRAM_READ` one delay, a command byte of the six forms, any bytes, `SEL(0)`. -/
def BusPhase.next : Option BusPhase → BusEvent → Option BusPhase
  | some .closed, .sel true => some (.opened false)
  | some (.opened false), .delay _ => some (.opened true)
  | some (.opened settled), .xfer tx _ => if opensWith settled tx then some .talking else none
  | some .talking, .xfer _ _ => some .talking
  | some .talking, .sel false => some .closed
  | _, _ => none

/-- The bus history read from its start. -/
def busPhase (trace : List BusEvent) : Option BusPhase := trace.foldl BusPhase.next (some .closed)

/-- The bus history is a sequence of whole transactions, the last one perhaps still open, and the state agrees with where
it stands (10_state.md R35, R56, 30_encoding.md R120, R128). -/
def TraceOk (s : State) : Prop :=
  (busPhase s.trace = some .closed ∧ s.cs = false) ∨
  (∃ settled, busPhase s.trace = some (.opened settled) ∧ s.cs = true ∧
    ((s.shifter = .idle ∧ ∃ run, s.seq = some run ∧ (run.spot s.cfg.mode).fresh = true ∧
        (run.spot s.cfg.mode).settled = settled) ∨
      ∃ tx, s.shifter = .busy tx ∧ opensWith settled tx = true)) ∨
  (busPhase s.trace = some .talking ∧ s.cs = true ∧
    ∀ run, s.seq = some run → (run.spot s.cfg.mode).fresh = false)

/-- Both memories are in canonical form: host memory, and the reference peer's stores. -/
def Canonical (s : State) : Prop :=
  Memory.wf s.mem = true ∧ (s.cfg.peerKind = .reference → PeerStores.wf s.peer = true)

/-- A host write that may come next, as the next move or as mainline's next line, names an address of host memory
(20_memory.md R70, R71). -/
def NextMoveInRange (s : State) : Prop :=
  (∀ a v rest, s.sched = .hostWrite a v :: rest → a < s.cfg.hostSize) ∧
    ∀ a v after, s.prog = .hwrite a v :: after → a < s.cfg.hostSize

end Sys2Proof.Machine
end

