-- ==== Sys2Proof/Certificates/Slice0/Obligations.lean ====
section
/-! DEFINITION. What the provers are asked to prove of the model. Nothing is proved here. -/

open Sys2Proof Sys2Proof.Machine

/-! ### Encoding -/

/-- Every well-formed instruction of the instance's `MODE` decodes back from its code, with every operand
(30_encoding.md R122, R123, R131, R133). -/
def Obligations.DecodeOfEncode : Prop :=
  ∀ (p : Params) (i : Instr), i.wf p = true → i.inMode p.mode = true → decode p.mode (encode i) = .instr i

/-- A byte decodes to an instruction exactly if it is that instruction's command byte; every other byte is rejected as
reserved (30_encoding.md R121, R122, R128). -/
def Obligations.OnlyTheSixByteFormsDecode : Prop :=
  (∀ (b : Byte) (i : Instr), decodeByte b = .instr i ↔ encode i = .byte b) ∧
    ∀ b : Byte, (∀ i, encode i ≠ .byte b) → decodeByte b = .reject (.reservedCommandByte b)

/-- A record decodes exactly if its op is 0x1..0xB, by the fields the op uses alone: the record of the instruction it
decodes to agrees with it there (30_encoding.md R130, R131, R132). -/
def Obligations.RecordDecodesByItsOp : Prop :=
  (∀ (m : Mode) (c : Command), (∃ i, decodeRecord m c = .instr i) ↔ 1 ≤ c.op.toNat ∧ c.op.toNat ≤ 0xB) ∧
    (∀ (m : Mode) (c c' : Command), c.op = c'.op →
      (usesAddr c.op = true → c.addr = c'.addr) →
      (c.op = 0x1#4 ∨ c.op = 0x8#4 ∨ c.op = 0x9#4 → c.value = c'.value) →
      (c.op = 0x7#4 ∨ c.op = 0x8#4 → c.mask = c'.mask ∧ c.pos = c'.pos) →
      (c.op = 0x5#4 ∨ c.op = 0x6#4 → c.offset = c'.offset) →
      (usesBuffer c.op = true → c.len = c'.len ∧ c.buf = c'.buf) →
      decodeRecord m c = decodeRecord m c') ∧
    ∀ (m : Mode) (c : Command) (i : Instr), decodeRecord m c = .instr i →
      ∃ c', encode i = .record c' ∧ c'.op = c.op ∧ decodeRecord m c' = .instr i

/-- Words written out from 30_encoding.md R122, R131 and 95_test_vectors.md 1.1 decode to what they stand for. -/
def Obligations.TableWordsDecode : Prop :=
  decodeByte 0xC2 = .instr (.busRegWrite 0x02) ∧ decodeByte 0x82 = .instr (.busRegRead 0x02) ∧
    decodeByte 0x60 = .instr .busFrameWrite ∧ decodeByte 0x20 = .instr .busFrameRead ∧
    decodeByte 0x40 = .instr .busSramWrite ∧ decodeByte 0x00 = .instr .busSramRead ∧
    decodeRecord .blocking { op := 0x1, addr := 0x02, value := 0x3C } = .instr (.regWrite 0x02 0x3C) ∧
    decodeRecord .blocking { op := 0x3, buf := 0x100, len := 2 } = .instr (.frameWriteBlocking 0x100 2) ∧
    decodeRecord .nonblocking { op := 0x3, buf := 0x100, len := 2 } = .instr (.frameWriteNonblocking 0x100 2) ∧
    decodeRecord .blocking { op := 0x6, offset := 0x10, buf := 0x200, len := 3 } =
      .instr (.sramRead 0x10 0x200 3) ∧
    decodeRecord .blocking { op := 0xC } = .reject (.reservedOp 0xC)

/-! ### The step -/

/-- A step runs the decoded instruction: a record that is mainline's next line, with mainline to move next, or a command
byte that the `BUS` agent completes next (30_encoding.md R134, 20_memory.md R82, R88). The step adds only that the move is
taken off the schedule, and the line off the program. -/
def Obligations.StepRunsTheDecodedInstruction : Prop :=
  (∀ (s : State) (c : Command) (rest : List Event) (after : List Line) (i : Instr), s.fault = none →
      s.sched = .mainline :: rest → s.prog = .command c :: after → decodeRecord s.cfg.mode c = .instr i →
      step s = exec i { s with sched := rest, prog := after }) ∧
    ∀ (s : State) (b : Byte) (rest : List Event) (i : Instr), s.fault = none → s.sched = .bus :: rest →
      s.shifter = .busy b → s.cfg.peerKind = .reference → s.peer.ph = .cmd → decodeByte b = .instr i →
      step s = exec i { s with sched := rest }

/-- With a fault recorded no agent has a step, and no instruction runs (10_state.md R47, 60_exceptions.md R240). -/
def Obligations.FaultedStateHasNoStep : Prop :=
  ∀ (s : State) (f : FaultRecord), s.fault = some f →
    step s = .fault (.halted f.code f.info) ∧ ∀ i, exec i s = .fault (.halted f.code f.info)

/-- A host command run whole is nothing but small steps: what `exec` reaches, the issue step and a list of `SEQ` and
`BUS` steps reach too (10_state.md R30, R32, R57; log 3). -/
def Obligations.CommandIsSmallSteps : Prop :=
  ∀ (i : Instr) (c : Command) (s t : State) (rest : List Event), encode i = .record c →
    exec i { s with sched := rest } = .next t →
    ∃ evs : List Event, (∀ e ∈ evs, e = .sequencer ∨ e = .bus) ∧
      Sys2Proof.core.run (evs.length + 1) { s with sched := .issue c :: (evs ++ rest) } = .next t

/-! ### Reset and the whole machine -/

/-- The block after reset, in every instance: every register as 70_reset_and_hazards.md R260 gives it, memory and peer
those of the launch (R261), `CTRL` and `STATUS` as they then read, and the port ready (R263). -/
def Obligations.ResetValues : Prop :=
  ∀ (p : Params) (m : List Host.Cell) (q : Peer),
    let s := State.launch p m q
    s.cs = false ∧ s.shifter = .idle ∧ s.actIrqEn = false ∧ s.cmpIrqEn = false ∧ s.guardDepth = 0 ∧
      s.guardSaved = false ∧ s.asyncState = .idle ∧ s.asyncRemaining = 0 ∧ s.asyncCursor = 0 ∧ s.seq = none ∧
      s.trace = [] ∧ s.resp = [] ∧ s.fault = none ∧ s.cfg = p ∧ s.mem = m ∧ s.peer = q ∧
      ctrlByte s = 0x00 ∧ statusByte s = (if p.mode = .nonblocking then 0x10 else 0x00) ∧
      ∀ c, issueFault c s ≠ some ⟨.portOverlap, c.op.toNat⟩

/-- The controller's invariant holds after reset, in every instance and with any launch memory and peer. -/
def Obligations.ResetMeetsBlockInv : Prop :=
  ∀ (p : Params) (m : List Host.Cell) (q : Peer), BlockInv (State.launch p m q)

/-- Every step keeps the controller's invariant (10_state.md R51–R55, strengthened). -/
def Obligations.StepKeepsBlockInv : Prop :=
  ∀ s t : State, BlockInv s → step s = .next t → BlockInv t

/-- The invariant gives the rules R51–R55 of 10_state.md, R183 and R185 of 43_critical_section_guard.md, and R246 of
60_exceptions.md: the two interrupts are never both enabled. -/
def Obligations.BlockInvGivesTheRules : Prop :=
  ∀ s : State, BlockInv s →
    (s.cfg.mode = .blocking → s.asyncState = .idle ∧ s.cmpIrqEn = false) ∧
    (s.cmpIrqEn = true ↔ s.asyncState = .writing) ∧
    (s.asyncState = .writing → s.actIrqEn = false ∧ s.cs = true) ∧
    (s.seq = none → s.guardDepth = 0) ∧
    (s.cs = true → s.seq ≠ none ∨ s.asyncState = .writing) ∧
    (s.shifter ≠ .idle → s.cs = true) ∧
    s.guardDepth.toNat ≤ 1 ∧
    (s.guardDepth ≠ 0 → s.actIrqEn = false ∧ irqOut s = false) ∧
    ¬(s.cmpIrqEn = true ∧ s.actIrqEn = true)

/-- From a state of the invariant with no fault recorded every step has a next state, and the faults that 60_exceptions.md
R240 marks not reachable are not raised: `GUARD_DEPTH`, `SHIFTER_BUSY`, `RESERVED_CMD`. -/
def Obligations.StepNeverSticks : Prop :=
  ∀ s : State, BlockInv s → s.fault = none → NextMoveInRange s →
    ∃ t, step s = .next t ∧ ∀ f, t.fault = some f → f.code ≠ .guardDepth ∧ f.code ≠ .shifterBusy ∧ f.code ≠ .reservedCmd

/-- Every step keeps both memories in canonical form: host memory, and the reference peer's stores. -/
def Obligations.StepKeepsCanonicalMemory : Prop :=
  ∀ s t : State, Canonical s → step s = .next t → Canonical t

/-- Both memories are in canonical form after reset. -/
def Obligations.ResetMemoryIsCanonical : Prop := Canonical State.reset

/-- No step writes the configuration (10_state.md R34), and the histories only grow (R46): what stands in `trace` and
`resp` stays there. -/
def Obligations.StepKeepsConfigurationAndHistory : Prop :=
  ∀ s t : State, step s = .next t →
    t.cfg = s.cfg ∧ (∃ es, t.trace = s.trace ++ es) ∧ ∃ rs, t.resp = s.resp ++ rs

/-- The bus history stays a sequence of whole transactions (10_state.md R35, R56, 30_encoding.md R120, R128): every one
opens with `SEL(1)`, sends a command byte of the six forms first, that of `SRAM_READ` after one delay and every other one
without, and closes with one `SEL(0)` after its last byte; and `cs` says whether one is open. -/
def Obligations.StepKeepsTransactionForm : Prop :=
  ∀ s t : State, BlockInv s → TraceOk s → step s = .next t → TraceOk t

/-- After reset no transaction is open: the history is empty, it reads as closed, and `cs` is 0; so the form that every
step keeps holds there. -/
def Obligations.ResetTraceIsClosed : Prop :=
  ∀ (p : Params) (m : List Host.Cell) (q : Peer),
    let s := State.launch p m q
    s.trace = [] ∧ busPhase s.trace = some .closed ∧ s.cs = false ∧ TraceOk s

/-- Who writes what (10_state.md R35, R37–R41, R48, 20_memory.md R71). `BUS` writes no control bit. The issue step writes
`seq` and `fault`, a host write the one byte of host memory it names. Of the primitives of `SEQ` only the select
primitives (the asynchronous start's among them) write `cs`, only the guard, the asynchronous start's select and
`CTRL_WRITE` write `act_irq_en`, only the guard writes its registers, and only the last step of the asynchronous start
writes `cmp_irq_en` and the asynchronous registers. The completion event writes `cs`, the enables and `async_state` in its
last branch alone, and cursor and count in its push alone. Only `ENV` writes `trx_irq`. -/
def Obligations.WritersOfTheControlBits : Prop :=
  (∀ s t : State, busStep s = .next t →
      t.cs = s.cs ∧ t.actIrqEn = s.actIrqEn ∧ t.cmpIrqEn = s.cmpIrqEn ∧ t.guardDepth = s.guardDepth ∧
        t.guardSaved = s.guardSaved ∧ t.asyncState = s.asyncState ∧ t.asyncRemaining = s.asyncRemaining ∧
        t.asyncCursor = s.asyncCursor ∧ t.seq = s.seq ∧ t.resp = s.resp ∧ t.mem = s.mem ∧ t.trxIrq = s.trxIrq) ∧
    (∀ (c : Command) (s t : State), issue c s = .next t → ∃ r f, t = { s with seq := r, fault := f }) ∧
    (∀ (a : Nat) (v : Byte) (s t : State), hostWrite a v s = .next t →
      ∃ m, t = { s with mem := m } ∧ ∀ b, Memory.read m b = if b = a then v else Memory.read s.mem b) ∧
    (∀ (a : Nat) (v : Byte) (s : State) (rest : List Event), s.fault = none → s.sched = .hostWrite a v :: rest →
      a < 2 ^ s.cfg.hostAddrWidth → ∃ m, step s = .next { s with sched := rest, mem := m } ∧
        ∀ b, Memory.read m b = if b = a then v else Memory.read s.mem b) ∧
    (∀ s t : State, s.seq = none → seqStep s = .next t → t = s) ∧
    (∀ (s t : State) (run : Run) (x : Prim), s.seq = some run → nextPrim s.cfg.mode run = some x →
      seqStep s = .next t →
      (x ≠ .selAssert → x ≠ .selDeassert → x ≠ .asyncSelect → t.cs = s.cs) ∧
      (x ≠ .guardEnter → x ≠ .guardExit → x ≠ .asyncSelect → x ≠ .ctrlWrite → t.actIrqEn = s.actIrqEn) ∧
      (x ≠ .guardEnter → x ≠ .guardExit → t.guardDepth = s.guardDepth ∧ t.guardSaved = s.guardSaved) ∧
      (x ≠ .asyncArm → t.cmpIrqEn = s.cmpIrqEn ∧ t.asyncState = s.asyncState ∧
        t.asyncRemaining = s.asyncRemaining ∧ t.asyncCursor = s.asyncCursor)) ∧
    (∀ s t : State, s.fault = none → completionStep s = .next t →
      t.guardDepth = s.guardDepth ∧ t.guardSaved = s.guardSaved ∧ t.seq = s.seq ∧ t.resp = s.resp ∧ t.mem = s.mem ∧
        t.fault = none ∧
      (s.asyncRemaining ≠ 0 → t.cs = s.cs ∧ t.actIrqEn = s.actIrqEn ∧ t.cmpIrqEn = s.cmpIrqEn ∧
        t.asyncState = s.asyncState) ∧
      (s.asyncRemaining = 0 → t.asyncRemaining = s.asyncRemaining ∧ t.asyncCursor = s.asyncCursor)) ∧
    (∀ (e : Event) (s t : State), s.fault = none → runEvent e s = .next t → (∀ level, e ≠ .environment level) →
      t.trxIrq = s.trxIrq)

/-! ### The issue checks (10_state.md R57) -/

/-- `PORT_OVERLAP`: the first check. A command issued while another is in flight records the fault and changes nothing
else, whatever the command (10_state.md R57, 60_exceptions.md R241). -/
def Obligations.PortOverlapFaults : Prop :=
  (∀ (c : Command) (s : State) (run : Run), s.seq = some run →
      issue c s = .next { s with fault := some ⟨.portOverlap, c.op.toNat⟩ }) ∧
    ∀ (i : Instr) (c : Command) (s : State) (run : Run), encode i = .record c → s.fault = none → s.seq = some run →
      exec i s = .next { s with fault := some ⟨.portOverlap, c.op.toNat⟩ }

/-- `ASYNC_OVERLAP` and `BUS_BUSY`: while an asynchronous write runs, `FRAME_WRITE` faults with the one and every other
command but `STATUS_READ` with the other, before any check of an operand, and nothing else changes (10_state.md R57,
45_async_frame_write.md R206). -/
def Obligations.CommandsFaultDuringAsyncWrite : Prop :=
  ∀ (i : Instr) (c : Command) (s : State), encode i = .record c → s.fault = none → s.seq = none →
    s.asyncState = .writing →
    (c.op = 0x3#4 → exec i s = .next { s with fault := some ⟨.asyncOverlap, 0x3⟩ }) ∧
      (c.op ≠ 0x3#4 → c.op ≠ 0xB#4 → exec i s = .next { s with fault := some ⟨.busBusy, c.op.toNat⟩ })

/-- `ADDR_RANGE`, `ZERO_LENGTH`, `HOST_ADDR_RANGE`, in this order: what the operand checks record with the port and the
asynchronous machine idle; nothing else changes (10_state.md R57). -/
def Obligations.OperandFaults : Prop :=
  ∀ (i : Instr) (c : Command) (s : State), encode i = .record c → s.fault = none → s.seq = none →
    s.asyncState = .idle →
    (c.op = 0x1#4 ∨ c.op = 0x2#4 ∨ c.op = 0x7#4 ∨ c.op = 0x8#4 → 0x40 ≤ c.addr.toNat →
      exec i s = .next { s with fault := some ⟨.addrRange, c.addr.toNat⟩ }) ∧
    (c.op = 0x3#4 ∨ c.op = 0x4#4 ∨ c.op = 0x5#4 ∨ c.op = 0x6#4 →
      (c.len = 0 → exec i s = .next { s with fault := some ⟨.zeroLength, c.op.toNat⟩ }) ∧
      (c.len ≠ 0 → s.cfg.hostSize ≤ c.buf + c.len.toNat - 1 →
        exec i s = .next { s with fault := some ⟨.hostAddrRange, c.buf⟩ }))

/-- `ILLEGAL_OP`: a reserved op code is refused at issue, by the issue step and as mainline's next line (30_encoding.md
R132). -/
def Obligations.ReservedOpFaults : Prop :=
  ∀ (c : Command) (s : State), c.op.toNat = 0 ∨ 0xC ≤ c.op.toNat → s.fault = none → s.seq = none →
    issue c s = .next { s with fault := some ⟨.illegalOp, c.op.toNat⟩ } ∧
      ∀ after, s.prog = .command c :: after →
        mainlineStep s = .next { s with prog := after, fault := some ⟨.illegalOp, c.op.toNat⟩ }

/-- A command that passes every check is accepted at `upc = 0`, with `i = 0` and `r` unwritten (10_state.md R57). -/
def Obligations.AcceptedCommandStarts : Prop :=
  ∀ (c : Command) (s : State), s.seq = none → 1 ≤ c.op.toNat → c.op.toNat ≤ 0xB →
    (s.asyncState = .writing → c.op = 0xB#4) →
    (c.op = 0x1#4 ∨ c.op = 0x2#4 ∨ c.op = 0x7#4 ∨ c.op = 0x8#4 → c.addr.toNat < 0x40) →
    (c.op = 0x3#4 ∨ c.op = 0x4#4 ∨ c.op = 0x5#4 ∨ c.op = 0x6#4 →
      c.len ≠ 0 ∧ c.buf + c.len.toNat - 1 < s.cfg.hostSize) →
    issue c s = .next { s with seq := some ⟨c, 0, 0, none⟩ }

/-! ### The commands, each from issue to `RESPOND` -/

/-- `REG_WRITE` (40_register_access.md R150): its trace, its response, the peer's register, and nothing else but
`guard_saved` and the free values drawn. -/
def Obligations.RegWriteEffect : Prop :=
  ∀ (addr value : Byte) (s : State), Ready s → addr.toNat < 0x40 →
    ∃ (d0 d1 : Byte) (p : Peer) (n : Nat),
      exec (.regWrite addr value) s = .next { s with
        cs := false
        guardSaved := s.actIrqEn
        trace := s.trace ++ [.sel true, .xfer (0xC0#8 ||| addr) d0, .xfer value d1, .sel false]
        resp := s.resp ++ [⟨0x1, none⟩]
        peer := p
        draws := n } ∧
      (s.cfg.peerKind = .reference →
        p = { s.peer with regs := Cells.put s.peer.regs addr.toNat value, ph := .idle })

/-- `REG_READ` (40_register_access.md R151): it responds with the byte received during the dummy byte; the reference peer
answers a written plain register with its content (20_memory.md R90). -/
def Obligations.RegReadEffect : Prop :=
  ∀ (addr : Byte) (s : State), Ready s → addr.toNat < 0x40 →
    ∃ (d0 r : Byte) (p : Peer) (n : Nat),
      exec (.regRead addr) s = .next { s with
        cs := false
        guardSaved := s.actIrqEn
        trace := s.trace ++ [.sel true, .xfer (0x80#8 ||| addr) d0, .xfer 0x00 r, .sel false]
        resp := s.resp ++ [⟨0x2, some r⟩]
        peer := p
        draws := n } ∧
      (s.cfg.peerKind = .reference → p = { s.peer with ph := .idle }) ∧
      (PlainRegister s addr → ∀ v, Cells.get s.peer.regs addr.toNat = some v → r = v)

/-- `BITFIELD_READ` (44_subregister_codec.md R190): the same transaction as `REG_READ`, and `(r & mask) >> pos`. -/
def Obligations.BitfieldReadEffect : Prop :=
  ∀ (addr mask : Byte) (pos : BitVec 3) (s : State), Ready s → addr.toNat < 0x40 →
    ∃ (d0 r : Byte) (p : Peer) (n : Nat),
      exec (.bitfieldRead addr mask pos) s = .next { s with
        cs := false
        guardSaved := s.actIrqEn
        trace := s.trace ++ [.sel true, .xfer (0x80#8 ||| addr) d0, .xfer 0x00 r, .sel false]
        resp := s.resp ++ [⟨0x7, some ((r &&& mask) >>> pos.toNat)⟩]
        peer := p
        draws := n } ∧
      (s.cfg.peerKind = .reference → p = { s.peer with ph := .idle }) ∧
      (PlainRegister s addr → ∀ v, Cells.get s.peer.regs addr.toNat = some v → r = v)

/-- `BITFIELD_WRITE` (44_subregister_codec.md R191): a read transaction, then a write transaction that carries the
merge of the read byte with the field. -/
def Obligations.BitfieldWriteEffect : Prop :=
  ∀ (addr mask : Byte) (pos : BitVec 3) (value : Byte) (s : State), Ready s → addr.toNat < 0x40 →
    ∃ (d0 r d1 d2 m : Byte) (p : Peer) (n : Nat),
      m = (r &&& ~~~mask) ||| (((value.setWidth 16) <<< pos.toNat).setWidth 8 &&& mask) ∧
      exec (.bitfieldWrite addr mask pos value) s = .next { s with
        cs := false
        guardSaved := s.actIrqEn
        trace := s.trace ++ [.sel true, .xfer (0x80#8 ||| addr) d0, .xfer 0x00 r, .sel false,
          .sel true, .xfer (0xC0#8 ||| addr) d1, .xfer m d2, .sel false]
        resp := s.resp ++ [⟨0x8, none⟩]
        peer := p
        draws := n } ∧
      (s.cfg.peerKind = .reference →
        p = { s.peer with regs := Cells.put s.peer.regs addr.toNat m, ph := .idle }) ∧
      (PlainRegister s addr → ∀ v, Cells.get s.peer.regs addr.toNat = some v → r = v)

/-- The blocking `FRAME_WRITE` (41_frame_buffer.md R160): the buffer's bytes go out in order; host memory is unchanged;
the reference peer's frame buffer holds them from its start, and its other cells are as before. It is what `FRAME_WRITE`
does by either of its names when `MODE = BLOCKING`. -/
def Obligations.FrameWriteBlockingEffect : Prop :=
  ∀ (i : Instr) (buf : Nat) (len : Byte) (s : State),
    i = .frameWriteBlocking buf len ∨ i = .frameWriteNonblocking buf len →
    Ready s → s.cfg.mode = .blocking → BufferOk s buf len → PeerRoom s s.cfg.frameBufferSize 0 len.toNat →
    ∃ (d0 : Byte) (ds : List Byte) (p : Peer) (n : Nat), ds.length = len.toNat ∧
      exec i s = .next { s with
        cs := false
        guardSaved := s.actIrqEn
        trace := s.trace ++ [.sel true, .xfer 0x60 d0]
          ++ List.zipWith .xfer (bufferBytes s.mem buf len.toNat) ds ++ [.sel false]
        resp := s.resp ++ [⟨0x3, none⟩]
        peer := p
        draws := n } ∧
      (s.cfg.peerKind = .reference → p.ph = .idle ∧ p.regs = s.peer.regs ∧ p.sram = s.peer.sram ∧
        ∀ k, Cells.get p.fb k =
          if k < len.toNat then some (Memory.read s.mem (buf + k)) else Cells.get s.peer.fb k)

/-- The asynchronous `FRAME_WRITE` start (45_async_frame_write.md R201): when it responds, the command byte is in the
shifter and the machine is armed; nothing else has changed. It is what `FRAME_WRITE` does by either of its names when
`MODE = NONBLOCKING`. -/
def Obligations.AsyncStartEffect : Prop :=
  ∀ (i : Instr) (buf : Nat) (len : Byte) (s : State),
    i = .frameWriteNonblocking buf len ∨ i = .frameWriteBlocking buf len →
    Ready s → s.cfg.mode = .nonblocking → BufferOk s buf len →
    ∃ (p : Peer) (n : Nat),
      exec i s = .next { s with
        cs := true
        shifter := .busy 0x60
        actIrqEn := false
        cmpIrqEn := true
        asyncState := .writing
        asyncRemaining := len
        asyncCursor := buf
        trace := s.trace ++ [.sel true]
        resp := s.resp ++ [⟨0x3, none⟩]
        peer := p
        draws := n } ∧
      (s.cfg.peerKind = .reference → p = { s.peer with ph := .cmd } ∧ n = s.draws)

/-- `FRAME_READ` (41_frame_buffer.md R161): one dummy byte per data byte, each answer stored at `buf + k`, every other
byte of host memory unchanged; the guard is not taken. -/
def Obligations.FrameReadEffect : Prop :=
  ∀ (buf : Nat) (len : Byte) (s : State), Ready s → BufferOk s buf len →
    PeerRoom s s.cfg.frameBufferSize 0 len.toNat →
    ∃ (d0 : Byte) (fs : List Byte) (m : List Host.Cell) (p : Peer) (n : Nat), fs.length = len.toNat ∧
      exec (.frameRead buf len) s = .next { s with
        cs := false
        trace := s.trace ++ [.sel true, .xfer 0x20 d0] ++ fs.map (.xfer 0x00) ++ [.sel false]
        resp := s.resp ++ [⟨0x4, none⟩]
        mem := m
        peer := p
        draws := n } ∧
      (∀ a, Memory.read m a = if buf ≤ a ∧ a < buf + len.toNat then fs.getD (a - buf) 0 else Memory.read s.mem a) ∧
      (s.cfg.peerKind = .reference → p = { s.peer with ph := .idle } ∧
        ∀ k v, k < len.toNat → Cells.get s.peer.fb k = some v → fs[k]? = some v)

/-- `SRAM_WRITE` (42_sram.md R170): command byte, offset byte, the buffer's bytes in order; host memory is unchanged; the
reference peer's SRAM holds them from the offset, and its other cells are as before. -/
def Obligations.SramWriteEffect : Prop :=
  ∀ (offset : Byte) (buf : Nat) (len : Byte) (s : State), Ready s → BufferOk s buf len →
    PeerRoom s s.cfg.sramSize offset.toNat len.toNat →
    ∃ (d0 d1 : Byte) (ds : List Byte) (p : Peer) (n : Nat), ds.length = len.toNat ∧
      exec (.sramWrite offset buf len) s = .next { s with
        cs := false
        guardSaved := s.actIrqEn
        trace := s.trace ++ [.sel true, .xfer 0x40 d0, .xfer offset d1]
          ++ List.zipWith .xfer (bufferBytes s.mem buf len.toNat) ds ++ [.sel false]
        resp := s.resp ++ [⟨0x5, none⟩]
        peer := p
        draws := n } ∧
      (s.cfg.peerKind = .reference → p.ph = .idle ∧ p.regs = s.peer.regs ∧ p.fb = s.peer.fb ∧
        ∀ a, Cells.get p.sram a =
          if offset.toNat ≤ a ∧ a < offset.toNat + len.toNat then some (Memory.read s.mem (buf + (a - offset.toNat)))
          else Cells.get s.peer.sram a)

/-- `SRAM_READ` (42_sram.md R171): the settling delay between `SEL(1)` and the command byte, the offset byte, one dummy
byte per data byte, each answer stored at `buf + k`, every other byte of host memory unchanged. -/
def Obligations.SramReadEffect : Prop :=
  ∀ (offset : Byte) (buf : Nat) (len : Byte) (s : State), Ready s → BufferOk s buf len →
    PeerRoom s s.cfg.sramSize offset.toNat len.toNat →
    ∃ (d0 d1 : Byte) (fs : List Byte) (m : List Host.Cell) (p : Peer) (n : Nat), fs.length = len.toNat ∧
      exec (.sramRead offset buf len) s = .next { s with
        cs := false
        guardSaved := s.actIrqEn
        trace := s.trace ++ [.sel true, .delay s.cfg.tSramSettle, .xfer 0x00 d0, .xfer offset d1]
          ++ fs.map (.xfer 0x00) ++ [.sel false]
        resp := s.resp ++ [⟨0x6, none⟩]
        mem := m
        peer := p
        draws := n } ∧
      (∀ a, Memory.read m a = if buf ≤ a ∧ a < buf + len.toNat then fs.getD (a - buf) 0 else Memory.read s.mem a) ∧
      (s.cfg.peerKind = .reference → p = { s.peer with ph := .idle } ∧
        ∀ k v, k < len.toNat → Cells.get s.peer.sram (offset.toNat + k) = some v → fs[k]? = some v)

/-- `CTRL_WRITE` (46_control_status.md R215): bit 0 of the value becomes `act_irq_en`; it responds with no data, and
nothing else changes. -/
def Obligations.CtrlWriteEffect : Prop :=
  ∀ (value : Byte) (s : State), s.fault = none → s.seq = none → s.asyncState = .idle →
    exec (.ctrlWrite value) s =
      .next { s with actIrqEn := value.getLsbD 0, resp := s.resp ++ [⟨0x9, none⟩] }

/-- `CTRL_READ` (46_control_status.md R216): it responds with `act_irq_en` in bit 0 and zeros above, and nothing else
changes. -/
def Obligations.CtrlReadEffect : Prop :=
  ∀ s : State, s.fault = none → s.seq = none → s.asyncState = .idle →
    exec .ctrlRead s = .next { s with resp := s.resp ++ [⟨0xA, some (if s.actIrqEn then 0x01 else 0x00)⟩] }

/-- `STATUS_READ` (46_control_status.md R217, 10_state.md R50): it responds with the status bits, also while an
asynchronous write runs, and nothing else changes. -/
def Obligations.StatusReadEffect : Prop :=
  ∀ s : State, s.fault = none → s.seq = none →
    ∃ v : Byte, exec .statusRead s = .next { s with resp := s.resp ++ [⟨0xB, some v⟩] } ∧
      (v.getLsbD 0 = true ↔ s.asyncState = .writing) ∧ v.getLsbD 1 = s.cs ∧ v.getLsbD 2 = s.cmpIrqEn ∧
      v.getLsbD 3 = s.actIrqEn ∧ (v.getLsbD 4 = true ↔ s.cfg.mode = .nonblocking) ∧
      v.getLsbD 5 = false ∧ v.getLsbD 6 = false ∧ v.getLsbD 7 = false

/-- The six bus command bytes, each completed by the `BUS` step (20_memory.md R82, R88): the byte's exchange is in the
trace with a free answer, and the reference peer enters the phase of the command; the unconstrained peer moves to a free
state (R86). Nothing else changes. -/
def Obligations.CommandByteEffect : Prop :=
  ∀ (i : Instr) (b : Byte) (ph : Phase) (s : State),
    ((∃ a, i = .busRegWrite a ∧ ph = .regw a) ∨ (∃ a, i = .busRegRead a ∧ ph = .regr a) ∨
      (i = .busFrameWrite ∧ ph = .fbw 0) ∨ (i = .busFrameRead ∧ ph = .fbr 0) ∨
      (i = .busSramWrite ∧ ph = .srwOff) ∨ (i = .busSramRead ∧ ph = .srrOff)) →
    encode i = .byte b → s.fault = none → s.shifter = .busy b →
    (s.cfg.peerKind = .reference → s.peer.ph = .cmd) →
    exec i s = .next { s with
      shifter := .done (Config.freeByte s.draws)
      trace := s.trace ++ [.xfer b (Config.freeByte s.draws)]
      peer := if s.cfg.peerKind = .reference then { s.peer with ph := ph } else Config.freePeer s.draws
      draws := s.draws + 1 }

/-- A command byte that is not in the shifter, or that the reference peer does not await, is not completed: `BUS` has no
such step, and nothing changes (20_memory.md R82; logs 4, 13). -/
def Obligations.CommandByteNotThere : Prop :=
  ∀ (i : Instr) (b : Byte) (s : State), encode i = .byte b → s.fault = none →
    s.shifter ≠ .busy b ∨ (s.cfg.peerKind = .reference ∧ s.peer.ph ≠ .cmd) → exec i s = .next s

/-- The frame of the host commands, in every state and whatever comes of the command: the configuration, the program,
the schedule and `trx_irq` stay; `cmp_irq_en` and the asynchronous machine change only by `FRAME_WRITE`; host memory changes only in the
buffer of `FRAME_READ` and `SRAM_READ`. -/
def Obligations.HostCommandFrame : Prop :=
  ∀ (i : Instr) (c : Command) (s t : State), encode i = .record c → exec i s = .next t →
    t.cfg = s.cfg ∧ t.prog = s.prog ∧ t.sched = s.sched ∧ t.trxIrq = s.trxIrq ∧
    (c.op ≠ 0x3#4 → t.cmpIrqEn = s.cmpIrqEn ∧ t.asyncState = s.asyncState ∧ t.asyncRemaining = s.asyncRemaining ∧
      t.asyncCursor = s.asyncCursor) ∧
    (c.op ≠ 0x4#4 → c.op ≠ 0x6#4 → t.mem = s.mem) ∧
    (∀ a, a < c.buf ∨ c.buf + c.len.toNat ≤ a → Memory.read t.mem a = Memory.read s.mem a) ∧
    (c.op = 0x4#4 ∨ c.op = 0x9#4 ∨ c.op = 0xA#4 ∨ c.op = 0xB#4 →
      t.guardDepth = s.guardDepth ∧ t.guardSaved = s.guardSaved) ∧
    (c.op = 0x4#4 ∨ c.op = 0xA#4 ∨ c.op = 0xB#4 → t.actIrqEn = s.actIrqEn)

/-! ### Round trips (the laws of the reference peer) -/

/-- Register round trip (40_register_access.md R152). -/
def Obligations.RegisterRoundTrip : Prop :=
  ∀ (addr value : Byte) (s : State), Ready s → addr.toNat < 0x40 → PlainRegister s addr →
    ∃ t u, exec (.regWrite addr value) s = .next t ∧ exec (.regRead addr) t = .next u ∧
      u.resp = s.resp ++ [⟨0x1, none⟩, ⟨0x2, some value⟩]

/-- Frame round trip (41_frame_buffer.md R162): with the blocking write, and with the asynchronous write once it has
completed, here with `BUS` completing each byte before its completion event (log 1). -/
def Obligations.FrameRoundTrip : Prop :=
  (∀ (b c : Nat) (len : Byte) (s : State), Ready s → s.cfg.mode = .blocking → s.cfg.peerKind = .reference →
    BufferOk s b len → BufferOk s c len → len.toNat ≤ s.cfg.frameBufferSize →
    ∃ t u, exec (.frameWriteBlocking b len) s = .next t ∧ exec (.frameRead c len) t = .next u ∧
      ∀ k, k < len.toNat → Memory.read u.mem (c + k) = Memory.read s.mem (b + k)) ∧
  ∀ (b c : Nat) (len : Byte) (s : State) (rest : List Event), Ready s → s.cfg.mode = .nonblocking →
    s.cfg.peerKind = .reference → BufferOk s b len → BufferOk s c len → len.toNat ≤ s.cfg.frameBufferSize →
    ∃ t u v, exec (.frameWriteNonblocking b len) s = .next t ∧
      Sys2Proof.core.run (2 * (len.toNat + 1)) { t with
          sched := (List.replicate (len.toNat + 1) [Event.bus, Event.completion]).flatten ++ rest } = .next u ∧
      u.asyncState = .idle ∧ exec (.frameRead c len) u = .next v ∧
      ∀ k, k < len.toNat → Memory.read v.mem (c + k) = Memory.read s.mem (b + k)

/-- SRAM round trip, at any offset (42_sram.md R172). -/
def Obligations.SramRoundTrip : Prop :=
  ∀ (offset : Byte) (b c : Nat) (len : Byte) (s : State), Ready s → s.cfg.peerKind = .reference →
    BufferOk s b len → BufferOk s c len → offset.toNat + len.toNat ≤ s.cfg.sramSize →
    ∃ t u, exec (.sramWrite offset b len) s = .next t ∧ exec (.sramRead offset c len) t = .next u ∧
      ∀ k, k < len.toNat → Memory.read u.mem (c + k) = Memory.read s.mem (b + k)

/-- Bit-field round trip (44_subregister_codec.md R193): the field reads back, as the value itself where that fits
the field, and every bit outside the mask is as it was. -/
def Obligations.BitfieldRoundTrip : Prop :=
  ∀ (addr mask : Byte) (pos : BitVec 3) (value r0 : Byte) (s : State), Ready s → addr.toNat < 0x40 →
    PlainRegister s addr → Cells.get s.peer.regs addr.toNat = some r0 →
    ∃ t u w r, exec (.bitfieldWrite addr mask pos value) s = .next t ∧
      exec (.bitfieldRead addr mask pos) t = .next u ∧ exec (.regRead addr) u = .next w ∧
      w.resp = s.resp ++ [⟨0x8, none⟩,
        ⟨0x7, some ((((value.setWidth 16) <<< pos.toNat).setWidth 8 &&& mask) >>> pos.toNat)⟩, ⟨0x2, some r⟩] ∧
      r = (r0 &&& ~~~mask) ||| (((value.setWidth 16) <<< pos.toNat).setWidth 8 &&& mask) ∧
      (∀ n, mask.getLsbD n = false → r.getLsbD n = r0.getLsbD n) ∧
      (((value.setWidth 16) <<< pos.toNat) &&& mask.setWidth 16 = (value.setWidth 16) <<< pos.toNat →
        (((value.setWidth 16) <<< pos.toNat).setWidth 8 &&& mask) >>> pos.toNat = value)

/-! ### The asynchronous write -/

/-- The completion event, push branch (45_async_frame_write.md R203): the byte is read from host memory at this step and
sent; the cursor goes on modulo the address space; nothing else changes. -/
def Obligations.CompletionPushRule : Prop :=
  ∀ s : State, s.fault = none → completionEnabled s = true → s.asyncRemaining ≠ 0 → s.asyncCursor < s.cfg.hostSize →
    completionStep s = .next { s with
      shifter := .busy (Memory.read s.mem s.asyncCursor)
      asyncCursor := (s.asyncCursor + 1) % 2 ^ s.cfg.hostAddrWidth
      asyncRemaining := s.asyncRemaining - 1 }

/-- The completion event, completion branch (45_async_frame_write.md R204): select is deasserted, the bus-completion
interrupt disabled, the activity interrupt enabled whatever it was, and the machine idle. -/
def Obligations.CompletionFinishRule : Prop :=
  ∀ s : State, completionEnabled s = true → s.asyncRemaining = 0 →
    ∃ (p : Peer) (n : Nat),
      completionStep s = .next { s with
        shifter := .idle
        cs := false
        trace := s.trace ++ [.sel false]
        cmpIrqEn := false
        actIrqEn := true
        asyncState := .idle
        peer := p
        draws := n } ∧
      (s.cfg.peerKind = .reference → p = { s.peer with ph := .idle } ∧ n = s.draws)

/-- The completion event happens only in `NONBLOCKING`, with `cmp_irq_en` set and a finished byte in the shifter
(45_async_frame_write.md R202, 20_memory.md R84); otherwise `CEV` has no step and nothing changes. -/
def Obligations.CompletionOnlyWhenEnabled : Prop :=
  ∀ s : State, s.cfg.mode = .blocking ∨ s.cmpIrqEn = false ∨ (∀ rx, s.shifter ≠ .done rx) →
    completionStep s = .next s

/-- The asynchronous machine's transitions (45_async_frame_write.md R200): into `WRITING` only by the start, which has
asserted select, sent the command byte and recorded buffer and length; on in `WRITING` at a push; out of it only by the
completion event that finds no byte remaining. No other move changes the state. A command line of mainline is the
model's own whole move (log 3). -/
def Obligations.AsyncStateTransitions : Prop :=
  ∀ (s t : State) (e : Event), BlockInv s → s.fault = none → runEvent e s = .next t →
    (s.asyncState = .idle → t.asyncState = .writing →
      s.cfg.mode = .nonblocking ∧ t.cs = true ∧ t.shifter ≠ .idle ∧ ∃ c : Command, c.op = 0x3#4 ∧
        ((e = .mainline ∧ ∃ after, s.prog = .command c :: after) ∨ (e = .sequencer ∧ ∃ run, s.seq = some run ∧ run.cmd = c ∧
          nextPrim s.cfg.mode run = some .asyncArm)) ∧
        t.asyncRemaining = c.len ∧ t.asyncCursor = c.buf) ∧
    (s.asyncState = .writing → e = .completion → completionEnabled s = true → s.asyncRemaining ≠ 0 →
      t.asyncState = .writing ∧ t.asyncRemaining = s.asyncRemaining - 1) ∧
    (s.asyncState = .writing → t.asyncState = .idle →
      e = .completion ∧ completionEnabled s = true ∧ s.asyncRemaining = 0)

/-- An asynchronous write of `len` bytes takes exactly `len + 1` completion events (45_async_frame_write.md R205): from
the start's response, with `BUS` completing each byte before its event, the machine is still writing with chip-select
asserted before the last event, and after it the trace is that of the blocking write, the machine is idle and ready for
the next command, and the reference peer's frame buffer holds the bytes. The schedule is one of those R30 allows (log 1). -/
def Obligations.AsyncWriteTakesOneMoreEventThanBytes : Prop :=
  ∀ (buf : Nat) (len : Byte) (s : State) (rest : List Event), Ready s → s.cfg.mode = .nonblocking →
    BufferOk s buf len → PeerRoom s s.cfg.frameBufferSize 0 len.toNat →
    ∃ (t u : State) (d0 : Byte) (ds : List Byte), ds.length = len.toNat ∧
      exec (.frameWriteNonblocking buf len) s = .next t ∧
      (∀ j, j < 2 * (len.toNat + 1) → ∃ v, Sys2Proof.core.run j { t with
          sched := (List.replicate (len.toNat + 1) [Event.bus, Event.completion]).flatten ++ rest } = .next v ∧
        v.asyncState = .writing ∧ v.cs = true) ∧
      Sys2Proof.core.run (2 * (len.toNat + 1)) { t with
          sched := (List.replicate (len.toNat + 1) [Event.bus, Event.completion]).flatten ++ rest } = .next u ∧
      u.trace = s.trace ++ [.sel true, .xfer 0x60 d0]
        ++ List.zipWith .xfer (bufferBytes s.mem buf len.toNat) ds ++ [.sel false] ∧
      Ready u ∧ u.cs = false ∧ u.cmpIrqEn = false ∧ u.actIrqEn = true ∧
      u.asyncRemaining = 0 ∧ u.cfg = s.cfg ∧ u.mem = s.mem ∧ u.prog = s.prog ∧ u.sched = rest ∧
      (s.cfg.peerKind = .reference → ∀ k, k < len.toNat → Cells.get u.peer.fb k = some (Memory.read s.mem (buf + k)))

/-! ### The guard -/

/-- `GUARD_ENTER` and `GUARD_EXIT` as steps of `SEQ` (43_critical_section_guard.md R180, R181): the enable is saved at the
outermost entry and restored at the outermost exit; at depth 255 and at depth 0 they fault and change nothing else. -/
def Obligations.GuardRules : Prop :=
  ∀ (s : State) (run : Run), s.fault = none → s.seq = some run →
    (nextPrim s.cfg.mode run = some .guardEnter →
      (s.guardDepth.toNat < 255 → seqStep s = .next { s with
        seq := some { run with upc := run.upc + 1 }
        guardSaved := if s.guardDepth = 0 then s.actIrqEn else s.guardSaved
        actIrqEn := false
        guardDepth := s.guardDepth + 1 }) ∧
      (s.guardDepth.toNat = 255 → seqStep s = .next { s with fault := some ⟨.guardDepth, 255⟩ })) ∧
    (nextPrim s.cfg.mode run = some .guardExit →
      (s.guardDepth ≠ 0 → seqStep s = .next { s with
        seq := some { run with upc := run.upc + 1 }
        guardDepth := s.guardDepth - 1
        actIrqEn := if s.guardDepth = 1 then s.guardSaved else s.actIrqEn }) ∧
      (s.guardDepth = 0 → seqStep s = .next { s with fault := some ⟨.guardDepth, 0⟩ }))

/-- An empty guard leaves everything but `guard_saved` as it was, at any depth (43_critical_section_guard.md R184, R185):
from depth 0 `guard_saved` then holds the enable; from a greater depth the enable stays 0 if it was 0. -/
def Obligations.EmptyGuardIsNoOp : Prop :=
  ∀ s : State, s.guardDepth.toNat < 255 → (s.guardDepth ≠ 0 → s.actIrqEn = false) →
    ∃ t, guardEnter s = .next t ∧
      guardExit t = .next { s with guardSaved := if s.guardDepth = 0 then s.actIrqEn else s.guardSaved }

/-! ### The bus primitives and the peer -/

/-- `SEL_ASSERT` (20_memory.md R76), in a body and in step 1 of the asynchronous start: `cs` is 1, `SEL(1)` is in the
trace, and the peer sees the assertion. -/
def Obligations.SelAssertRule : Prop :=
  ∀ (s : State) (run : Run) (x : Prim), s.seq = some run → nextPrim s.cfg.mode run = some x →
    x = .selAssert ∨ x = .asyncSelect →
    ∃ (p : Peer) (n : Nat),
      seqStep s = .next { s with
        seq := some { run with upc := run.upc + 1 }
        cs := true
        actIrqEn := if x = .asyncSelect then false else s.actIrqEn
        trace := s.trace ++ [.sel true]
        peer := p
        draws := n } ∧
      (s.cfg.peerKind = .reference → p = { s.peer with ph := .cmd } ∧ n = s.draws)

/-- `SEL_DEASSERT` (20_memory.md R77) and `SETTLE` (R81) as steps of `SEQ`: each puts its event in the trace. The one
deasserts chip-select, and the reference peer goes to phase `IDLE` (R87); the other writes no other state but the place in
the body. -/
def Obligations.SelDeassertAndSettleRules : Prop :=
  ∀ (s : State) (run : Run), s.seq = some run →
    (nextPrim s.cfg.mode run = some .selDeassert → ∃ (p : Peer) (n : Nat),
      seqStep s = .next { s with
        seq := some { run with upc := run.upc + 1 }
        cs := false
        trace := s.trace ++ [.sel false]
        peer := p
        draws := n } ∧
      (s.cfg.peerKind = .reference → p = { s.peer with ph := .idle } ∧ n = s.draws)) ∧
    (nextPrim s.cfg.mode run = some .settle → seqStep s = .next { s with
      seq := some { run with upc := run.upc + 1 }
      trace := s.trace ++ [.delay s.cfg.tSramSettle] })

/-- `RESPOND` (10_state.md R45) as a step of `SEQ`, in every body that ends with it and in the one-step bodies: it appends
the op and the value to the responses and frees the port, with what its own step writes besides (44_subregister_codec.md
R190, 45_async_frame_write.md R201, 46_control_status.md R215–R217). A step of `SEQ` frees the port exactly if it is the
last of its body. -/
def Obligations.RespondRule : Prop :=
  ∀ (s : State) (run : Run), s.seq = some run →
    (nextPrim s.cfg.mode run = some (.respond .nothing) → seqStep s = .next { s with
      seq := none, resp := s.resp ++ [⟨run.cmd.op, none⟩] }) ∧
    (∀ r, run.r = some r → nextPrim s.cfg.mode run = some (.respond .fromLocal) → seqStep s = .next { s with
      seq := none, resp := s.resp ++ [⟨run.cmd.op, some r⟩] }) ∧
    (∀ r, run.r = some r → nextPrim s.cfg.mode run = some (.respond .field) → seqStep s = .next { s with
      seq := none, resp := s.resp ++ [⟨run.cmd.op, some ((r &&& run.cmd.mask) >>> run.cmd.pos.toNat)⟩] }) ∧
    (nextPrim s.cfg.mode run = some .asyncArm → seqStep s = .next { s with
      asyncCursor := run.cmd.buf
      asyncRemaining := run.cmd.len
      asyncState := .writing
      cmpIrqEn := true
      seq := none
      resp := s.resp ++ [⟨run.cmd.op, none⟩] }) ∧
    (nextPrim s.cfg.mode run = some .ctrlWrite → seqStep s = .next { s with
      actIrqEn := run.cmd.value.getLsbD 0, seq := none, resp := s.resp ++ [⟨run.cmd.op, none⟩] }) ∧
    (nextPrim s.cfg.mode run = some .ctrlRead → seqStep s = .next { s with
      seq := none, resp := s.resp ++ [⟨run.cmd.op, some (if s.actIrqEn then 0x01 else 0x00)⟩] }) ∧
    (nextPrim s.cfg.mode run = some .statusRead → seqStep s = .next { s with
      seq := none, resp := s.resp ++ [⟨run.cmd.op, some (statusByte s)⟩] }) ∧
    ∀ t, seqStep s = .next t → (t.seq = none ↔ run.upc + 1 = (bodyOf s.cfg.mode run.cmd).length)

/-- `SEND` (20_memory.md R78) of a byte that is an operand, a byte of host memory as it is at this step (R72), or the
codec's merge (44_subregister_codec.md R191): it needs an idle shifter. In the round `k` of a stream `i` takes the value
`k` in this step (10_state.md R32, R43). -/
def Obligations.SendRule : Prop :=
  ∀ (s : State) (run : Run) (x : Prim) (src : Source) (i b : Byte), s.fault = none → s.seq = some run →
    nextPrim s.cfg.mode run = some x →
    ((x = .send src ∧ i = run.i) ∨ ∃ k, x = .sendRound k src ∧ i = BitVec.ofNat 8 k) →
    (src = .byte b ∨
      (src = .hostByte ∧ run.cmd.buf + i.toNat < 2 ^ s.cfg.hostAddrWidth ∧
        b = Memory.read s.mem (run.cmd.buf + i.toNat)) ∨
      (src = .merged ∧ ∃ r, run.r = some r ∧ b = (r &&& ~~~run.cmd.mask) |||
        (((run.cmd.value.setWidth 16) <<< run.cmd.pos.toNat).setWidth 8 &&& run.cmd.mask))) →
    (s.shifter = .idle → seqStep s = .next { s with
      seq := some { run with upc := run.upc + 1, i := i }
      shifter := .busy b }) ∧
    (s.shifter ≠ .idle → seqStep s = .next { s with fault := some ⟨.shifterBusy, b.toNat⟩ })

/-- `WAIT` (20_memory.md R79): it goes on only from the done latch, which it empties, and hands the byte to the body: to
`r`, to host memory at `buf + i`, or nowhere; else it holds, which in the model is a step that changes nothing (log 4). No
move but `BUS` ends the shifting of a byte; a command of mainline's program, which holds `BUS` moves of its own (log 3), is
not asked. -/
def Obligations.WaitRule : Prop :=
  (∀ (s : State) (run : Run) (dst : Sink), s.seq = some run → nextPrim s.cfg.mode run = some (.wait dst) →
    (∀ rx, s.shifter ≠ .done rx) → seqStep s = .next s) ∧
  (∀ (s : State) (run : Run) (rx : Byte), s.fault = none → s.seq = some run → s.shifter = .done rx →
    (nextPrim s.cfg.mode run = some (.wait .discard) → seqStep s = .next { s with
      seq := some { run with upc := run.upc + 1 }, shifter := .idle }) ∧
    (nextPrim s.cfg.mode run = some (.wait .toLocal) → seqStep s = .next { s with
      seq := some { run with upc := run.upc + 1, r := some rx }, shifter := .idle }) ∧
    (nextPrim s.cfg.mode run = some (.wait .hostByte) →
      run.cmd.buf + run.i.toNat < 2 ^ s.cfg.hostAddrWidth → ∃ m, seqStep s = .next { s with
        seq := some { run with upc := run.upc + 1 }, shifter := .idle, mem := m } ∧
      ∀ a, Memory.read m a = if a = run.cmd.buf + run.i.toNat then rx else Memory.read s.mem a)) ∧
  ∀ (s t : State) (tx : Byte) (e : Event), s.shifter = .busy tx → runEvent e s = .next t →
    e ≠ .bus → (e = .mainline → ∀ c after, s.prog ≠ .command c :: after) → t.shifter = .busy tx

/-- The `BUS` step (20_memory.md R82), whenever a byte is shifting and `BUS` moves: the peer's exchange gives the received
byte and the peer's next state, the done latch holds the byte, and the exchange is in the trace. That the move stands at
the head of the schedule, and the count of draws, are the model's (logs 1, 11). -/
def Obligations.BusStepRule : Prop :=
  ∀ (s : State) (tx : Byte) (rest : List Event), s.fault = none → s.shifter = .busy tx → s.sched = .bus :: rest →
    (∀ rx p, s.cfg.peerKind = .reference → exchange s.cfg s.peer tx (Config.freeByte s.draws) = .answer rx p →
      step s = .next { s with
        sched := rest, peer := p, shifter := .done rx, trace := s.trace ++ [.xfer tx rx], draws := s.draws + 1 }) ∧
    (s.cfg.peerKind = .unconstrained → ∃ rx p, step s = .next { s with
      sched := rest, peer := p, shifter := .done rx, trace := s.trace ++ [.xfer tx rx], draws := s.draws + 1 })

/-- The reference peer's data phases (20_memory.md R89–R96): what one `BUS` step does with the byte in the shifter. -/
def Obligations.ReferencePeerDataRules : Prop :=
  ∀ (s : State) (tx : Byte), s.cfg.peerKind = .reference → s.shifter = .busy tx →
    let d := Config.freeByte s.draws
    let answers (rx : Byte) (p : Peer) := busStep s = .next { s with
      shifter := .done rx, trace := s.trace ++ [.xfer tx rx], peer := p, draws := s.draws + 1 }
    let faults (k : Nat) := busStep s = .next { s with fault := some ⟨.peerRange, k⟩ }
    (∀ a, s.peer.ph = .regw a → answers d { s.peer with regs := Cells.put s.peer.regs a.toNat tx, ph := .done }) ∧
    (∀ a, s.peer.ph = .regr a → a ∉ s.cfg.sideEffectRegs →
      answers ((Cells.get s.peer.regs a.toNat).getD d) { s.peer with ph := .done }) ∧
    (∀ a, s.peer.ph = .regr a → a ∈ s.cfg.sideEffectRegs → answers d { s.peer with ph := .done }) ∧
    (∀ k, s.peer.ph = .fbw k →
      (k < s.cfg.frameBufferSize → answers d { s.peer with fb := Cells.put s.peer.fb k tx, ph := .fbw (k + 1) }) ∧
      (s.cfg.frameBufferSize ≤ k → faults k)) ∧
    (∀ k, s.peer.ph = .fbr k →
      (k < s.cfg.frameBufferSize → answers ((Cells.get s.peer.fb k).getD d) { s.peer with ph := .fbr (k + 1) }) ∧
      (s.cfg.frameBufferSize ≤ k → faults k)) ∧
    (s.peer.ph = .srwOff → answers d { s.peer with ph := .srw tx.toNat }) ∧
    (s.peer.ph = .srrOff → answers d { s.peer with ph := .srr tx.toNat }) ∧
    (∀ a, s.peer.ph = .srw a →
      (a < s.cfg.sramSize → answers d { s.peer with sram := Cells.put s.peer.sram a tx, ph := .srw (a + 1) }) ∧
      (s.cfg.sramSize ≤ a → faults a)) ∧
    (∀ a, s.peer.ph = .srr a →
      (a < s.cfg.sramSize → answers ((Cells.get s.peer.sram a).getD d) { s.peer with ph := .srr (a + 1) }) ∧
      (s.cfg.sramSize ≤ a → faults a)) ∧
    (s.peer.ph = .done → answers d s.peer)

/-- A command byte outside the six forms makes the reference peer fault, and changes nothing else (20_memory.md R88,
30_encoding.md R128). -/
def Obligations.ReservedCommandByteFaults : Prop :=
  ∀ (s : State) (tx : Byte), s.cfg.peerKind = .reference → s.shifter = .busy tx → s.peer.ph = .cmd →
    tx.getLsbD 7 = false → tx.extractLsb' 0 5 ≠ 0#5 →
    busStep s = .next { s with fault := some ⟨.reservedCmd, tx.toNat⟩ }

/-! ### Host memory, the interrupt line, the host's pseudo-instruction -/

/-- `MemWrite` (20_memory.md R73): the byte at the address is the one written, every other byte is as it was, and nothing
but host memory changes. -/
def Obligations.MemWriteRule : Prop :=
  ∀ (a : Nat) (v : Byte) (s : State), a < 2 ^ s.cfg.hostAddrWidth →
    ∃ m, memWrite a v s = .next { s with mem := m } ∧
      ∀ b, Memory.read m b = if b = a then v else Memory.read s.mem b

/-- The activity interrupt (10_state.md R48, 60_exceptions.md R243): `ENV` sets the line and nothing else; the output is
the line while the enable is set, and 0 otherwise, with no latch. -/
def Obligations.ActivityInterruptIsForwarded : Prop :=
  ∀ (s : State) (level : Bool) (rest : List Event), s.fault = none → s.sched = .environment level :: rest →
    step s = .next { s with sched := rest, trxIrq := level } ∧
      irqOut { s with sched := rest, trxIrq := level } = (if s.actIrqEn then level else false)

/-- `POLL_IDLE` (30_encoding.md R135): it reads `STATUS`; while an asynchronous write runs it stays mainline's next line,
so that no line after it runs, and otherwise mainline goes on. -/
def Obligations.PollIdleRule : Prop :=
  ∀ (s : State) (rest : List Event) (after : List Line), s.fault = none → s.seq = none → s.sched = .mainline :: rest →
    s.prog = .pollIdle :: after →
    step s = .next { s with
      sched := rest
      prog := if s.asyncState = .writing then .pollIdle :: after else after
      resp := s.resp ++ [⟨0xB, some (statusByte s)⟩] }
end

