-- ==== Sys2Proof/Laws/Memory.lean ====
section
/-! SUPPORT. The laws of cells and of host memory: a read after a write, and that every operation keeps the canonical
form. -/

namespace Sys2Proof.Machine

theorem Cells.get_put_same (m : List (Nat × Byte)) (a : Nat) (v : Byte) :
    Cells.get (Cells.put m a v) a = some v := by
  induction m with
  | nil => simp [Cells.put, Cells.get]
  | cons c rest ih =>
    unfold Cells.put
    split
    · simp [Cells.get]
    · split
      · simp [Cells.get]
      · rename_i h; simp [Cells.get, Ne.symm h, ih]

theorem Cells.get_put_other (m : List (Nat × Byte)) {a b : Nat} (v : Byte) (h : b ≠ a) :
    Cells.get (Cells.put m a v) b = Cells.get m b := by
  induction m with
  | nil => simp [Cells.put, Cells.get, Ne.symm h]
  | cons c rest ih =>
    unfold Cells.put
    split
    · simp [Cells.get, Ne.symm h]
    · split
      · rename_i h2; subst h2; simp [Cells.get, Ne.symm h]
      · simp [Cells.get, ih]

theorem Cells.get_drop_same (m : List (Nat × Byte)) (a : Nat) : Cells.get (Cells.drop m a) a = none := by
  induction m with
  | nil => rfl
  | cons c rest ih =>
    unfold Cells.drop
    split
    · exact ih
    · simp [Cells.get, *]

theorem Cells.get_drop_other (m : List (Nat × Byte)) {a b : Nat} (h : b ≠ a) :
    Cells.get (Cells.drop m a) b = Cells.get m b := by
  induction m with
  | nil => rfl
  | cons c rest ih =>
    unfold Cells.drop
    split
    · rename_i h2; simp [Cells.get, h2, Ne.symm h, ih]
    · simp [Cells.get, ih]

/-- The address of every cell lies above `a`. -/
def Cells.above (a : Nat) (m : List (Nat × Byte)) : Prop := ∀ c ∈ m, a < c.1

theorem Cells.rising_cons (c : Nat × Byte) (rest : List (Nat × Byte)) :
    Cells.rising (c :: rest) = true ↔ Cells.above c.1 rest ∧ Cells.rising rest = true := by
  induction rest generalizing c with
  | nil => simp [Cells.rising, Cells.above]
  | cons d rest ih =>
    simp only [Cells.rising, Bool.and_eq_true, decide_eq_true_eq]
    constructor
    · rintro ⟨hcd, hr⟩
      refine ⟨fun e he => ?_, hr⟩
      rcases List.mem_cons.1 he with rfl | he
      · exact hcd
      · exact Nat.lt_trans hcd (((ih d).1 hr).1 e he)
    · rintro ⟨ha, hr⟩
      exact ⟨ha d (by simp), hr⟩

theorem Cells.mem_put {m : List (Nat × Byte)} {a : Nat} {v : Byte} {c : Nat × Byte}
    (h : c ∈ Cells.put m a v) : c = (a, v) ∨ c ∈ m := by
  induction m with
  | nil => simpa [Cells.put] using h
  | cons d rest ih =>
    unfold Cells.put at h
    split at h
    · simpa using h
    · split at h
      · rcases List.mem_cons.1 h with h | h
        · exact .inl h
        · exact .inr (List.mem_cons_of_mem _ h)
      · rcases List.mem_cons.1 h with h | h
        · exact .inr (by simp [h])
        · exact (ih h).imp_right (List.mem_cons_of_mem _)

theorem Cells.mem_drop {m : List (Nat × Byte)} {a : Nat} {c : Nat × Byte} (h : c ∈ Cells.drop m a) : c ∈ m := by
  induction m with
  | nil => simp [Cells.drop] at h
  | cons d rest ih =>
    unfold Cells.drop at h
    split at h
    · exact List.mem_cons_of_mem _ (ih h)
    · rcases List.mem_cons.1 h with h | h
      · simp [h]
      · exact List.mem_cons_of_mem _ (ih h)

theorem Cells.rising_put {m : List (Nat × Byte)} (a : Nat) (v : Byte) (h : Cells.rising m = true) :
    Cells.rising (Cells.put m a v) = true := by
  induction m with
  | nil => rfl
  | cons d rest ih =>
    obtain ⟨ha, hr⟩ := (Cells.rising_cons d rest).1 h
    unfold Cells.put
    split
    · rename_i hlt
      refine (Cells.rising_cons _ _).2 ⟨fun c hc => ?_, h⟩
      rcases List.mem_cons.1 hc with rfl | hc
      · exact hlt
      · exact Nat.lt_trans hlt (ha c hc)
    · split
      · rename_i heq; subst heq
        exact (Cells.rising_cons _ _).2 ⟨ha, hr⟩
      · rename_i hge hne
        refine (Cells.rising_cons _ _).2 ⟨fun c hc => ?_, ih hr⟩
        rcases Cells.mem_put hc with rfl | hc
        · exact Nat.lt_of_le_of_ne (Nat.not_lt.1 hge) (Ne.symm hne)
        · exact ha c hc

theorem Cells.rising_drop {m : List (Nat × Byte)} (a : Nat) (h : Cells.rising m = true) :
    Cells.rising (Cells.drop m a) = true := by
  induction m with
  | nil => rfl
  | cons d rest ih =>
    obtain ⟨ha, hr⟩ := (Cells.rising_cons d rest).1 h
    unfold Cells.drop
    split
    · exact ih hr
    · exact (Cells.rising_cons _ _).2 ⟨fun c hc => ha c (Cells.mem_drop hc), ih hr⟩

/-- A read after a write to the same address gives the byte written (20_memory.md R73, R107). -/
@[simp] theorem Memory.read_write_same (m : List Host.Cell) (a : Nat) (v : Byte) :
    Memory.read (Memory.write m a v) a = v := by
  unfold Memory.read Memory.write
  split
  · rename_i h; simp [Cells.get_drop_same, h]
  · simp [Cells.get_put_same]

/-- A write leaves every other address alone (20_memory.md R73). -/
theorem Memory.read_write_other (m : List Host.Cell) {a b : Nat} (v : Byte) (h : b ≠ a) :
    Memory.read (Memory.write m a v) b = Memory.read m b := by
  unfold Memory.read Memory.write
  split
  · rw [Cells.get_drop_other m h]
  · rw [Cells.get_put_other m v h]

/-- A write keeps host memory's canonical form. -/
theorem Memory.write_wf {m : List Host.Cell} (a : Nat) (v : Byte) (h : Memory.wf m = true) :
    Memory.wf (Memory.write m a v) = true := by
  simp only [Memory.wf, Bool.and_eq_true, List.all_eq_true, decide_eq_true_eq] at h ⊢
  obtain ⟨hr, hv⟩ := h
  unfold Memory.write
  split
  · exact ⟨Cells.rising_drop a hr, fun c hc => hv c (Cells.mem_drop hc)⟩
  · rename_i hne
    refine ⟨Cells.rising_put a v hr, fun c hc => ?_⟩
    rcases Cells.mem_put hc with rfl | hc
    · exact hne
    · exact hv c hc

theorem Memory.reset_wf : Memory.wf State.reset.mem = true := rfl

end Sys2Proof.Machine
end

