-- ==== Sys2Proof/Laws/State.lean ====
section
/-! SUPPORT. One lemma per field of the state per named update: what the update leaves, and what it writes. -/

namespace Sys2Proof.Machine

@[simp] theorem onSel_cfg (level : Bool) (s : State) : (onSel level s).cfg = s.cfg := by unfold onSel; split <;> rfl
@[simp] theorem onSel_cs (level : Bool) (s : State) : (onSel level s).cs = s.cs := by unfold onSel; split <;> rfl
@[simp] theorem onSel_shifter (level : Bool) (s : State) : (onSel level s).shifter = s.shifter := by unfold onSel; split <;> rfl
@[simp] theorem onSel_actIrqEn (level : Bool) (s : State) : (onSel level s).actIrqEn = s.actIrqEn := by unfold onSel; split <;> rfl
@[simp] theorem onSel_cmpIrqEn (level : Bool) (s : State) : (onSel level s).cmpIrqEn = s.cmpIrqEn := by unfold onSel; split <;> rfl
@[simp] theorem onSel_guardDepth (level : Bool) (s : State) : (onSel level s).guardDepth = s.guardDepth := by unfold onSel; split <;> rfl
@[simp] theorem onSel_guardSaved (level : Bool) (s : State) : (onSel level s).guardSaved = s.guardSaved := by unfold onSel; split <;> rfl
@[simp] theorem onSel_asyncState (level : Bool) (s : State) : (onSel level s).asyncState = s.asyncState := by unfold onSel; split <;> rfl
@[simp] theorem onSel_asyncRemaining (level : Bool) (s : State) : (onSel level s).asyncRemaining = s.asyncRemaining := by unfold onSel; split <;> rfl
@[simp] theorem onSel_asyncCursor (level : Bool) (s : State) : (onSel level s).asyncCursor = s.asyncCursor := by unfold onSel; split <;> rfl
@[simp] theorem onSel_seq (level : Bool) (s : State) : (onSel level s).seq = s.seq := by unfold onSel; split <;> rfl
@[simp] theorem onSel_trace (level : Bool) (s : State) : (onSel level s).trace = s.trace := by unfold onSel; split <;> rfl
@[simp] theorem onSel_resp (level : Bool) (s : State) : (onSel level s).resp = s.resp := by unfold onSel; split <;> rfl
@[simp] theorem onSel_fault (level : Bool) (s : State) : (onSel level s).fault = s.fault := by unfold onSel; split <;> rfl
@[simp] theorem onSel_trxIrq (level : Bool) (s : State) : (onSel level s).trxIrq = s.trxIrq := by unfold onSel; split <;> rfl
@[simp] theorem onSel_mem (level : Bool) (s : State) : (onSel level s).mem = s.mem := by unfold onSel; split <;> rfl
@[simp] theorem onSel_prog (level : Bool) (s : State) : (onSel level s).prog = s.prog := by unfold onSel; split <;> rfl
@[simp] theorem onSel_sched (level : Bool) (s : State) : (onSel level s).sched = s.sched := by unfold onSel; split <;> rfl

@[simp] theorem selAssert_cfg (s : State) : (selAssert s).cfg = s.cfg := by simp [selAssert]
@[simp] theorem selAssert_cs (s : State) : (selAssert s).cs = true := by simp [selAssert]
@[simp] theorem selAssert_shifter (s : State) : (selAssert s).shifter = s.shifter := by simp [selAssert]
@[simp] theorem selAssert_actIrqEn (s : State) : (selAssert s).actIrqEn = s.actIrqEn := by simp [selAssert]
@[simp] theorem selAssert_cmpIrqEn (s : State) : (selAssert s).cmpIrqEn = s.cmpIrqEn := by simp [selAssert]
@[simp] theorem selAssert_guardDepth (s : State) : (selAssert s).guardDepth = s.guardDepth := by simp [selAssert]
@[simp] theorem selAssert_guardSaved (s : State) : (selAssert s).guardSaved = s.guardSaved := by simp [selAssert]
@[simp] theorem selAssert_asyncState (s : State) : (selAssert s).asyncState = s.asyncState := by simp [selAssert]
@[simp] theorem selAssert_asyncRemaining (s : State) : (selAssert s).asyncRemaining = s.asyncRemaining := by simp [selAssert]
@[simp] theorem selAssert_asyncCursor (s : State) : (selAssert s).asyncCursor = s.asyncCursor := by simp [selAssert]
@[simp] theorem selAssert_seq (s : State) : (selAssert s).seq = s.seq := by simp [selAssert]
@[simp] theorem selAssert_trace (s : State) : (selAssert s).trace = s.trace ++ [.sel true] := by simp [selAssert]
@[simp] theorem selAssert_resp (s : State) : (selAssert s).resp = s.resp := by simp [selAssert]
@[simp] theorem selAssert_fault (s : State) : (selAssert s).fault = s.fault := by simp [selAssert]
@[simp] theorem selAssert_trxIrq (s : State) : (selAssert s).trxIrq = s.trxIrq := by simp [selAssert]
@[simp] theorem selAssert_mem (s : State) : (selAssert s).mem = s.mem := by simp [selAssert]
@[simp] theorem selAssert_prog (s : State) : (selAssert s).prog = s.prog := by simp [selAssert]
@[simp] theorem selAssert_sched (s : State) : (selAssert s).sched = s.sched := by simp [selAssert]

@[simp] theorem selDeassert_cfg (s : State) : (selDeassert s).cfg = s.cfg := by simp [selDeassert]
@[simp] theorem selDeassert_cs (s : State) : (selDeassert s).cs = false := by simp [selDeassert]
@[simp] theorem selDeassert_shifter (s : State) : (selDeassert s).shifter = s.shifter := by simp [selDeassert]
@[simp] theorem selDeassert_actIrqEn (s : State) : (selDeassert s).actIrqEn = s.actIrqEn := by simp [selDeassert]
@[simp] theorem selDeassert_cmpIrqEn (s : State) : (selDeassert s).cmpIrqEn = s.cmpIrqEn := by simp [selDeassert]
@[simp] theorem selDeassert_guardDepth (s : State) : (selDeassert s).guardDepth = s.guardDepth := by simp [selDeassert]
@[simp] theorem selDeassert_guardSaved (s : State) : (selDeassert s).guardSaved = s.guardSaved := by simp [selDeassert]
@[simp] theorem selDeassert_asyncState (s : State) : (selDeassert s).asyncState = s.asyncState := by simp [selDeassert]
@[simp] theorem selDeassert_asyncRemaining (s : State) : (selDeassert s).asyncRemaining = s.asyncRemaining := by simp [selDeassert]
@[simp] theorem selDeassert_asyncCursor (s : State) : (selDeassert s).asyncCursor = s.asyncCursor := by simp [selDeassert]
@[simp] theorem selDeassert_seq (s : State) : (selDeassert s).seq = s.seq := by simp [selDeassert]
@[simp] theorem selDeassert_trace (s : State) : (selDeassert s).trace = s.trace ++ [.sel false] := by simp [selDeassert]
@[simp] theorem selDeassert_resp (s : State) : (selDeassert s).resp = s.resp := by simp [selDeassert]
@[simp] theorem selDeassert_fault (s : State) : (selDeassert s).fault = s.fault := by simp [selDeassert]
@[simp] theorem selDeassert_trxIrq (s : State) : (selDeassert s).trxIrq = s.trxIrq := by simp [selDeassert]
@[simp] theorem selDeassert_mem (s : State) : (selDeassert s).mem = s.mem := by simp [selDeassert]
@[simp] theorem selDeassert_prog (s : State) : (selDeassert s).prog = s.prog := by simp [selDeassert]
@[simp] theorem selDeassert_sched (s : State) : (selDeassert s).sched = s.sched := by simp [selDeassert]

@[simp] theorem settle_cfg (s : State) : (settle s).cfg = s.cfg := rfl
@[simp] theorem settle_cs (s : State) : (settle s).cs = s.cs := rfl
@[simp] theorem settle_shifter (s : State) : (settle s).shifter = s.shifter := rfl
@[simp] theorem settle_actIrqEn (s : State) : (settle s).actIrqEn = s.actIrqEn := rfl
@[simp] theorem settle_cmpIrqEn (s : State) : (settle s).cmpIrqEn = s.cmpIrqEn := rfl
@[simp] theorem settle_guardDepth (s : State) : (settle s).guardDepth = s.guardDepth := rfl
@[simp] theorem settle_guardSaved (s : State) : (settle s).guardSaved = s.guardSaved := rfl
@[simp] theorem settle_asyncState (s : State) : (settle s).asyncState = s.asyncState := rfl
@[simp] theorem settle_asyncRemaining (s : State) : (settle s).asyncRemaining = s.asyncRemaining := rfl
@[simp] theorem settle_asyncCursor (s : State) : (settle s).asyncCursor = s.asyncCursor := rfl
@[simp] theorem settle_seq (s : State) : (settle s).seq = s.seq := rfl
@[simp] theorem settle_trace (s : State) : (settle s).trace = s.trace ++ [.delay s.cfg.tSramSettle] := rfl
@[simp] theorem settle_resp (s : State) : (settle s).resp = s.resp := rfl
@[simp] theorem settle_fault (s : State) : (settle s).fault = s.fault := rfl
@[simp] theorem settle_trxIrq (s : State) : (settle s).trxIrq = s.trxIrq := rfl
@[simp] theorem settle_mem (s : State) : (settle s).mem = s.mem := rfl
@[simp] theorem settle_peer (s : State) : (settle s).peer = s.peer := rfl
@[simp] theorem settle_prog (s : State) : (settle s).prog = s.prog := rfl
@[simp] theorem settle_sched (s : State) : (settle s).sched = s.sched := rfl
@[simp] theorem settle_draws (s : State) : (settle s).draws = s.draws := rfl

@[simp] theorem respond_cfg (op : OpCode) (v : Option Byte) (s : State) : (respond op v s).cfg = s.cfg := rfl
@[simp] theorem respond_cs (op : OpCode) (v : Option Byte) (s : State) : (respond op v s).cs = s.cs := rfl
@[simp] theorem respond_shifter (op : OpCode) (v : Option Byte) (s : State) : (respond op v s).shifter = s.shifter := rfl
@[simp] theorem respond_actIrqEn (op : OpCode) (v : Option Byte) (s : State) : (respond op v s).actIrqEn = s.actIrqEn := rfl
@[simp] theorem respond_cmpIrqEn (op : OpCode) (v : Option Byte) (s : State) : (respond op v s).cmpIrqEn = s.cmpIrqEn := rfl
@[simp] theorem respond_guardDepth (op : OpCode) (v : Option Byte) (s : State) : (respond op v s).guardDepth = s.guardDepth := rfl
@[simp] theorem respond_guardSaved (op : OpCode) (v : Option Byte) (s : State) : (respond op v s).guardSaved = s.guardSaved := rfl
@[simp] theorem respond_asyncState (op : OpCode) (v : Option Byte) (s : State) : (respond op v s).asyncState = s.asyncState := rfl
@[simp] theorem respond_asyncRemaining (op : OpCode) (v : Option Byte) (s : State) : (respond op v s).asyncRemaining = s.asyncRemaining := rfl
@[simp] theorem respond_asyncCursor (op : OpCode) (v : Option Byte) (s : State) : (respond op v s).asyncCursor = s.asyncCursor := rfl
@[simp] theorem respond_seq (op : OpCode) (v : Option Byte) (s : State) : (respond op v s).seq = none := rfl
@[simp] theorem respond_trace (op : OpCode) (v : Option Byte) (s : State) : (respond op v s).trace = s.trace := rfl
@[simp] theorem respond_resp (op : OpCode) (v : Option Byte) (s : State) : (respond op v s).resp = s.resp ++ [⟨op, v⟩] := rfl
@[simp] theorem respond_fault (op : OpCode) (v : Option Byte) (s : State) : (respond op v s).fault = s.fault := rfl
@[simp] theorem respond_trxIrq (op : OpCode) (v : Option Byte) (s : State) : (respond op v s).trxIrq = s.trxIrq := rfl
@[simp] theorem respond_mem (op : OpCode) (v : Option Byte) (s : State) : (respond op v s).mem = s.mem := rfl
@[simp] theorem respond_peer (op : OpCode) (v : Option Byte) (s : State) : (respond op v s).peer = s.peer := rfl
@[simp] theorem respond_prog (op : OpCode) (v : Option Byte) (s : State) : (respond op v s).prog = s.prog := rfl
@[simp] theorem respond_sched (op : OpCode) (v : Option Byte) (s : State) : (respond op v s).sched = s.sched := rfl
@[simp] theorem respond_draws (op : OpCode) (v : Option Byte) (s : State) : (respond op v s).draws = s.draws := rfl

@[simp] theorem accept_cfg (c : Command) (s : State) : (accept c s).cfg = s.cfg := rfl
@[simp] theorem accept_cs (c : Command) (s : State) : (accept c s).cs = s.cs := rfl
@[simp] theorem accept_shifter (c : Command) (s : State) : (accept c s).shifter = s.shifter := rfl
@[simp] theorem accept_actIrqEn (c : Command) (s : State) : (accept c s).actIrqEn = s.actIrqEn := rfl
@[simp] theorem accept_cmpIrqEn (c : Command) (s : State) : (accept c s).cmpIrqEn = s.cmpIrqEn := rfl
@[simp] theorem accept_guardDepth (c : Command) (s : State) : (accept c s).guardDepth = s.guardDepth := rfl
@[simp] theorem accept_guardSaved (c : Command) (s : State) : (accept c s).guardSaved = s.guardSaved := rfl
@[simp] theorem accept_asyncState (c : Command) (s : State) : (accept c s).asyncState = s.asyncState := rfl
@[simp] theorem accept_asyncRemaining (c : Command) (s : State) : (accept c s).asyncRemaining = s.asyncRemaining := rfl
@[simp] theorem accept_asyncCursor (c : Command) (s : State) : (accept c s).asyncCursor = s.asyncCursor := rfl
@[simp] theorem accept_seq (c : Command) (s : State) : (accept c s).seq = some ⟨c, 0, 0, none⟩ := rfl
@[simp] theorem accept_trace (c : Command) (s : State) : (accept c s).trace = s.trace := rfl
@[simp] theorem accept_resp (c : Command) (s : State) : (accept c s).resp = s.resp := rfl
@[simp] theorem accept_fault (c : Command) (s : State) : (accept c s).fault = s.fault := rfl
@[simp] theorem accept_trxIrq (c : Command) (s : State) : (accept c s).trxIrq = s.trxIrq := rfl
@[simp] theorem accept_mem (c : Command) (s : State) : (accept c s).mem = s.mem := rfl
@[simp] theorem accept_peer (c : Command) (s : State) : (accept c s).peer = s.peer := rfl
@[simp] theorem accept_prog (c : Command) (s : State) : (accept c s).prog = s.prog := rfl
@[simp] theorem accept_sched (c : Command) (s : State) : (accept c s).sched = s.sched := rfl
@[simp] theorem accept_draws (c : Command) (s : State) : (accept c s).draws = s.draws := rfl

@[simp] theorem byteDone_cfg (tx rx : Byte) (p : Peer) (s : State) : (byteDone tx rx p s).cfg = s.cfg := rfl
@[simp] theorem byteDone_cs (tx rx : Byte) (p : Peer) (s : State) : (byteDone tx rx p s).cs = s.cs := rfl
@[simp] theorem byteDone_shifter (tx rx : Byte) (p : Peer) (s : State) : (byteDone tx rx p s).shifter = .done rx := rfl
@[simp] theorem byteDone_actIrqEn (tx rx : Byte) (p : Peer) (s : State) : (byteDone tx rx p s).actIrqEn = s.actIrqEn := rfl
@[simp] theorem byteDone_cmpIrqEn (tx rx : Byte) (p : Peer) (s : State) : (byteDone tx rx p s).cmpIrqEn = s.cmpIrqEn := rfl
@[simp] theorem byteDone_guardDepth (tx rx : Byte) (p : Peer) (s : State) : (byteDone tx rx p s).guardDepth = s.guardDepth := rfl
@[simp] theorem byteDone_guardSaved (tx rx : Byte) (p : Peer) (s : State) : (byteDone tx rx p s).guardSaved = s.guardSaved := rfl
@[simp] theorem byteDone_asyncState (tx rx : Byte) (p : Peer) (s : State) : (byteDone tx rx p s).asyncState = s.asyncState := rfl
@[simp] theorem byteDone_asyncRemaining (tx rx : Byte) (p : Peer) (s : State) : (byteDone tx rx p s).asyncRemaining = s.asyncRemaining := rfl
@[simp] theorem byteDone_asyncCursor (tx rx : Byte) (p : Peer) (s : State) : (byteDone tx rx p s).asyncCursor = s.asyncCursor := rfl
@[simp] theorem byteDone_seq (tx rx : Byte) (p : Peer) (s : State) : (byteDone tx rx p s).seq = s.seq := rfl
@[simp] theorem byteDone_trace (tx rx : Byte) (p : Peer) (s : State) : (byteDone tx rx p s).trace = s.trace ++ [.xfer tx rx] := rfl
@[simp] theorem byteDone_resp (tx rx : Byte) (p : Peer) (s : State) : (byteDone tx rx p s).resp = s.resp := rfl
@[simp] theorem byteDone_fault (tx rx : Byte) (p : Peer) (s : State) : (byteDone tx rx p s).fault = s.fault := rfl
@[simp] theorem byteDone_trxIrq (tx rx : Byte) (p : Peer) (s : State) : (byteDone tx rx p s).trxIrq = s.trxIrq := rfl
@[simp] theorem byteDone_mem (tx rx : Byte) (p : Peer) (s : State) : (byteDone tx rx p s).mem = s.mem := rfl
@[simp] theorem byteDone_peer (tx rx : Byte) (p : Peer) (s : State) : (byteDone tx rx p s).peer = p := rfl
@[simp] theorem byteDone_prog (tx rx : Byte) (p : Peer) (s : State) : (byteDone tx rx p s).prog = s.prog := rfl
@[simp] theorem byteDone_sched (tx rx : Byte) (p : Peer) (s : State) : (byteDone tx rx p s).sched = s.sched := rfl
@[simp] theorem byteDone_draws (tx rx : Byte) (p : Peer) (s : State) : (byteDone tx rx p s).draws = s.draws + 1 := rfl

@[simp] theorem asyncArm_cfg (run : Run) (s : State) : (asyncArm run s).cfg = s.cfg := rfl
@[simp] theorem asyncArm_cs (run : Run) (s : State) : (asyncArm run s).cs = s.cs := rfl
@[simp] theorem asyncArm_shifter (run : Run) (s : State) : (asyncArm run s).shifter = s.shifter := rfl
@[simp] theorem asyncArm_actIrqEn (run : Run) (s : State) : (asyncArm run s).actIrqEn = s.actIrqEn := rfl
@[simp] theorem asyncArm_cmpIrqEn (run : Run) (s : State) : (asyncArm run s).cmpIrqEn = true := rfl
@[simp] theorem asyncArm_guardDepth (run : Run) (s : State) : (asyncArm run s).guardDepth = s.guardDepth := rfl
@[simp] theorem asyncArm_guardSaved (run : Run) (s : State) : (asyncArm run s).guardSaved = s.guardSaved := rfl
@[simp] theorem asyncArm_asyncState (run : Run) (s : State) : (asyncArm run s).asyncState = .writing := rfl
@[simp] theorem asyncArm_asyncRemaining (run : Run) (s : State) : (asyncArm run s).asyncRemaining = run.cmd.len := rfl
@[simp] theorem asyncArm_asyncCursor (run : Run) (s : State) : (asyncArm run s).asyncCursor = run.cmd.buf := rfl
@[simp] theorem asyncArm_seq (run : Run) (s : State) : (asyncArm run s).seq = none := rfl
@[simp] theorem asyncArm_trace (run : Run) (s : State) : (asyncArm run s).trace = s.trace := rfl
@[simp] theorem asyncArm_resp (run : Run) (s : State) : (asyncArm run s).resp = s.resp ++ [⟨run.cmd.op, none⟩] := rfl
@[simp] theorem asyncArm_fault (run : Run) (s : State) : (asyncArm run s).fault = s.fault := rfl
@[simp] theorem asyncArm_trxIrq (run : Run) (s : State) : (asyncArm run s).trxIrq = s.trxIrq := rfl
@[simp] theorem asyncArm_mem (run : Run) (s : State) : (asyncArm run s).mem = s.mem := rfl
@[simp] theorem asyncArm_peer (run : Run) (s : State) : (asyncArm run s).peer = s.peer := rfl
@[simp] theorem asyncArm_prog (run : Run) (s : State) : (asyncArm run s).prog = s.prog := rfl
@[simp] theorem asyncArm_sched (run : Run) (s : State) : (asyncArm run s).sched = s.sched := rfl
@[simp] theorem asyncArm_draws (run : Run) (s : State) : (asyncArm run s).draws = s.draws := rfl

@[simp] theorem completionFinish_cfg (s : State) : (completionFinish s).cfg = s.cfg := by simp [completionFinish]
@[simp] theorem completionFinish_cs (s : State) : (completionFinish s).cs = false := by simp [completionFinish]
@[simp] theorem completionFinish_shifter (s : State) : (completionFinish s).shifter = s.shifter := by simp [completionFinish]
@[simp] theorem completionFinish_actIrqEn (s : State) : (completionFinish s).actIrqEn = true := by simp [completionFinish]
@[simp] theorem completionFinish_cmpIrqEn (s : State) : (completionFinish s).cmpIrqEn = false := by simp [completionFinish]
@[simp] theorem completionFinish_guardDepth (s : State) : (completionFinish s).guardDepth = s.guardDepth := by simp [completionFinish]
@[simp] theorem completionFinish_guardSaved (s : State) : (completionFinish s).guardSaved = s.guardSaved := by simp [completionFinish]
@[simp] theorem completionFinish_asyncState (s : State) : (completionFinish s).asyncState = .idle := by simp [completionFinish]
@[simp] theorem completionFinish_asyncRemaining (s : State) : (completionFinish s).asyncRemaining = s.asyncRemaining := by simp [completionFinish]
@[simp] theorem completionFinish_asyncCursor (s : State) : (completionFinish s).asyncCursor = s.asyncCursor := by simp [completionFinish]
@[simp] theorem completionFinish_seq (s : State) : (completionFinish s).seq = s.seq := by simp [completionFinish]
@[simp] theorem completionFinish_trace (s : State) : (completionFinish s).trace = s.trace ++ [.sel false] := by simp [completionFinish]
@[simp] theorem completionFinish_resp (s : State) : (completionFinish s).resp = s.resp := by simp [completionFinish]
@[simp] theorem completionFinish_fault (s : State) : (completionFinish s).fault = s.fault := by simp [completionFinish]
@[simp] theorem completionFinish_trxIrq (s : State) : (completionFinish s).trxIrq = s.trxIrq := by simp [completionFinish]
@[simp] theorem completionFinish_mem (s : State) : (completionFinish s).mem = s.mem := by simp [completionFinish]
@[simp] theorem completionFinish_prog (s : State) : (completionFinish s).prog = s.prog := by simp [completionFinish]
@[simp] theorem completionFinish_sched (s : State) : (completionFinish s).sched = s.sched := by simp [completionFinish]

/-- The reference peer sees a chip-select event as a phase (20_memory.md R87), and nothing is drawn. -/
theorem onSel_reference (level : Bool) (s : State) (h : s.cfg.peerKind = .reference) :
    (onSel level s).peer = { s.peer with ph := if level then .cmd else .idle } ∧ (onSel level s).draws = s.draws := by
  unfold onSel; rw [h]; exact ⟨rfl, rfl⟩

end Sys2Proof.Machine
end

