-- ==== Sys2Proof/Laws/Moves.lean ====
section
/-! SUPPORT. What the shared operations can do, said once: if one answers a next state, then this is how. Every command
and every step is a chain of single moves, so a property that each move keeps is kept by both. -/

namespace Sys2Proof.Machine

theorem whileRunning_next {s t : State} {k : State → Result} :
    whileRunning s k = .next t ↔ s.fault = none ∧ k s = .next t := by
  unfold whileRunning
  cases h : s.fault <;> simp

/-- With no fault recorded, `whileRunning` is what it guards. -/
theorem whileRunning_of_none {s : State} (k : State → Result) (h : s.fault = none) : whileRunning s k = k s := by
  unfold whileRunning; rw [h]

/-- A recorded fault stops every move (10_state.md R47). -/
theorem whileRunning_halted {s : State} {f : FaultRecord} (k : State → Result) (h : s.fault = some f) :
    whileRunning s k = .fault (.halted f.code f.info) := by
  unfold whileRunning; rw [h]

theorem andThen_next {r : Result} {k : State → Result} {t : State} (h : andThen r k = .next t) :
    (r = .next t ∧ t.fault.isSome) ∨ ∃ u, r = .next u ∧ u.fault = none ∧ k u = .next t := by
  cases r with
  | next u =>
    cases hf : u.fault with
    | none => exact .inr ⟨u, rfl, hf, by simpa [andThen, hf] using h⟩
    | some f =>
      have hu : u = t := by simpa [andThen, hf] using h
      subst hu; exact .inl ⟨rfl, by simp [hf]⟩
  | fault f => simp [andThen] at h
  | refused f => simp [andThen] at h

/-- After a next state with no fault, `andThen` goes on. -/
theorem andThen_of_none {u : State} (k : State → Result) (h : u.fault = none) : andThen (.next u) k = k u := by
  simp [andThen, h]

theorem raise_next {code : FaultCode} {info : Nat} {s t : State} (h : raise code info s = .next t) :
    t = { s with fault := some ⟨code, info⟩ } := by
  cases h; rfl

theorem issue_next {c : Command} {s t : State} (h : issue c s = .next t) :
    (∃ f, issueFault c s = some f ∧ t = { s with fault := some f }) ∨
      (issueFault c s = none ∧ t = accept c s) := by
  unfold issue at h
  cases hf : issueFault c s with
  | none => rw [hf] at h; cases h; exact .inr ⟨rfl, rfl⟩
  | some f => rw [hf] at h; exact .inl ⟨f, rfl, raise_next h⟩

theorem guardEnter_next {s t : State} (h : guardEnter s = .next t) :
    (s.guardDepth.toNat < 255 ∧ t = { s with
        guardSaved := if s.guardDepth = 0 then s.actIrqEn else s.guardSaved
        actIrqEn := false
        guardDepth := s.guardDepth + 1 }) ∨
      (¬ s.guardDepth.toNat < 255 ∧ t = { s with fault := some ⟨.guardDepth, s.guardDepth.toNat⟩ }) := by
  unfold guardEnter at h
  split at h
  · rename_i hlt; cases h; exact .inl ⟨hlt, rfl⟩
  · rename_i hlt; exact .inr ⟨hlt, raise_next h⟩

theorem guardExit_next {s t : State} (h : guardExit s = .next t) :
    (0 < s.guardDepth.toNat ∧ t = { s with
        guardDepth := s.guardDepth - 1
        actIrqEn := if s.guardDepth - 1 = 0 then s.guardSaved else s.actIrqEn }) ∨
      (¬ 0 < s.guardDepth.toNat ∧ t = { s with fault := some ⟨.guardDepth, 0⟩ }) := by
  unfold guardExit at h
  split at h
  · rename_i hlt; cases h; exact .inl ⟨hlt, rfl⟩
  · rename_i hlt; exact .inr ⟨hlt, raise_next h⟩

theorem send_next {b : Byte} {s t : State} (h : send b s = .next t) :
    (s.shifter = .idle ∧ t = { s with shifter := .busy b }) ∨
      (s.shifter ≠ .idle ∧ t = { s with fault := some ⟨.shifterBusy, b.toNat⟩ }) := by
  unfold send at h
  split at h
  · rename_i hs; cases h; exact .inl ⟨hs, rfl⟩
  · rename_i hs; exact .inr ⟨hs, raise_next h⟩

theorem memWrite_next {a : Nat} {v : Byte} {s t : State} (h : memWrite a v s = .next t) :
    a < s.cfg.hostSize ∧ t = { s with mem := Memory.write s.mem a v } := by
  unfold memWrite inHostMemory at h
  split at h
  · rename_i ha; cases h; exact ⟨by simpa using ha, rfl⟩
  · cases h

theorem withMemRead_next {a : Nat} {s t : State} {k : Byte → Result} (h : withMemRead a s k = .next t) :
    a < s.cfg.hostSize ∧ k (Memory.read s.mem a) = .next t := by
  unfold withMemRead inHostMemory at h
  split at h
  · rename_i ha; exact ⟨by simpa using ha, h⟩
  · cases h

/-- The `BUS` step holds, completes the byte in the shifter, or (with the reference peer) raises the peer's fault
(20_memory.md R82). -/
theorem busStep_next {s t : State} (h : busStep s = .next t) :
    ((∀ tx, s.shifter ≠ .busy tx) ∧ t = s) ∨
      ∃ tx, s.shifter = .busy tx ∧
        ((∃ rx p, t = byteDone tx rx p s ∧
            (s.cfg.peerKind = .reference → exchange s.cfg s.peer tx (Config.freeByte s.draws) = .answer rx p)) ∨
          ∃ code info, s.cfg.peerKind = .reference ∧ t = { s with fault := some ⟨code, info⟩ } ∧
            exchange s.cfg s.peer tx (Config.freeByte s.draws) = .raises code info) := by
  unfold busStep at h
  split at h
  · rename_i tx hs
    refine .inr ⟨tx, hs, ?_⟩
    split at h
    · rename_i hk; cases h; exact .inl ⟨_, _, rfl, fun hr => by simp [hk] at hr⟩
    · rename_i hk
      split at h
      · rename_i rx p he; cases h; exact .inl ⟨rx, p, rfl, fun _ => he⟩
      · rename_i code info he; exact .inr ⟨code, info, hk, raise_next h, he⟩
      · cases h
  · rename_i hs; cases h; exact .inl ⟨hs, rfl⟩

/-- A `WAIT` holds, or takes the byte of the done latch (20_memory.md R79). -/
theorem waitStep_next {dst : Sink} {s t : State} {run : Run} {k : Run → State → Result}
    (h : waitStep dst s run k = .next t) :
    ((∀ rx, s.shifter ≠ .done rx) ∧ t = s) ∨
      ∃ rx, s.shifter = .done rx ∧ withSink dst rx run { s with shifter := .idle } k = .next t := by
  unfold waitStep at h
  split at h
  · rename_i rx hs; exact .inr ⟨rx, hs, h⟩
  · rename_i hs; cases h; exact .inl ⟨hs, rfl⟩

theorem advance_next {run : Run} {s t : State} (h : advance run s = .next t) :
    t = { s with seq := some { run with upc := run.upc + 1 } } := by
  cases h; rfl

/-- The `SEQ` step does nothing with the port idle, and one primitive with a command in flight (10_state.md R32). -/
theorem seqStep_next {s t : State} (h : seqStep s = .next t) :
    (s.seq = none ∧ t = s) ∨
      ∃ run p, s.seq = some run ∧ nextPrim s.cfg.mode run = some p ∧ primStep run s p = .next t := by
  unfold seqStep at h
  split at h
  · rename_i hs; cases h; exact .inl ⟨hs, rfl⟩
  · rename_i run hs
    split at h
    · rename_i p hp; exact .inr ⟨run, p, hs, hp, h⟩
    · cases h

/-- The completion event holds, finishes the write, or pushes the next byte (45_async_frame_write.md R202–R204). -/
theorem completionStep_next {s t : State} (hf : s.fault = none) (h : completionStep s = .next t) :
    (completionEnabled s = false ∧ t = s) ∨
      (completionEnabled s = true ∧ s.asyncRemaining = 0 ∧ t = completionFinish { s with shifter := .idle }) ∨
      (completionEnabled s = true ∧ s.asyncRemaining ≠ 0 ∧ s.asyncCursor < s.cfg.hostSize ∧
        t = { s with
          shifter := .busy (Memory.read s.mem s.asyncCursor)
          asyncCursor := nextCursor s
          asyncRemaining := s.asyncRemaining - 1 }) := by
  unfold completionStep at h
  split at h
  · rename_i he
    split at h
    · rename_i hr; cases h; exact .inr (.inl ⟨he, hr, rfl⟩)
    · rename_i hr
      obtain ⟨ha, h⟩ := withMemRead_next h
      refine .inr (.inr ⟨he, hr, ha, ?_⟩)
      rcases andThen_next h with ⟨h1, h2⟩ | ⟨u, h1, hu, h2⟩
      · rcases send_next h1 with ⟨_, rfl⟩ | ⟨hne, _⟩
        · simp [hf] at h2
        · exact absurd rfl hne
      · rcases send_next h1 with ⟨_, rfl⟩ | ⟨hne, _⟩
        · cases h2; rfl
        · exact absurd rfl hne
  · rename_i he; cases h; exact .inl ⟨by simpa using he, rfl⟩

/-- One move of the agents that carry a command: the issue step, a `SEQ` step, a `BUS` step. -/
inductive CommandMove (s : State) : State → Prop where
  | issue (c : Command) (t : State) (h : issue c s = .next t) : CommandMove s t
  | sequencer (t : State) (h : seqStep s = .next t) : CommandMove s t
  | bus (t : State) (h : busStep s = .next t) : CommandMove s t

/-- One move of any agent, or of the model's own bookkeeping (`prog`, `sched` and `draws`). -/
inductive Move (s : State) : State → Prop where
  | command (t : State) (h : CommandMove s t) : Move s t
  | completion (t : State) (h : completionStep s = .next t) : Move s t
  | hostWrite (a : Nat) (v : Byte) (t : State) (h : hostWrite a v s = .next t) : Move s t
  | environment (level : Bool) : Move s { s with trxIrq := level }
  | schedule (prog : List Line) (sched : List Event) (draws : Nat) :
    Move s { s with prog := prog, sched := sched, draws := draws }

/-- A chain of command moves, each from a state with no fault recorded. -/
abbrev CommandMoves := Relation.ReflTransGen fun s t => s.fault = none ∧ CommandMove s t

/-- A chain of moves, each from a state with no fault recorded. -/
abbrev Moves := Relation.ReflTransGen fun s t => s.fault = none ∧ Move s t

theorem CommandMoves.moves {s t : State} (h : CommandMoves s t) : Moves s t := by
  induction h with
  | refl => exact .refl
  | tail _ h ih => exact ih.tail ⟨h.1, .command _ h.2⟩

/-- A relation that is reflexive and transitive and holds of each move holds of a chain of moves. -/
theorem chain_induction {M : State → State → Prop} {R : State → State → Prop} (hr : ∀ s, R s s)
    (ht : ∀ s t u, R s t → R t u → R s u) (hm : ∀ s t, s.fault = none → M s t → R s t) {s t : State}
    (h : Relation.ReflTransGen (fun s t => s.fault = none ∧ M s t) s t) : R s t := by
  induction h with
  | refl => exact hr _
  | tail _ h ih => exact ht _ _ _ ih (hm _ _ h.1 h.2)

/-- A property that each move keeps is kept by a chain of moves. -/
theorem chain_keeps {M : State → State → Prop} {P : State → Prop}
    (hm : ∀ s t, s.fault = none → M s t → P s → P t) {s t : State}
    (h : Relation.ReflTransGen (fun s t => s.fault = none ∧ M s t) s t) : P s → P t :=
  chain_induction (R := fun s t => P s → P t) (fun _ h => h) (fun _ _ _ h1 h2 h => h2 (h1 h)) hm h

theorem forward_moves {s t : State} (h : forward s = .next t) : CommandMove s t := by
  unfold forward at h
  split at h
  · exact .bus _ h
  · exact .sequencer _ h

theorem drive_moves {n : Nat} {s t : State} (h : drive n s = .next t) : CommandMoves s t := by
  induction n generalizing s with
  | zero => cases h; exact .refl
  | succ n ih =>
    unfold drive at h
    split at h
    · cases h; exact .refl
    · rename_i hc
      have hf : s.fault = none := by
        simp only [Bool.or_eq_true, not_or] at hc
        simpa using hc.1
      cases hw : forward s with
      | next u => rw [hw] at h; exact .head ⟨hf, forward_moves hw⟩ (ih h)
      | fault f => rw [hw] at h; cases h
      | refused f => rw [hw] at h; cases h

theorem runCommand_moves {c : Command} {s t : State} (h : runCommand c s = .next t) : CommandMoves s t := by
  obtain ⟨hf, h⟩ := whileRunning_next.1 h
  rcases andThen_next h with ⟨h, _⟩ | ⟨u, h1, _, h2⟩
  · exact .single ⟨hf, .issue c _ h⟩
  · exact .head ⟨hf, .issue c _ h1⟩ (drive_moves h2)

theorem completeCommandByte_moves {tx : Byte} {s t : State} (h : completeCommandByte tx s = .next t) :
    CommandMoves s t := by
  obtain ⟨hf, h⟩ := whileRunning_next.1 h
  split at h
  · exact .single ⟨hf, .bus _ h⟩
  · cases h; exact .refl

/-- An instruction is a chain of command moves. -/
theorem exec_moves {i : Instr} {s t : State} (h : exec i s = .next t) : CommandMoves s t := by
  cases i <;> first | exact runCommand_moves h | exact completeCommandByte_moves h

theorem commandLine_moves {c : Command} {s t : State} (hf : s.fault = none) (h : commandLine c s = .next t) :
    CommandMoves s t := by
  unfold commandLine at h
  split at h
  · exact exec_moves h
  · exact .single ⟨hf, .issue c _ h⟩

theorem busMove_moves {s t : State} (hf : s.fault = none) (h : busMove s = .next t) : CommandMoves s t := by
  unfold busMove at h
  split at h
  · split at h
    · split at h
      · exact exec_moves h
      · exact .single ⟨hf, .bus _ h⟩
    · exact .single ⟨hf, .bus _ h⟩
  · exact .single ⟨hf, .bus _ h⟩

theorem pollLine_moves {after : List Line} {s t : State} (h : pollLine after s = .next t) : Moves s t := by
  unfold pollLine at h
  rcases andThen_next h with ⟨h, _⟩ | ⟨u, h1, hu, h2⟩
  · exact (exec_moves h).moves
  · refine (exec_moves h1).moves.trans ?_
    cases h2
    split
    · exact .refl
    · exact .single ⟨hu, .schedule after u.sched u.draws⟩

/-- A line of mainline's program is a chain of moves; taking it off the program is one. -/
theorem mainlineStep_moves {s t : State} (hf : s.fault = none) (h : mainlineStep s = .next t) : Moves s t := by
  have take : ∀ after : List Line, Moves s { s with prog := after } :=
    fun after => .single ⟨hf, .schedule after s.sched s.draws⟩
  unfold mainlineStep at h
  split at h
  · cases h; exact .refl
  · exact (take _).trans (commandLine_moves (by exact hf) h).moves
  · exact (take _).tail ⟨by exact hf, .hostWrite _ _ _ h⟩
  · exact pollLine_moves h

theorem runEvent_moves {e : Event} {s t : State} (hf : s.fault = none) (h : runEvent e s = .next t) : Moves s t := by
  cases e with
  | mainline => exact mainlineStep_moves hf h
  | issue c => exact .single ⟨hf, .command _ (.issue c _ h)⟩
  | hostWrite a v => exact .single ⟨hf, .hostWrite a v _ h⟩
  | sequencer => exact .single ⟨hf, .command _ (.sequencer _ h)⟩
  | bus => exact (busMove_moves hf h).moves
  | completion => exact .single ⟨hf, .completion _ h⟩
  | environment l => cases h; exact .single ⟨hf, .environment l⟩

theorem takeEvent_move (s : State) : Move s (takeEvent s).2 := by
  unfold takeEvent
  split
  · exact .schedule s.prog _ s.draws
  · exact .schedule s.prog s.sched _

@[simp] theorem takeEvent_fault (s : State) : (takeEvent s).2.fault = s.fault := by
  unfold takeEvent; split <;> rfl

/-- A step is a chain of moves. -/
theorem step_moves {s t : State} (h : step s = .next t) : Moves s t := by
  obtain ⟨hf, h⟩ := whileRunning_next.1 h
  exact .head ⟨hf, takeEvent_move s⟩ (runEvent_moves (by simpa using hf) h)

end Sys2Proof.Machine
end

