-- ==== Sys2Proof/Laws/Talk.lean ====
section
/-! SUPPORT. A command run from issue to `RESPOND`, primitive by primitive: what `drive` makes of each piece of a body,
in terms of the bytes the peer answers. -/

namespace Sys2Proof.Machine

/-- The peer's answer to one byte and the state it moves to; none where the reference peer raises a fault or is not
selected (20_memory.md R82, R86). -/
def peerAnswer (cfg : Params) (draws : Nat) (peer : Peer) (tx : Byte) : Option (Byte × Peer) :=
  match cfg.peerKind with
  | .unconstrained => some (Config.freeByte draws, Config.freePeer draws)
  | .reference =>
    match exchange cfg peer tx (Config.freeByte draws) with
    | .answer rx p => some (rx, p)
    | .raises _ _ => none
    | .unselected => none

/-- The peer's answers to bytes sent one after the other, and the state it ends in. -/
def talk (cfg : Params) : Nat → Peer → List Byte → Option (List Byte × Peer)
  | _, peer, [] => some ([], peer)
  | draws, peer, tx :: rest =>
    match peerAnswer cfg draws peer tx with
    | none => none
    | some (rx, p) =>
      match talk cfg (draws + 1) p rest with
      | none => none
      | some (rxs, q) => some (rx :: rxs, q)

/-- The bus events of bytes sent and received. -/
def xfers (txs rxs : List Byte) : List BusEvent := List.zipWith .xfer txs rxs

theorem talk_length {cfg : Params} {txs rxs : List Byte} {draws : Nat} {peer q : Peer}
    (h : talk cfg draws peer txs = some (rxs, q)) : rxs.length = txs.length := by
  induction txs generalizing draws peer rxs with
  | nil => simp only [talk, Option.some.injEq, Prod.mk.injEq] at h; simp [← h.1]
  | cons tx rest ih =>
    unfold talk at h
    split at h
    · cases h
    · split at h
      · cases h
      · rename_i _ rxs' _ hr
        simp only [Option.some.injEq, Prod.mk.injEq] at h
        obtain ⟨rfl, rfl⟩ := h
        simp [ih hr]

theorem talk_cons {cfg : Params} {tx rx : Byte} {txs rxs : List Byte} {draws : Nat} {peer p q : Peer}
    (h1 : peerAnswer cfg draws peer tx = some (rx, p)) (h2 : talk cfg (draws + 1) p txs = some (rxs, q)) :
    talk cfg draws peer (tx :: txs) = some (rx :: rxs, q) := by
  simp [talk, h1, h2]

theorem talk_append {cfg : Params} {txs txs' rxs rxs' : List Byte} {draws : Nat} {peer p q : Peer}
    (h1 : talk cfg draws peer txs = some (rxs, p)) (h2 : talk cfg (draws + txs.length) p txs' = some (rxs', q)) :
    talk cfg draws peer (txs ++ txs') = some (rxs ++ rxs', q) := by
  induction txs generalizing draws peer rxs with
  | nil =>
    simp only [talk, Option.some.injEq, Prod.mk.injEq] at h1
    obtain ⟨rfl, rfl⟩ := h1
    simpa using h2
  | cons tx rest ih =>
    unfold talk at h1
    split at h1
    · cases h1
    · rename_i rx p' ha
      split at h1
      · cases h1
      · rename_i rxs'' _ hr
        simp only [Option.some.injEq, Prod.mk.injEq] at h1
        obtain ⟨rfl, rfl⟩ := h1
        exact talk_cons ha (ih hr (by simpa [Nat.add_assoc, Nat.add_comm 1] using h2))

/-- The unconstrained peer answers everything (20_memory.md R86). -/
theorem talk_unconstrained {cfg : Params} (h : cfg.peerKind = .unconstrained) (draws : Nat) (peer : Peer)
    (txs : List Byte) : ∃ rxs q, talk cfg draws peer txs = some (rxs, q) := by
  induction txs generalizing draws peer with
  | nil => exact ⟨[], peer, rfl⟩
  | cons tx rest ih =>
    obtain ⟨rxs, q, hr⟩ := ih (draws + 1) (Config.freePeer draws)
    exact ⟨Config.freeByte draws :: rxs, q, talk_cons (by simp only [peerAnswer, h]) hr⟩

/-- A command is in flight, and these primitives of its body are left. -/
structure At (s : State) (run : Run) (ps : List Prim) : Prop where
  seq  : s.seq = some run
  left : (bodyOf s.cfg.mode run.cmd).drop run.upc = ps
  run  : s.fault = none

/-- The run after one primitive. -/
def Run.next (run : Run) : Run := { run with upc := run.upc + 1 }

@[simp] theorem Run.next_cmd (run : Run) : run.next.cmd = run.cmd := rfl
@[simp] theorem Run.next_upc (run : Run) : run.next.upc = run.upc + 1 := rfl
@[simp] theorem Run.next_i (run : Run) : run.next.i = run.i := rfl
@[simp] theorem Run.next_r (run : Run) : run.next.r = run.r := rfl

/-- The state with the sequencer at another place of the same command. -/
def State.at (s : State) (run : Run) : State := { s with seq := some run }

/-- The command drives from `s` to `t` in `k` steps. -/
def Drives (s t : State) (k : Nat) : Prop := ∀ n, drive (n + k) s = drive n t

theorem Drives.refl (s : State) : Drives s s 0 := fun _ => rfl

theorem Drives.trans {s t u : State} {k l m : Nat} (h1 : Drives s t k) (h2 : Drives t u l) (h : m = k + l := by omega) :
    Drives s u m := by
  intro n
  subst h
  rw [Nat.add_comm k l, ← Nat.add_assoc, h1, h2]

theorem At.nextPrim {s : State} {run : Run} {p : Prim} {ps : List Prim} (h : At s run (p :: ps)) :
    nextPrim s.cfg.mode run = some p := by
  unfold Machine.nextPrim
  have := congrArg (·[0]?) h.left
  simpa using this

/-- After one primitive that leaves configuration, command and fault alone, the rest of the body is left. -/
theorem At.step {s t : State} {run run' : Run} {p : Prim} {ps : List Prim} (h : At s run (p :: ps))
    (hs : t.seq = some run') (hc : run'.cmd = run.cmd) (hu : run'.upc = run.upc + 1) (hm : t.cfg = s.cfg)
    (hf : t.fault = none) : At t run' ps := by
  refine ⟨hs, ?_, hf⟩
  rw [hm, hc, hu, ← List.drop_drop, h.left]; rfl

theorem At.left_two {s : State} {run : Run} {p q : Prim} {ps : List Prim} (h : At s run (p :: q :: ps)) :
    (bodyOf s.cfg.mode run.cmd).drop (run.upc + 1 + 1) = ps := by
  rw [← List.drop_drop, ← List.drop_drop, h.left]; rfl

theorem drive_of_forward {s t : State} {run : Run} (hs : s.seq = some run) (hf : s.fault = none)
    (h : forward s = .next t) : Drives s t 1 := by
  intro n
  conv_lhs => unfold drive
  simp [hs, hf, h]

theorem At.forward {s t : State} {run : Run} {p : Prim} {ps : List Prim} (h : At s run (p :: ps))
    (hh : heldAtWait s = false) (hp : primStep run s p = .next t) : Drives s t 1 := by
  refine drive_of_forward h.seq h.run ?_
  simp [Machine.forward, hh, seqStep, h.seq, h.nextPrim, hp]

/-- With an idle shifter the sequencer holds at no `WAIT`. -/
theorem notHeld_of_idle {s : State} (h : s.shifter = .idle) : heldAtWait s = false := by
  unfold heldAtWait; rw [h]; cases s.seq <;> rfl

theorem notHeld_of_done {s : State} {rx : Byte} (h : s.shifter = .done rx) : heldAtWait s = false := by
  unfold heldAtWait; rw [h]; cases s.seq <;> rfl

theorem busStep_of_answer {s : State} {tx rx : Byte} {p : Peer} (hs : s.shifter = .busy tx)
    (ha : peerAnswer s.cfg s.draws s.peer tx = some (rx, p)) : busStep s = .next (byteDone tx rx p s) := by
  unfold busStep; rw [hs]
  unfold peerAnswer at ha
  split at ha
  · rename_i hk; simp only [Option.some.injEq, Prod.mk.injEq] at ha; simp [hk, ha.1, ha.2]
  · rename_i hk
    split at ha
    · rename_i he; simp only [Option.some.injEq, Prod.mk.injEq] at ha; simp [hk, he, ha.1, ha.2]
    · cases ha
    · cases ha

/-- The state after one byte has gone over the bus and been waited for. -/
def State.exchanged (s : State) (tx rx : Byte) (p : Peer) : State :=
  { s with peer := p, shifter := .idle, trace := s.trace ++ [.xfer tx rx], draws := s.draws + 1 }

@[simp] theorem State.exchanged_cfg (s : State) (tx rx : Byte) (p : Peer) : (s.exchanged tx rx p).cfg = s.cfg := rfl
@[simp] theorem State.exchanged_shifter (s : State) (tx rx : Byte) (p : Peer) :
    (s.exchanged tx rx p).shifter = .idle := rfl
@[simp] theorem State.exchanged_peer (s : State) (tx rx : Byte) (p : Peer) : (s.exchanged tx rx p).peer = p := rfl
@[simp] theorem State.exchanged_draws (s : State) (tx rx : Byte) (p : Peer) :
    (s.exchanged tx rx p).draws = s.draws + 1 := rfl
@[simp] theorem State.exchanged_trace (s : State) (tx rx : Byte) (p : Peer) :
    (s.exchanged tx rx p).trace = s.trace ++ [.xfer tx rx] := rfl
@[simp] theorem State.exchanged_mem (s : State) (tx rx : Byte) (p : Peer) : (s.exchanged tx rx p).mem = s.mem := rfl
@[simp] theorem State.exchanged_fault (s : State) (tx rx : Byte) (p : Peer) :
    (s.exchanged tx rx p).fault = s.fault := rfl

/-- `xfer` in a body (20_memory.md R80): the byte goes out by a primitive `x` that puts it in the shifter and goes on, the
answer goes to the sink, in three moves. -/
theorem At.xferOf {s t : State} {run run1 : Run} {x : Prim} {dst : Sink} {ps : List Prim} {b rx : Byte} {p : Peer}
    (h : At s run (x :: .wait dst :: ps)) (hi : s.shifter = .idle)
    (hx : primStep run s x = .next ({ s with shifter := .busy b }.at run1)) (hc : run1.cmd = run.cmd)
    (hu : run1.upc = run.upc + 1) (ha : peerAnswer s.cfg s.draws s.peer b = some (rx, p))
    (hk : primStep run1 (byteDone b rx p ({ s with shifter := .busy b }.at run1)) (.wait dst) = .next t) :
    Drives s t 3 := by
  set s1 := { s with shifter := .busy b }.at run1 with hs1
  have h1 : At s1 run1 (.wait dst :: ps) := h.step rfl hc hu rfl h.run
  have hbus : Machine.forward s1 = .next (byteDone b rx p s1) := by
    have hheld : heldAtWait s1 = true := by
      have hnp := h1.nextPrim
      have e1 : s1.seq = some run1 := rfl
      have e2 : s1.shifter = .busy b := rfl
      unfold heldAtWait
      rw [e1, e2]
      simp [hnp]
    simp only [Machine.forward, hheld, if_true]
    exact busStep_of_answer rfl ha
  have h2 : At (byteDone b rx p s1) run1 (.wait dst :: ps) := ⟨rfl, h1.left, h.run⟩
  exact (h.forward (notHeld_of_idle hi) hx).trans
    ((drive_of_forward h1.seq h1.run hbus).trans (h2.forward (notHeld_of_done rfl) hk) rfl) rfl

/-- The step of a `SEND` whose source holds byte `b`, with an idle shifter. -/
theorem sendFrom_idle {s : State} {run : Run} {src : Source} {b : Byte} (hf : s.fault = none) (hi : s.shifter = .idle)
    (hb : ∀ k, withSource src run s k = k b) :
    sendFrom src run s = .next ({ s with shifter := .busy b }.at run.next) := by
  simp only [sendFrom, hb, send, hi]
  rw [andThen_of_none _ (by exact hf)]
  rfl

/-- `xfer` of a source and a sink. -/
theorem At.xfer {s t : State} {run : Run} {src : Source} {dst : Sink} {ps : List Prim} {b rx : Byte} {p : Peer}
    (h : At s run (.send src :: .wait dst :: ps)) (hi : s.shifter = .idle) (hb : ∀ k, withSource src run s k = k b)
    (ha : peerAnswer s.cfg s.draws s.peer b = some (rx, p))
    (hk : primStep run.next (byteDone b rx p ({ s with shifter := .busy b }.at run.next)) (.wait dst) = .next t) :
    Drives s t 3 :=
  h.xferOf hi (sendFrom_idle h.run hi hb) rfl rfl ha hk

/-- `_ <- xfer(b)`: the answer is discarded (20_memory.md R83). -/
theorem At.xferDiscard {s : State} {run : Run} {src : Source} {ps : List Prim} {b rx : Byte} {p : Peer}
    (h : At s run (.send src :: .wait .discard :: ps)) (hi : s.shifter = .idle)
    (hb : ∀ k, withSource src run s k = k b)
    (ha : peerAnswer s.cfg s.draws s.peer b = some (rx, p)) :
    Drives s ((s.exchanged b rx p).at run.next.next) 3 ∧ At ((s.exchanged b rx p).at run.next.next) run.next.next ps :=
  ⟨h.xfer hi hb ha rfl, rfl, h.left_two, h.run⟩

/-- `r <- xfer(b)`. -/
theorem At.xferLocal {s : State} {run : Run} {src : Source} {ps : List Prim} {b rx : Byte} {p : Peer}
    (h : At s run (.send src :: .wait .toLocal :: ps)) (hi : s.shifter = .idle)
    (hb : ∀ k, withSource src run s k = k b)
    (ha : peerAnswer s.cfg s.draws s.peer b = some (rx, p)) :
    Drives s ((s.exchanged b rx p).at { run.next.next with r := some rx }) 3 ∧
      At ((s.exchanged b rx p).at { run.next.next with r := some rx }) { run.next.next with r := some rx } ps :=
  ⟨h.xfer hi hb ha rfl, rfl, h.left_two, h.run⟩

/-- The run after `n` rounds of a stream's loop from `i = k` on. -/
def Run.rounds (run : Run) (k n : Nat) : Run :=
  { run with upc := run.upc + 2 * n, i := if n = 0 then run.i else BitVec.ofNat 8 (k + n - 1) }

/-- The bytes of host memory a stream sends. -/
def hostBytes (m : List Host.Cell) (buf : Nat) : Nat → Nat → List Byte
  | _, 0 => []
  | i, n + 1 => Memory.read m (buf + i) :: hostBytes m buf (i + 1) n

/-- Host memory after a stream has stored the bytes it received. -/
def storeBytes (m : List Host.Cell) (buf : Nat) : Nat → List Byte → List Host.Cell
  | _, [] => m
  | i, v :: vs => storeBytes (Memory.write m (buf + i) v) buf (i + 1) vs

/-- The state after a stream of bytes has gone over the bus. -/
def State.streamed (s : State) (txs rxs : List Byte) (p : Peer) (m : List Host.Cell) : State :=
  { s with peer := p, shifter := .idle, trace := s.trace ++ xfers txs rxs, draws := s.draws + txs.length, mem := m }

theorem State.streamed_cons (s : State) (tx rx : Byte) (txs rxs : List Byte) (p q : Peer) (m m' : List Host.Cell) :
    ({ s.exchanged tx rx p with mem := m } : State).streamed txs rxs q m' =
      s.streamed (tx :: txs) (rx :: rxs) q m' := by
  simp [State.streamed, State.exchanged, xfers, Nat.add_assoc, Nat.add_comm 1]

/-- The run at the `SEND` of round `k`. -/
def Run.atRound (run : Run) (k : Nat) : Run := { run with i := BitVec.ofNat 8 k }

theorem Run.rounds_zero (run : Run) (k : Nat) : run.rounds k 0 = run := by cases run; simp [Run.rounds]

theorem Run.rounds_succ (run : Run) (k n : Nat) : (run.atRound k).next.next.rounds (k + 1) n = run.rounds k (n + 1) := by
  simp only [Run.rounds, Run.atRound, Run.next, Run.mk.injEq, true_and, and_true]
  refine ⟨by omega, ?_⟩
  rw [if_neg (Nat.succ_ne_zero n)]
  split
  · rename_i h; subst h; rfl
  · congr 1; omega

theorem State.streamed_nil {s : State} {run : Run} (hs : s.seq = some run) (hi : s.shifter = .idle) :
    (s.streamed [] [] s.peer s.mem).at run = s := by
  cases s
  simp only [State.at, State.streamed, xfers, List.zipWith_nil_left, List.append_nil, List.length_nil, Nat.add_zero] at *
  simp [hs, hi]

theorem atRound_i {run : Run} {k : Nat} (h : k < 256) : (run.atRound k).i.toNat = k := by
  simp [Run.atRound, Nat.mod_eq_of_lt h]

/-- The rounds of a writing stream from `i = k` on. -/
theorem At.roundsOut {n k : Nat} {s : State} {run : Run} {ps : List Prim} {rxs : List Byte} {q : Peer}
    (h : At s run (Machine.rounds .hostByte .discard k n ++ ps)) (hi : s.shifter = .idle)
    (hn : k + n ≤ 255) (hr : run.cmd.buf + k + n ≤ s.cfg.hostSize)
    (ht : talk s.cfg s.draws s.peer (hostBytes s.mem run.cmd.buf k n) = some (rxs, q)) :
    Drives s ((s.streamed (hostBytes s.mem run.cmd.buf k n) rxs q s.mem).at (run.rounds k n)) (3 * n) ∧
      At ((s.streamed (hostBytes s.mem run.cmd.buf k n) rxs q s.mem).at (run.rounds k n)) (run.rounds k n) ps := by
  induction n generalizing k s run rxs with
  | zero =>
    simp only [hostBytes, talk, Option.some.injEq, Prod.mk.injEq] at ht
    obtain ⟨rfl, rfl⟩ := ht
    rw [Run.rounds_zero, show hostBytes s.mem run.cmd.buf k 0 = [] from rfl, State.streamed_nil h.seq hi]
    exact ⟨Drives.refl s, h⟩
  | succ n ih =>
    unfold hostBytes talk at ht
    split at ht
    · cases ht
    · rename_i rx p ha
      split at ht
      · cases ht
      · rename_i rxs' q' hrest
        simp only [Option.some.injEq, Prod.mk.injEq] at ht
        obtain ⟨rfl, rfl⟩ := ht
        have hik : (run.atRound k).i.toNat = k := atRound_i (by omega)
        have hsrc : ∀ f, withSource .hostByte (run.atRound k) s f = f (Memory.read s.mem (run.cmd.buf + k)) := by
          intro f
          have hb : bufferAddr (run.atRound k).cmd.buf (run.atRound k).i = run.cmd.buf + k := by
            unfold bufferAddr; rw [hik]; rfl
          have hin : inHostMemory s (run.cmd.buf + k) = true := by simp [inHostMemory]; omega
          simp [withSource, withMemRead, hb, hin]
        let run1 : Run := (run.atRound k).next.next
        have hstep : Drives s ((s.exchanged (Memory.read s.mem (run.cmd.buf + k)) rx p).at run1) 3 :=
          At.xferOf h hi (sendFrom_idle h.run hi hsrc) rfl rfl ha rfl
        have hat : At ((s.exchanged (Memory.read s.mem (run.cmd.buf + k)) rx p).at run1) run1
            (Machine.rounds .hostByte .discard (k + 1) n ++ ps) := ⟨rfl, h.left_two, h.run⟩
        have := ih hat rfl (by omega) (by show run.cmd.buf + (k + 1) + n ≤ s.cfg.hostSize; omega) hrest
        have er : run1.rounds (k + 1) n = run.rounds k (n + 1) := Run.rounds_succ run k n
        have e : (((s.exchanged (Memory.read s.mem (run.cmd.buf + k)) rx p).at run1).streamed
              (hostBytes s.mem run.cmd.buf (k + 1) n) rxs' q' s.mem).at (run1.rounds (k + 1) n) =
            (s.streamed (hostBytes s.mem run.cmd.buf k (n + 1)) (rx :: rxs') q' s.mem).at (run.rounds k (n + 1)) := by
          rw [er, show hostBytes s.mem run.cmd.buf k (n + 1) =
            Memory.read s.mem (run.cmd.buf + k) :: hostBytes s.mem run.cmd.buf (k + 1) n from rfl,
            ← State.streamed_cons s _ rx _ _ p q' s.mem s.mem]
          rfl
        rw [er] at this e
        have h1 := this.1
        have h2 := this.2
        rw [← e]
        exact ⟨hstep.trans h1 (by omega), h2⟩

/-- The rounds of a reading stream from `i = k` on. -/
theorem At.roundsIn {n k : Nat} {s : State} {run : Run} {ps : List Prim} {rxs : List Byte} {q : Peer}
    (h : At s run (Machine.rounds (.byte dummyByte) .hostByte k n ++ ps)) (hi : s.shifter = .idle)
    (hn : k + n ≤ 255) (hr : run.cmd.buf + k + n ≤ s.cfg.hostSize)
    (ht : talk s.cfg s.draws s.peer (List.replicate n dummyByte) = some (rxs, q)) :
    Drives s ((s.streamed (List.replicate n dummyByte) rxs q (storeBytes s.mem run.cmd.buf k rxs)).at
        (run.rounds k n)) (3 * n) ∧
      At ((s.streamed (List.replicate n dummyByte) rxs q (storeBytes s.mem run.cmd.buf k rxs)).at
        (run.rounds k n)) (run.rounds k n) ps := by
  induction n generalizing k s run rxs with
  | zero =>
    simp only [List.replicate_zero, talk, Option.some.injEq, Prod.mk.injEq] at ht
    obtain ⟨rfl, rfl⟩ := ht
    rw [Run.rounds_zero, List.replicate_zero, show storeBytes s.mem run.cmd.buf k [] = s.mem from rfl,
      State.streamed_nil h.seq hi]
    exact ⟨Drives.refl s, h⟩
  | succ n ih =>
    rw [List.replicate_succ] at ht
    unfold talk at ht
    split at ht
    · cases ht
    · rename_i rx p ha
      split at ht
      · cases ht
      · rename_i rxs' q' hrest
        simp only [Option.some.injEq, Prod.mk.injEq] at ht
        obtain ⟨rfl, rfl⟩ := ht
        have hik : (run.atRound k).i.toNat = k := atRound_i (by omega)
        let run1 : Run := (run.atRound k).next.next
        let s1 : State := ({ s.exchanged dummyByte rx p with
          mem := Memory.write s.mem (run.cmd.buf + k) rx } : State).at run1
        have hin : run.cmd.buf + k < s.cfg.hostSize := by omega
        have hstep : Drives s s1 3 := by
          refine At.xferOf (run1 := (run.atRound k).next) h hi (sendFrom_idle h.run hi (fun _ => rfl)) rfl rfl ha ?_
          have hb : bufferAddr (run.atRound k).next.cmd.buf (run.atRound k).next.i = run.cmd.buf + k := by
            show run.cmd.buf + (run.atRound k).i.toNat = _; rw [hik]
          have : inHostMemory (byteDone dummyByte rx p ({ s with shifter := .busy dummyByte }.at (run.atRound k).next))
              (run.cmd.buf + k) = true := decide_eq_true hin
          have hsink : ∀ u f, inHostMemory u (run.cmd.buf + k) = true → u.fault = none →
              withSink .hostByte rx (run.atRound k).next u f =
                f (run.atRound k).next { u with mem := Memory.write u.mem (run.cmd.buf + k) rx } := by
            intro u f h1 h2
            simp only [withSink, memWrite]
            rw [hb, if_pos h1, andThen_of_none _ (by exact h2)]
          simp only [primStep, waitStep, byteDone_shifter]
          rw [hsink _ _ (by simpa [inHostMemory] using this) (by exact h.run)]
          rfl
        have hat : At s1 run1 (Machine.rounds (.byte dummyByte) .hostByte (k + 1) n ++ ps) :=
          ⟨rfl, h.left_two, h.run⟩
        have := ih hat rfl (by omega) (by show run.cmd.buf + (k + 1) + n ≤ s.cfg.hostSize; omega) hrest
        have er : run1.rounds (k + 1) n = run.rounds k (n + 1) := Run.rounds_succ run k n
        have e : (s1.streamed (List.replicate n dummyByte) rxs' q'
              (storeBytes s1.mem run1.cmd.buf (k + 1) rxs')).at (run1.rounds (k + 1) n) =
            (s.streamed (List.replicate (n + 1) dummyByte) (rx :: rxs') q'
              (storeBytes s.mem run.cmd.buf k (rx :: rxs'))).at (run.rounds k (n + 1)) := by
          rw [er, List.replicate_succ,
            ← State.streamed_cons s _ rx _ _ p q' (Memory.write s.mem (run.cmd.buf + k) rx)]
          rfl
        rw [er] at this e
        have h1 := this.1
        have h2 := this.2
        rw [← e]
        exact ⟨hstep.trans h1 (by omega), h2⟩

/-- The loop of a writing stream: the bytes of the buffer go out in order (20_memory.md R98, R105). -/
theorem At.streamOut {n : Nat} {s : State} {run : Run} {ps : List Prim} {rxs : List Byte} {q : Peer}
    (h : At s run (stream .hostByte .discard n ++ ps)) (hi : s.shifter = .idle)
    (hn : n ≤ 255) (hr : run.cmd.buf + n ≤ s.cfg.hostSize)
    (ht : talk s.cfg s.draws s.peer (hostBytes s.mem run.cmd.buf 0 n) = some (rxs, q)) :
    Drives s ((s.streamed (hostBytes s.mem run.cmd.buf 0 n) rxs q s.mem).at (run.rounds 0 n)) (3 * n) ∧
      At ((s.streamed (hostBytes s.mem run.cmd.buf 0 n) rxs q s.mem).at (run.rounds 0 n)) (run.rounds 0 n) ps :=
  At.roundsOut h hi (by omega) (by omega) ht

/-- The loop of a reading stream: each dummy byte's answer is stored, in order (20_memory.md R98, R105). -/
theorem At.streamIn {n : Nat} {s : State} {run : Run} {ps : List Prim} {rxs : List Byte} {q : Peer}
    (h : At s run (stream (.byte dummyByte) .hostByte n ++ ps)) (hi : s.shifter = .idle)
    (hn : n ≤ 255) (hr : run.cmd.buf + n ≤ s.cfg.hostSize)
    (ht : talk s.cfg s.draws s.peer (List.replicate n dummyByte) = some (rxs, q)) :
    Drives s ((s.streamed (List.replicate n dummyByte) rxs q (storeBytes s.mem run.cmd.buf 0 rxs)).at
        (run.rounds 0 n)) (3 * n) ∧
      At ((s.streamed (List.replicate n dummyByte) rxs q (storeBytes s.mem run.cmd.buf 0 rxs)).at
        (run.rounds 0 n)) (run.rounds 0 n) ps :=
  At.roundsIn h hi (by omega) (by omega) ht

theorem drive_stop {s : State} (n : Nat) (h : s.seq = none ∨ s.fault.isSome) : drive n s = .next s := by
  cases n with
  | zero => rfl
  | succ n => unfold drive; rcases h with h | h <;> simp [h]

end Sys2Proof.Machine
end

