-- ==== Sys2Proof/Laws/Command.lean ====
section
/-! SUPPORT. The pieces of a body that send no byte, one lemma each, and how a whole command follows from its pieces. -/

namespace Sys2Proof.Machine

/-- The state after `GUARD_ENTER` (43_critical_section_guard.md R180). -/
def State.guarded (s : State) : State :=
  { s with
    guardSaved := if s.guardDepth = 0 then s.actIrqEn else s.guardSaved
    actIrqEn := false
    guardDepth := s.guardDepth + 1 }

/-- The state after `GUARD_EXIT` (43_critical_section_guard.md R181). -/
def State.unguarded (s : State) : State :=
  { s with
    guardDepth := s.guardDepth - 1
    actIrqEn := if s.guardDepth - 1 = 0 then s.guardSaved else s.actIrqEn }

theorem At.simple {s t : State} {run : Run} {p : Prim} {ps : List Prim} (h : At s run (p :: ps))
    (hi : heldAtWait s = false) (hp : primStep run s p = .next (t.at run.next)) (hm : t.cfg = s.cfg)
    (hf : t.fault = none) : Drives s (t.at run.next) 1 ∧ At (t.at run.next) run.next ps :=
  ⟨h.forward hi hp, h.step rfl rfl rfl hm hf⟩

theorem At.guardEnter {s : State} {run : Run} {ps : List Prim} (h : At s run (.guardEnter :: ps))
    (hi : s.shifter = .idle) (hd : s.guardDepth.toNat < 255) :
    Drives s (s.guarded.at run.next) 1 ∧ At (s.guarded.at run.next) run.next ps := by
  refine h.simple (notHeld_of_idle hi) ?_ rfl h.run
  simp only [primStep, Machine.guardEnter, hd, if_true]
  rw [andThen_of_none _ (by exact h.run)]
  rfl

theorem At.guardExit {s : State} {run : Run} {ps : List Prim} (h : At s run (.guardExit :: ps))
    (hi : s.shifter = .idle) (hd : 0 < s.guardDepth.toNat) :
    Drives s (s.unguarded.at run.next) 1 ∧ At (s.unguarded.at run.next) run.next ps := by
  refine h.simple (notHeld_of_idle hi) ?_ rfl h.run
  simp only [primStep, Machine.guardExit, hd, if_true]
  rw [andThen_of_none _ (by exact h.run)]
  rfl

theorem At.selAssert {s : State} {run : Run} {ps : List Prim} (h : At s run (.selAssert :: ps))
    (hi : s.shifter = .idle) :
    Drives s ((Machine.selAssert s).at run.next) 1 ∧ At ((Machine.selAssert s).at run.next) run.next ps :=
  h.simple (notHeld_of_idle hi) rfl (selAssert_cfg s) (by rw [selAssert_fault]; exact h.run)

theorem At.selDeassert {s : State} {run : Run} {ps : List Prim} (h : At s run (.selDeassert :: ps))
    (hi : s.shifter = .idle) :
    Drives s ((Machine.selDeassert s).at run.next) 1 ∧ At ((Machine.selDeassert s).at run.next) run.next ps :=
  h.simple (notHeld_of_idle hi) rfl (selDeassert_cfg s) (by rw [selDeassert_fault]; exact h.run)

theorem At.settle {s : State} {run : Run} {ps : List Prim} (h : At s run (.settle :: ps)) (hi : s.shifter = .idle) :
    Drives s ((Machine.settle s).at run.next) 1 ∧ At ((Machine.settle s).at run.next) run.next ps :=
  h.simple (notHeld_of_idle hi) rfl rfl h.run

/-- A body whose last primitive is done leaves the port free, whatever steps are left over. -/
theorem At.last {s t : State} {run : Run} {p : Prim} {ps : List Prim} (h : At s run (p :: ps))
    (hi : heldAtWait s = false) (hp : primStep run s p = .next t) (ht : t.seq = none) (n : Nat) :
    drive (n + 1) s = .next t := by
  rw [h.forward hi hp n, drive_stop n (.inl ht)]

/-- A command that passes its checks and drives to its end is that end: `k` steps reach the last primitive, which is done
in one more, and the bound of `runCommand` is enough. -/
theorem runCommand_of_drives {c : Command} {s t u : State} {run : Run} {p : Prim} {k : Nat} (hf : s.fault = none)
    (hc : issueFault c s = none) (hd : Drives (accept c s) t k) (ha : At t run [p]) (hi : heldAtWait t = false)
    (hp : primStep run t p = .next u) (hu : u.seq = none) (hk : k + 1 ≤ 2 * (bodyOf s.cfg.mode c).length) :
    runCommand c s = .next u := by
  obtain ⟨n, hn⟩ := Nat.exists_eq_add_of_le hk
  rw [runCommand, whileRunning_of_none _ hf]
  simp only [issue, hc]
  rw [andThen_of_none _ (by exact hf), hn, show k + 1 + n = (n + 1) + k by omega, hd, ha.last hi hp hu]

/-- An accepted command stands before its whole body. -/
theorem at_accept {c : Command} {s : State} (hf : s.fault = none) :
    At (accept c s) ⟨c, 0, 0, none⟩ (bodyOf s.cfg.mode c) := ⟨rfl, rfl, hf⟩

/-- The sequencer holds only at a `WAIT`. -/
theorem At.notHeld {s : State} {run : Run} {p : Prim} {ps : List Prim} (h : At s run (p :: ps))
    (hw : ∀ dst, p ≠ .wait dst) : heldAtWait s = false := by
  unfold heldAtWait
  rw [h.seq]
  cases hs : s.shifter with
  | busy tx =>
    simp only [h.nextPrim]
    split
    · rename_i e; cases e; exact absurd rfl (hw _)
    · rfl
  | idle => rfl
  | done rx => rfl

/-- A command of one primitive that is no `WAIT`. -/
theorem runCommand_of_single {c : Command} {s t : State} {p : Prim} (hf : s.fault = none) (hc : issueFault c s = none)
    (hb : bodyOf s.cfg.mode c = [p]) (hw : ∀ dst, p ≠ .wait dst)
    (hp : primStep ⟨c, 0, 0, none⟩ (accept c s) p = .next t) (ht : t.seq = none) : runCommand c s = .next t := by
  have ha : At (accept c s) ⟨c, 0, 0, none⟩ [p] := hb ▸ at_accept hf
  exact runCommand_of_drives (k := 0) hf hc (Drives.refl _) ha (ha.notHeld hw) hp ht (by rw [hb]; simp)

/-- A command with a fault in its issue check records it and does nothing else (60_exceptions.md R241). -/
theorem runCommand_of_issueFault {c : Command} {s : State} {f : FaultRecord} (hf : s.fault = none)
    (hc : issueFault c s = some f) : runCommand c s = .next { s with fault := some f } := by
  rw [runCommand, whileRunning_of_none _ hf]
  simp [issue, hc, raise, andThen]

theorem rounds_length (src : Source) (dst : Sink) (k n : Nat) : (rounds src dst k n).length = 2 * n := by
  induction n generalizing k with
  | zero => rfl
  | succ n ih => simp [rounds, ih, Nat.mul_add]

@[simp] theorem stream_length (src : Source) (dst : Sink) (n : Nat) : (stream src dst n).length = 2 * n :=
  rounds_length src dst 0 n

theorem hostBytes_eq (m : List Host.Cell) (buf i n : Nat) :
    hostBytes m buf i n = (List.range n).map fun k => Memory.read m (buf + (i + k)) := by
  induction n generalizing i with
  | zero => rfl
  | succ n ih =>
    rw [List.range_succ_eq_map]
    simp only [hostBytes, ih, List.map_cons, List.map_map, Nat.add_zero, List.cons.injEq, true_and]
    apply List.map_congr_left
    intro k _
    simp [Nat.add_assoc, Nat.add_comm 1]

theorem hostBytes_eq_bufferBytes (m : List Host.Cell) (buf n : Nat) : hostBytes m buf 0 n = bufferBytes m buf n := by
  simp [hostBytes_eq, bufferBytes]

/-- What a stream stored: the received bytes from `buf + i` on, every other byte as it was. -/
theorem read_storeBytes (m : List Host.Cell) (buf i : Nat) (vs : List Byte) (a : Nat) :
    Memory.read (storeBytes m buf i vs) a =
      if buf + i ≤ a ∧ a < buf + i + vs.length then vs.getD (a - (buf + i)) 0 else Memory.read m a := by
  induction vs generalizing m i with
  | nil => simp [storeBytes]
  | cons v vs ih =>
    simp only [storeBytes, ih, List.length_cons]
    by_cases ha : a = buf + i
    · subst ha
      simp
    · rw [Memory.read_write_other _ _ ha]
      by_cases hr : buf + i ≤ a ∧ a < buf + i + (vs.length + 1)
      · rw [if_pos (by omega), if_pos hr]
        obtain ⟨k, rfl⟩ : ∃ k, a = buf + i + (k + 1) := ⟨a - (buf + i) - 1, by omega⟩
        have e1 : buf + i + (k + 1) - (buf + (i + 1)) = k := by omega
        have e2 : buf + i + (k + 1) - (buf + i) = k + 1 := by omega
        rw [e1, e2]; simp
      · rw [if_neg (by omega), if_neg hr]

end Sys2Proof.Machine
end

