-- ==== Sys2Proof/Laws/Schedule.lean ====
section
/-! SUPPORT. Events and the schedule: what taking an event does, that `BUS` moves are `BUS` steps whichever byte they
complete, that no agent's step reads the schedule, and how a run of the machine is made of its steps. -/

namespace Sys2Proof.Machine

/-- A host command's meaning is its record, run whole. -/
theorem exec_record {i : Instr} {c : Command} (h : encode i = .record c) (s : State) : exec i s = runCommand c s := by
  cases i <;> first | (cases h; done) | (cases h; rfl)

/-- A bus command byte's meaning is the completion of that byte. -/
theorem exec_byte {i : Instr} {b : Byte} (h : encode i = .byte b) (s : State) : exec i s = completeCommandByte b s := by
  cases i <;> first | (cases h; done) | (cases h; rfl)

/-- With a fault recorded no instruction runs (10_state.md R47). -/
theorem exec_halted {s : State} {f : FaultRecord} (i : Instr) (h : s.fault = some f) :
    exec i s = .fault (.halted f.code f.info) := by
  cases he : encode i with
  | byte b => rw [exec_byte he]; exact whileRunning_halted _ h
  | record c => rw [exec_record he]; exact whileRunning_halted _ h

/-- A byte that decodes is the command byte of what it decodes to (30_encoding.md R122). -/
theorem encode_of_decodeByte {b : Byte} {i : Instr} (h : decodeByte b = .instr i) : encode i = .byte b := by
  have hw : ∀ b : Byte, b.extractLsb' 6 2 = 0b11#2 → regWriteByte (b.extractLsb' 0 6) = b := by decide
  have hr : ∀ b : Byte, b.extractLsb' 6 2 = 0b10#2 → regReadByte (b.extractLsb' 0 6) = b := by decide
  unfold decodeByte at h
  split at h
  · rename_i hb; cases h; exact congrArg Code.byte (hw b hb)
  · split at h
    · rename_i hb; cases h; exact congrArg Code.byte (hr b hb)
    · split at h
      · rename_i hb; cases h; exact congrArg Code.byte hb.symm
      · split at h
        · rename_i hb; cases h; exact congrArg Code.byte hb.symm
        · split at h
          · rename_i hb; cases h; exact congrArg Code.byte hb.symm
          · split at h
            · rename_i hb; cases h; exact congrArg Code.byte hb.symm
            · cases h

/-- Whichever byte is in the shifter, the `BUS` move is the `BUS` step (20_memory.md R82). -/
theorem busMove_eq_busStep {s : State} (hf : s.fault = none) : busMove s = busStep s := by
  unfold busMove
  split
  · rename_i tx hs
    split
    · rename_i hc
      split
      · rename_i i hi
        rw [exec_byte (encode_of_decodeByte hi), completeCommandByte, whileRunning_of_none _ hf, if_pos hc]
      · rfl
    · rfl
  · rfl

/-- With no fault recorded, a step is the event at the head of the schedule. -/
theorem step_event {s : State} (e : Event) (rest : List Event) (hf : s.fault = none) :
    step { s with sched := e :: rest } = runEvent e { s with sched := rest } := by
  rw [step, whileRunning_of_none _ (by exact hf)]; rfl

/-- With no fault recorded and an empty schedule, a step is the drawn event (log 2). -/
theorem step_drawn {s : State} (hf : s.fault = none) (hs : s.sched = []) :
    step s = runEvent ((Config.freeEvent s.draws).within s.cfg) { s with draws := s.draws + 1 } := by
  rw [step, whileRunning_of_none _ hf]; unfold takeEvent; rw [hs]

theorem core_run_of_step (M : Host.Core) {s t : M.State} (h : M.step s = .next t) (n : Nat) :
    M.run (n + 1) s = M.run n t := by
  simp [Host.Core.run, h]

/-- A run goes on from the next state. -/
theorem run_succ {s t : State} (h : step s = .next t) (n : Nat) :
    Sys2Proof.core.run (n + 1) s = Sys2Proof.core.run n t :=
  core_run_of_step Sys2Proof.core h n

/-- The same answer, with another schedule in the next state. -/
def Result.withSched (l : List Event) : Result → Result
  | .next s => .next { s with sched := l }
  | .fault f => .fault f
  | .refused f => .refused f

theorem andThen_withSched (l : List Event) (r : Result) {k : State → Result}
    (h : ∀ u, k { u with sched := l } = Result.withSched l (k u)) :
    andThen (Result.withSched l r) k = Result.withSched l (andThen r k) := by
  cases r with
  | next s =>
    simp only [Result.withSched, andThen]
    split
    · rfl
    · exact h s
  | fault f => rfl
  | refused f => rfl

/-- No primitive reads the schedule. -/
theorem primStep_withSched (l : List Event) (run : Run) (s : State) (p : Prim) :
    primStep run { s with sched := l } p = Result.withSched l (primStep run s p) := by
  have hsel : ∀ lv (u : State), onSel lv { u with sched := l } = { onSel lv u with sched := l } := by
    intro lv u; unfold onSel; split <;> split <;> simp_all
  have hadv : ∀ run (u : State), advance run { u with sched := l } = Result.withSched l (advance run u) :=
    fun _ _ => rfl
  have hsend : ∀ b (u : State), send b { u with sched := l } = Result.withSched l (send b u) := by
    intro b u; unfold send; cases hs : u.shifter <;> simp only [hs, Result.withSched, raise]
  have hsink : ∀ dst rx run (u : State) (k : Run → State → Result),
      (∀ run u, k run { u with sched := l } = Result.withSched l (k run u)) →
      withSink dst rx run { u with sched := l } k = Result.withSched l (withSink dst rx run u k) := by
    intro dst rx run u k hk
    cases dst with
    | discard => exact hk _ _
    | toLocal => exact hk _ _
    | hostByte =>
      simp only [withSink]
      rw [← andThen_withSched l _ (hk run)]
      congr 1
      unfold memWrite inHostMemory; split <;> rfl
  have hwait : ∀ dst run (u : State) (k : Run → State → Result),
      (∀ run u, k run { u with sched := l } = Result.withSched l (k run u)) →
      waitStep dst { u with sched := l } run k = Result.withSched l (waitStep dst u run k) := by
    intro dst run u k hk
    unfold waitStep
    cases hs : u.shifter with
    | done rx => exact hsink dst rx run { u with shifter := .idle } k hk
    | _ => simp only [hs, Result.withSched]
  have hfrom : ∀ src (run : Run), sendFrom src run { s with sched := l } = Result.withSched l (sendFrom src run s) := by
    intro src run
    have hk : ∀ b, andThen (send b { s with sched := l }) (advance run) =
        Result.withSched l (andThen (send b s) (advance run)) := by
      intro b; rw [← andThen_withSched l _ (hadv run), hsend]
    cases src with
    | byte b => exact hk b
    | hostByte =>
      simp only [sendFrom, withSource, withMemRead, inHostMemory]
      by_cases hh : bufferAddr run.cmd.buf run.i < s.cfg.hostSize
      · simp only [hh, decide_true, if_true]; exact hk _
      · simp only [hh, decide_false]; rfl
    | merged =>
      simp only [sendFrom, withSource]
      cases run.r with
      | some r => exact hk _
      | none => rfl
  cases p with
  | guardEnter =>
    simp only [primStep]; rw [← andThen_withSched l _ (hadv run)]; congr 1; unfold guardEnter; split <;> rfl
  | guardExit =>
    simp only [primStep]; rw [← andThen_withSched l _ (hadv run)]; congr 1; unfold guardExit; split <;> rfl
  | selAssert => simp only [primStep, selAssert]; rw [← hadv, ← hsel]
  | selDeassert => simp only [primStep, selDeassert]; rw [← hadv, ← hsel]
  | settle => rfl
  | send src => exact hfrom src run
  | sendRound k src => exact hfrom src _
  | wait dst => exact hwait dst run s _ hadv
  | respond v => simp only [primStep, respondStep]; split <;> rfl
  | asyncSelect => simp only [primStep, selAssert]; rw [← hadv, ← hsel]
  | asyncArm => rfl
  | ctrlWrite => rfl
  | ctrlRead => rfl
  | statusRead => rfl

/-- The `SEQ` step with a command in flight. -/
theorem seqStep_run {s : State} {run : Run} (hs : s.seq = some run) :
    seqStep s = match nextPrim s.cfg.mode run with
      | some p => primStep run s p
      | none => .fault (.noPrimitive run.upc) := by
  rw [seqStep, hs] <;> rfl

/-- The `SEQ` step with the port idle holds (log 4). -/
theorem seqStep_idle {s : State} (hs : s.seq = none) : seqStep s = .next s := by
  unfold seqStep; rw [hs]

theorem seqStep_withSched (l : List Event) (s : State) :
    seqStep { s with sched := l } = Result.withSched l (seqStep s) := by
  obtain hs | ⟨run, hs⟩ : s.seq = none ∨ ∃ run, s.seq = some run := by cases s.seq <;> simp
  · rw [seqStep_idle hs, seqStep_idle (s := { s with sched := l }) hs]; rfl
  · rw [seqStep_run hs, seqStep_run (s := { s with sched := l }) hs]
    show (match nextPrim s.cfg.mode run with | some p => _ | none => _) = _
    cases nextPrim s.cfg.mode run with
    | some p => exact primStep_withSched l run s p
    | none => rfl

/-- The `BUS` step where no byte is shifting holds (log 4). -/
theorem busStep_notBusy {s : State} (hs : ∀ tx, s.shifter ≠ .busy tx) : busStep s = .next s := by
  unfold busStep
  split
  · rename_i tx h; exact absurd h (hs tx)
  · rfl

/-- The `BUS` step with the unconstrained peer (20_memory.md R86). -/
theorem busStep_unconstrained {s : State} {tx : Byte} (hs : s.shifter = .busy tx)
    (hk : s.cfg.peerKind = .unconstrained) :
    busStep s = .next (byteDone tx (Config.freeByte s.draws) (Config.freePeer s.draws) s) := by
  unfold busStep; rw [hs]; simp only; rw [hk]

/-- The `BUS` step with the reference peer (20_memory.md R82). -/
theorem busStep_reference {s : State} {tx : Byte} (hs : s.shifter = .busy tx) (hk : s.cfg.peerKind = .reference) :
    busStep s = match exchange s.cfg s.peer tx (Config.freeByte s.draws) with
      | .answer rx peer => .next (byteDone tx rx peer s)
      | .raises code info => raise code info s
      | .unselected => .fault (.peerNotSelected tx) := by
  unfold busStep; rw [hs]; simp only; rw [hk] <;> rfl

theorem busStep_withSched (l : List Event) (s : State) :
    busStep { s with sched := l } = Result.withSched l (busStep s) := by
  obtain hs | ⟨tx, hs⟩ : (∀ tx, s.shifter ≠ .busy tx) ∨ ∃ tx, s.shifter = .busy tx := by cases s.shifter <;> simp
  · rw [busStep_notBusy hs, busStep_notBusy (s := { s with sched := l }) hs]; rfl
  · obtain hk | hk : s.cfg.peerKind = .unconstrained ∨ s.cfg.peerKind = .reference := by
      cases s.cfg.peerKind <;> simp
    · rw [busStep_unconstrained hs hk, busStep_unconstrained (s := { s with sched := l }) hs hk]; rfl
    · rw [busStep_reference hs hk, busStep_reference (s := { s with sched := l }) hs hk]
      show (match exchange s.cfg s.peer tx (Config.freeByte s.draws) with
        | .answer _ _ => _ | .raises _ _ => _ | .unselected => _) = _
      cases exchange s.cfg s.peer tx (Config.freeByte s.draws) <;> rfl

theorem issue_withSched (l : List Event) (c : Command) (s : State) :
    issue c { s with sched := l } = Result.withSched l (issue c s) := by
  unfold issue
  have h : issueFault c { s with sched := l } = issueFault c s := rfl
  rw [h]; split <;> rfl

theorem forward_withSched (l : List Event) (s : State) :
    forward { s with sched := l } = Result.withSched l (forward s) := by
  unfold forward
  have h : heldAtWait { s with sched := l } = heldAtWait s := rfl
  rw [h]; split
  · exact busStep_withSched l s
  · exact seqStep_withSched l s

/-- A step that commutes with the schedule leaves it as it was. -/
theorem sched_of_withSched {s t : State} {f : State → Result}
    (h : f { s with sched := s.sched } = Result.withSched s.sched (f s)) (ht : f s = .next t) : t.sched = s.sched := by
  have h' : f s = Result.withSched s.sched (f s) := h
  rw [ht] at h'
  simp only [Result.withSched, Host.Outcome.next.injEq] at h'
  rw [h']

theorem drive_sched {n : Nat} {s t : State} (h : drive n s = .next t) : t.sched = s.sched := by
  induction n generalizing s with
  | zero => cases h; rfl
  | succ n ih =>
    unfold drive at h
    split at h
    · cases h; rfl
    · cases hw : forward s with
      | next u => rw [hw] at h; rw [ih h, sched_of_withSched (forward_withSched _ s) hw]
      | fault f => rw [hw] at h; cases h
      | refused f => rw [hw] at h; cases h

end Sys2Proof.Machine
end

