-- ==== Sys2Proof/Laws/Transaction.lean ====
section
/-! SUPPORT. Whole bus transactions of a command's body: opening, the register transactions, closing. -/

namespace Sys2Proof.Machine

/-- What a chip-select event does to peer and free values, whichever the peer (20_memory.md R86, R87). -/
theorem onSel_eq (level : Bool) (s : State) : ∃ p n, onSel level s = { s with peer := p, draws := n } ∧
    (s.cfg.peerKind = .reference → p = { s.peer with ph := if level then .cmd else .idle } ∧ n = s.draws) := by
  cases hk : s.cfg.peerKind with
  | reference => exact ⟨_, s.draws, by unfold onSel; rw [hk], fun _ => ⟨rfl, rfl⟩⟩
  | unconstrained => exact ⟨Config.freePeer s.draws, s.draws + 1, by unfold onSel; rw [hk], fun h => by cases h⟩

/-- The state in an open guarded transaction. -/
def State.opened (s : State) (p : Peer) (n : Nat) : State :=
  { s with
    guardSaved := s.actIrqEn
    actIrqEn := false
    guardDepth := 1
    cs := true
    trace := s.trace ++ [.sel true]
    peer := p
    draws := n }

/-- The state after a guarded transaction has been closed. -/
def State.closed (s : State) (p : Peer) (n : Nat) : State :=
  { s with
    actIrqEn := s.guardSaved
    guardDepth := 0
    cs := false
    trace := s.trace ++ [.sel false]
    peer := p
    draws := n }

theorem Drives.to {s t u : State} {k : Nat} (h : Drives s t k) (e : t = u) : Drives s u k := e ▸ h

theorem At.to {t u : State} {run : Run} {ps : List Prim} (h : At t run ps) (e : t = u) : At u run ps := e ▸ h

/-- `GUARD_ENTER`, `SEL_ASSERT` from a free guard (43_critical_section_guard.md R182). -/
theorem At.openGuarded {s : State} {run : Run} {ps : List Prim} (h : At s run (.guardEnter :: .selAssert :: ps))
    (hi : s.shifter = .idle) (hd : s.guardDepth = 0) :
    ∃ p n, Drives s ((s.opened p n).at run.next.next) 2 ∧ At ((s.opened p n).at run.next.next) run.next.next ps ∧
      (s.cfg.peerKind = .reference → p = { s.peer with ph := .cmd } ∧ n = s.draws) := by
  obtain ⟨d1, a1⟩ := h.guardEnter hi (by rw [hd]; decide)
  obtain ⟨d2, a2⟩ := a1.selAssert hi
  obtain ⟨p, n, he, hr⟩ :=
    onSel_eq true { s.guarded.at run.next with cs := true, trace := (s.guarded.at run.next).trace ++ [.sel true] }
  have e : (Machine.selAssert (s.guarded.at run.next)).at run.next.next = (s.opened p n).at run.next.next := by
    unfold Machine.selAssert; rw [he]
    simp [State.opened, State.guarded, State.at, hd]
  rw [e] at d2 a2
  exact ⟨p, n, d1.trans d2 rfl, a2, fun hk => by simpa [State.guarded, State.at] using hr hk⟩

/-- `SEL_DEASSERT`, `GUARD_EXIT` of the one guard held (43_critical_section_guard.md R182). -/
theorem At.closeGuarded {s : State} {run : Run} {ps : List Prim} (h : At s run (.selDeassert :: .guardExit :: ps))
    (hi : s.shifter = .idle) (hd : s.guardDepth = 1) :
    ∃ p n, Drives s ((s.closed p n).at run.next.next) 2 ∧ At ((s.closed p n).at run.next.next) run.next.next ps ∧
      (s.cfg.peerKind = .reference → p = { s.peer with ph := .idle } ∧ n = s.draws) := by
  obtain ⟨d1, a1⟩ := h.selDeassert hi
  obtain ⟨d2, a2⟩ := a1.guardExit (by simpa [State.at] using hi) (by simp [State.at, hd])
  obtain ⟨p, n, he, hr⟩ := onSel_eq false { s with cs := false, trace := s.trace ++ [.sel false] }
  have e : ((Machine.selDeassert s).at run.next).unguarded.at run.next.next = (s.closed p n).at run.next.next := by
    unfold Machine.selDeassert; rw [he]
    simp [State.closed, State.unguarded, State.at, hd]
  rw [e] at d2 a2
  exact ⟨p, n, d1.trans d2 rfl, a2, fun hk => by simpa using hr hk⟩

/-- `SEL_ASSERT` with no guard (41_frame_buffer.md R161). -/
theorem At.openPlain {s : State} {run : Run} {ps : List Prim} (h : At s run (.selAssert :: ps))
    (hi : s.shifter = .idle) :
    ∃ p n, let t : State := { s with cs := true, trace := s.trace ++ [.sel true], peer := p, draws := n }
      Drives s (t.at run.next) 1 ∧ At (t.at run.next) run.next ps ∧
      (s.cfg.peerKind = .reference → p = { s.peer with ph := .cmd } ∧ n = s.draws) := by
  obtain ⟨d1, a1⟩ := h.selAssert hi
  obtain ⟨p, n, he, hr⟩ := onSel_eq true { s with cs := true, trace := s.trace ++ [.sel true] }
  unfold Machine.selAssert at d1 a1; rw [he] at d1 a1
  exact ⟨p, n, d1, a1, fun hk => by simpa using hr hk⟩

/-- `SEL_DEASSERT` with no guard (41_frame_buffer.md R161). -/
theorem At.closePlain {s : State} {run : Run} {ps : List Prim} (h : At s run (.selDeassert :: ps))
    (hi : s.shifter = .idle) :
    ∃ p n, let t : State := { s with cs := false, trace := s.trace ++ [.sel false], peer := p, draws := n }
      Drives s (t.at run.next) 1 ∧ At (t.at run.next) run.next ps ∧
      (s.cfg.peerKind = .reference → p = { s.peer with ph := .idle } ∧ n = s.draws) := by
  obtain ⟨d1, a1⟩ := h.selDeassert hi
  obtain ⟨p, n, he, hr⟩ := onSel_eq false { s with cs := false, trace := s.trace ++ [.sel false] }
  unfold Machine.selDeassert at d1 a1; rw [he] at d1 a1
  exact ⟨p, n, d1, a1, fun hk => by simpa using hr hk⟩

/-- The state after a guarded transaction of two bytes. -/
def State.transacted (s : State) (tx0 rx0 tx1 rx1 : Byte) (p : Peer) (n : Nat) : State :=
  { s with
    cs := false
    guardSaved := s.actIrqEn
    trace := s.trace ++ [.sel true, .xfer tx0 rx0, .xfer tx1 rx1, .sel false]
    peer := p
    draws := n }

theorem decodeByte_regWriteByte (a : RegAddr) : decodeByte (regWriteByte a) = .instr (.busRegWrite a) := by
  revert a; decide

theorem decodeByte_regReadByte (a : RegAddr) : decodeByte (regReadByte a) = .instr (.busRegRead a) := by
  revert a; decide

/-- Both peers answer the two bytes of a register write; the reference peer stores the second. -/
theorem answers_regWrite (cfg : Params) (draws : Nat) (peer : Peer) (a : RegAddr) (v : Byte)
    (h : cfg.peerKind = .reference → peer.ph = .cmd) :
    ∃ d0 p0 d1 p1, peerAnswer cfg draws peer (regWriteByte a) = some (d0, p0) ∧
      peerAnswer cfg (draws + 1) p0 v = some (d1, p1) ∧
      (cfg.peerKind = .reference → p1 = { peer with regs := Cells.put peer.regs a.toNat v, ph := .done }) := by
  cases hk : cfg.peerKind with
  | unconstrained => simp [peerAnswer, hk]
  | reference => simp [peerAnswer, hk, exchange, h hk, commandPhase, decodeByte_regWriteByte]

/-- Both peers answer the two bytes of a register read; the reference peer answers a written plain register with its
content (20_memory.md R90). -/
theorem answers_regRead (cfg : Params) (draws : Nat) (peer : Peer) (a : RegAddr)
    (h : cfg.peerKind = .reference → peer.ph = .cmd) :
    ∃ d0 p0 r p1, peerAnswer cfg draws peer (regReadByte a) = some (d0, p0) ∧
      peerAnswer cfg (draws + 1) p0 dummyByte = some (r, p1) ∧
      (cfg.peerKind = .reference → p1 = { peer with ph := .done }) ∧
      (cfg.peerKind = .reference → a ∉ cfg.sideEffectRegs → ∀ v, Cells.get peer.regs a.toNat = some v → r = v) := by
  cases hk : cfg.peerKind with
  | unconstrained => simp [peerAnswer, hk]
  | reference =>
    simp only [peerAnswer, hk, exchange, h hk, commandPhase, decodeByte_regReadByte]
    refine ⟨_, _, _, _, rfl, rfl, fun _ => rfl, fun _ ha v hv => ?_⟩
    simp [ha, hv]

/-- The guarded register-write transaction of a body (40_register_access.md R150). -/
theorem At.regWriteTransaction {s : State} {run : Run} {ps : List Prim} {addr v : Byte} {src : Source}
    (h : At s run (Machine.regWriteTransaction addr src ++ ps)) (hi : s.shifter = .idle) (hd : s.guardDepth = 0)
    (hv : ∀ (t : State) (r : Run) k, r.r = run.r → r.cmd = run.cmd → withSource src r t k = k v) :
    ∃ d0 d1 p n run', run'.cmd = run.cmd ∧ run'.r = run.r ∧
      Drives s ((s.transacted (regWriteByte (addrLow addr)) d0 v d1 p n).at run') 10 ∧
      At ((s.transacted (regWriteByte (addrLow addr)) d0 v d1 p n).at run') run' ps ∧
      (s.cfg.peerKind = .reference →
        p = { s.peer with regs := Cells.put s.peer.regs (addrLow addr).toNat v, ph := .idle }) := by
  obtain ⟨p, n, o1, o2, o3⟩ := At.openGuarded h hi hd
  obtain ⟨d0, p0, d1, p1, b0, b1, b2⟩ :=
    answers_regWrite s.cfg n p (addrLow addr) v (fun hk => by rw [(o3 hk).1])
  obtain ⟨x1, x2⟩ := At.xferDiscard o2 hi (fun _ => rfl) b0
  obtain ⟨y1, y2⟩ := At.xferDiscard x2 rfl (fun k => hv _ _ k rfl rfl) b1
  obtain ⟨q, m, c1, c2, c3⟩ := At.closeGuarded y2 rfl rfl
  refine ⟨d0, d1, q, m, run.next.next.next.next.next.next.next.next, rfl, rfl,
    (o1.trans (x1.trans (y1.trans c1 rfl) rfl) rfl).to ?e, c2.to ?e, fun hk => ?_⟩
  · simp [State.closed, State.exchanged, State.opened, State.at, State.transacted, hi, hd]
  · rw [(c3 hk).1]
    simp [State.exchanged, State.at, b2 hk, (o3 hk).1]

/-- The guarded register-read transaction of a body (40_register_access.md R151): `r` holds the second answer. -/
theorem At.regReadTransaction {s : State} {run : Run} {ps : List Prim} {addr : Byte}
    (h : At s run (Machine.regReadTransaction addr ++ ps)) (hi : s.shifter = .idle) (hd : s.guardDepth = 0) :
    ∃ d0 r p n run', run'.cmd = run.cmd ∧ run'.r = some r ∧
      Drives s ((s.transacted (regReadByte (addrLow addr)) d0 dummyByte r p n).at run') 10 ∧
      At ((s.transacted (regReadByte (addrLow addr)) d0 dummyByte r p n).at run') run' ps ∧
      (s.cfg.peerKind = .reference → p = { s.peer with ph := .idle }) ∧
      (s.cfg.peerKind = .reference → addrLow addr ∉ s.cfg.sideEffectRegs →
        ∀ v, Cells.get s.peer.regs (addrLow addr).toNat = some v → r = v) := by
  obtain ⟨p, n, o1, o2, o3⟩ := At.openGuarded h hi hd
  obtain ⟨d0, p0, r, p1, b0, b1, b2, b3⟩ :=
    answers_regRead s.cfg n p (addrLow addr) (fun hk => by rw [(o3 hk).1])
  obtain ⟨x1, x2⟩ := At.xferDiscard o2 hi (fun _ => rfl) b0
  obtain ⟨y1, y2⟩ := At.xferLocal x2 rfl (fun _ => rfl) b1
  obtain ⟨q, m, c1, c2, c3⟩ := At.closeGuarded y2 rfl rfl
  refine ⟨d0, r, q, m, ({ run.next.next.next.next.next.next with r := some r } : Run).next.next, rfl, rfl,
    (o1.trans (x1.trans (y1.trans c1 rfl) rfl) rfl).to ?e, c2.to ?e, fun hk => ?_, fun hk ha v hv => ?_⟩
  · simp [State.closed, State.exchanged, State.opened, State.at, State.transacted, hi, hd]
  · rw [(c3 hk).1]
    simp [State.exchanged, State.at, b2 hk, (o3 hk).1]
  · exact b3 hk ha v (by rw [(o3 hk).1]; exact hv)

end Sys2Proof.Machine
end

