-- ==== Sys2Proof/Laws/Stream.lean ====
section
/-! SUPPORT. What the peer makes of a stream of data bytes (20_memory.md R91–R95): the reference peer stores or answers
from its place on, the unconstrained peer answers anything. -/

namespace Sys2Proof.Machine

/-- The cells after a stream of bytes has been put from place `k` on. -/
theorem get_put_stream {f g : List (Nat × Byte)} {tx : Byte} {txs : List Byte} {k : Nat}
    (h : ∀ j, Cells.get g j =
      if k + 1 ≤ j ∧ j < k + 1 + txs.length then some (txs.getD (j - (k + 1)) 0) else Cells.get (Cells.put f k tx) j)
    (j : Nat) : Cells.get g j =
      if k ≤ j ∧ j < k + (tx :: txs).length then some ((tx :: txs).getD (j - k) 0) else Cells.get f j := by
  rw [h j, List.length_cons]
  by_cases hj : j = k
  · subst hj
    simp [Cells.get_put_same]
  · rw [Cells.get_put_other _ _ hj]
    by_cases hr : k ≤ j ∧ j < k + (txs.length + 1)
    · obtain ⟨m, rfl⟩ : ∃ m, j = k + 1 + m := ⟨j - (k + 1), by omega⟩
      have e : k + 1 + m - k = m + 1 := by omega
      rw [if_pos (by omega), if_pos hr, e]
      simp
    · rw [if_neg (by omega), if_neg hr]

/-- A stream into the frame buffer (20_memory.md R91). -/
theorem talk_fbw {cfg : Params} (hk : cfg.peerKind = .reference) {txs : List Byte} {k draws : Nat} {peer : Peer}
    (hp : peer.ph = .fbw k) (hr : k + txs.length ≤ cfg.frameBufferSize) :
    ∃ rxs q, talk cfg draws peer txs = some (rxs, q) ∧ q.ph = .fbw (k + txs.length) ∧ q.regs = peer.regs ∧
      q.sram = peer.sram ∧ ∀ j, Cells.get q.fb j =
        if k ≤ j ∧ j < k + txs.length then some (txs.getD (j - k) 0) else Cells.get peer.fb j := by
  induction txs generalizing k draws peer with
  | nil => exact ⟨[], peer, rfl, hp, rfl, rfl, fun j => by rw [if_neg (by simp)]⟩
  | cons tx rest ih =>
    rw [List.length_cons] at hr
    obtain ⟨rxs, q, h1, h2, h3, h4, h5⟩ := ih (k := k + 1) (draws := draws + 1)
      (peer := { peer with fb := Cells.put peer.fb k tx, ph := .fbw (k + 1) }) rfl (by omega)
    refine ⟨_, q, talk_cons (by
      simp only [peerAnswer, hk, exchange, hp]; rw [if_pos (by omega)]) h1, ?_, h3, h4, get_put_stream h5⟩
    rw [h2, List.length_cons]; congr 1; omega

/-- A stream out of the frame buffer (20_memory.md R92). -/
theorem talk_fbr {cfg : Params} (hk : cfg.peerKind = .reference) {txs : List Byte} {k draws : Nat} {peer : Peer}
    (hp : peer.ph = .fbr k) (hr : k + txs.length ≤ cfg.frameBufferSize) :
    ∃ rxs, talk cfg draws peer txs = some (rxs, { peer with ph := .fbr (k + txs.length) }) ∧
      ∀ j v, j < txs.length → Cells.get peer.fb (k + j) = some v → rxs[j]? = some v := by
  induction txs generalizing k draws peer with
  | nil => exact ⟨[], by simp [talk, ← hp], fun j v hj => by simp at hj⟩
  | cons tx rest ih =>
    rw [List.length_cons] at hr
    obtain ⟨rxs, h1, h2⟩ := ih (k := k + 1) (draws := draws + 1) (peer := { peer with ph := .fbr (k + 1) }) rfl (by omega)
    refine ⟨(Cells.get peer.fb k).getD (Config.freeByte draws) :: rxs, ?_, ?_⟩
    · rw [List.length_cons, show k + (rest.length + 1) = k + 1 + rest.length by omega]
      exact talk_cons (by simp only [peerAnswer, hk, exchange, hp]; rw [if_pos (by omega)]) h1
    · intro j v hj hv
      cases j with
      | zero => simp only [Nat.add_zero] at hv; simp [hv]
      | succ j =>
        rw [List.length_cons] at hj
        simpa using h2 j v (by omega) (by rw [← hv]; congr 1; omega)

/-- A stream into the SRAM (20_memory.md R94). -/
theorem talk_srw {cfg : Params} (hk : cfg.peerKind = .reference) {txs : List Byte} {k draws : Nat} {peer : Peer}
    (hp : peer.ph = .srw k) (hr : k + txs.length ≤ cfg.sramSize) :
    ∃ rxs q, talk cfg draws peer txs = some (rxs, q) ∧ q.ph = .srw (k + txs.length) ∧ q.regs = peer.regs ∧
      q.fb = peer.fb ∧ ∀ j, Cells.get q.sram j =
        if k ≤ j ∧ j < k + txs.length then some (txs.getD (j - k) 0) else Cells.get peer.sram j := by
  induction txs generalizing k draws peer with
  | nil => exact ⟨[], peer, rfl, hp, rfl, rfl, fun j => by rw [if_neg (by simp)]⟩
  | cons tx rest ih =>
    rw [List.length_cons] at hr
    obtain ⟨rxs, q, h1, h2, h3, h4, h5⟩ := ih (k := k + 1) (draws := draws + 1)
      (peer := { peer with sram := Cells.put peer.sram k tx, ph := .srw (k + 1) }) rfl (by omega)
    refine ⟨_, q, talk_cons (by
      simp only [peerAnswer, hk, exchange, hp]; rw [if_pos (by omega)]) h1, ?_, h3, h4, get_put_stream h5⟩
    rw [h2, List.length_cons]; congr 1; omega

/-- A stream out of the SRAM (20_memory.md R95). -/
theorem talk_srr {cfg : Params} (hk : cfg.peerKind = .reference) {txs : List Byte} {k draws : Nat} {peer : Peer}
    (hp : peer.ph = .srr k) (hr : k + txs.length ≤ cfg.sramSize) :
    ∃ rxs, talk cfg draws peer txs = some (rxs, { peer with ph := .srr (k + txs.length) }) ∧
      ∀ j v, j < txs.length → Cells.get peer.sram (k + j) = some v → rxs[j]? = some v := by
  induction txs generalizing k draws peer with
  | nil => exact ⟨[], by simp [talk, ← hp], fun j v hj => by simp at hj⟩
  | cons tx rest ih =>
    rw [List.length_cons] at hr
    obtain ⟨rxs, h1, h2⟩ := ih (k := k + 1) (draws := draws + 1) (peer := { peer with ph := .srr (k + 1) }) rfl (by omega)
    refine ⟨(Cells.get peer.sram k).getD (Config.freeByte draws) :: rxs, ?_, ?_⟩
    · rw [List.length_cons, show k + (rest.length + 1) = k + 1 + rest.length by omega]
      exact talk_cons (by simp only [peerAnswer, hk, exchange, hp]; rw [if_pos (by omega)]) h1
    · intro j v hj hv
      cases j with
      | zero => simp only [Nat.add_zero] at hv; simp [hv]
      | succ j =>
        rw [List.length_cons] at hj
        simpa using h2 j v (by omega) (by rw [← hv]; congr 1; omega)

/-- The unconstrained peer answers one byte. -/
theorem peerAnswer_unconstrained {cfg : Params} (hk : cfg.peerKind = .unconstrained) (draws : Nat) (peer : Peer)
    (tx : Byte) : peerAnswer cfg draws peer tx = some (Config.freeByte draws, Config.freePeer draws) := by
  simp only [peerAnswer, hk]

/-- Both peers answer a command byte; the reference peer, waiting for one, enters its phase (20_memory.md R88). -/
theorem answers_commandByte (cfg : Params) (draws : Nat) (peer : Peer) {tx : Byte} {ph : Phase}
    (hc : commandPhase tx = some ph) (hp : cfg.peerKind = .reference → peer.ph = .cmd) :
    ∃ d p, peerAnswer cfg draws peer tx = some (d, p) ∧ (cfg.peerKind = .reference → p = { peer with ph := ph }) := by
  cases hk : cfg.peerKind with
  | unconstrained => exact ⟨_, _, peerAnswer_unconstrained hk _ _ _, by simp⟩
  | reference =>
    refine ⟨Config.freeByte draws, { peer with ph := ph }, ?_, fun _ => rfl⟩
    simp only [peerAnswer, hk, exchange, hp hk, hc]

end Sys2Proof.Machine
end

