-- ==== Sys2Proof/Laws/Place.lean ====
section
/-! SUPPORT. Every body keeps its bracket structure (10_state.md R51–R55, 43_critical_section_guard.md R182): guards and
chip-select are paired, a `SEND` is followed by its `WAIT`, and each primitive finds what it needs. Checked once, over the
bodies; what a primitive may rely on at its place follows. -/

namespace Sys2Proof.Machine

/-- What a place must be for a primitive to be done there, in a command with this op and length. -/
def Prim.fits (m : Mode) (op : OpCode) (len : Nat) (p : Spot) : Prim → Prop
  | .guardEnter => p.guards = 0 ∧ p.sent = false
  | .guardExit => p.guards = 1 ∧ p.sent = false
  | .selAssert => p.sent = false ∧ p.selected = false
  | .selDeassert => p.sent = false ∧ p.selected = true ∧ p.fresh = false
  | .settle => p.fresh = true ∧ p.selected = true ∧ p.sent = false ∧ p.settled = false
  | .send (.byte b) => p.sent = false ∧ p.selected = true ∧ (p.fresh = true → opensWith p.settled b = true)
  | .send .hostByte => False
  | .send .merged => p.sent = false ∧ p.selected = true ∧ p.fresh = false ∧ p.hasLocal = true
  | .sendRound k src => p.sent = false ∧ p.selected = true ∧ p.fresh = false ∧ usesBuffer op = true ∧ k < len ∧
      src ≠ .merged
  | .wait .discard => p.sent = true
  | .wait .toLocal => p.sent = true
  | .wait .hostByte => p.sent = true ∧ usesBuffer op = true ∧ p.index < len
  | .respond v => p.sent = false ∧ p.selected = false ∧ p.guards = 0 ∧ (v ≠ .nothing → p.hasLocal = true)
  | .asyncSelect => m = .nonblocking ∧ p.sent = false ∧ p.selected = false
  | .asyncArm => m = .nonblocking ∧ p.sent = true ∧ p.selected = true ∧ p.guards = 0 ∧ p.masked = true ∧
      usesBuffer op = true
  | .ctrlWrite => p.sent = false ∧ p.selected = false ∧ p.guards = 0
  | .ctrlRead => p.sent = false ∧ p.selected = false ∧ p.guards = 0
  | .statusRead => p.sent = false ∧ p.selected = false ∧ p.guards = 0

/-- The primitive responds. -/
def Prim.responds : Prim → Bool
  | .respond _ => true
  | .asyncArm => true
  | .ctrlWrite => true
  | .ctrlRead => true
  | .statusRead => true
  | _ => false

/-- Every primitive fits its place, and the last one, and only the last one, responds (10_state.md R58). -/
def FitsFrom (m : Mode) (op : OpCode) (len : Nat) : Spot → List Prim → Prop
  | _, [] => False
  | p, x :: rest => x.fits m op len p ∧ (x.responds = true ↔ rest = []) ∧ (rest ≠ [] → FitsFrom m op len (p.after x) rest)

/-- The place after `n` rounds of a stream's loop from `i = k` on. -/
def Spot.streamed (p : Spot) (k n : Nat) : Spot :=
  { p with index := if n = 0 then p.index else k + n - 1, fresh := false, sent := false }

theorem Spot.streamed_succ (p : Spot) (k n : Nat) :
    Spot.streamed { p with index := k, fresh := false, sent := false } (k + 1) n = p.streamed k (n + 1) := by
  simp only [Spot.streamed, Spot.mk.injEq, true_and, and_true]
  rw [if_neg (Nat.succ_ne_zero n)]
  split <;> omega

theorem fitsFrom_rounds {m : Mode} {op : OpCode} {len k n : Nat} {p : Spot} {src : Source} {dst : Sink} {ps : List Prim}
    (hk : (src = .hostByte ∧ dst = .discard) ∨ (src = .byte dummyByte ∧ dst = .hostByte)) (hs : p.sent = false)
    (hc : p.selected = true) (hf : p.fresh = false) (hb : usesBuffer op = true) (hn : k + n ≤ len)
    (hne : ps ≠ []) (h : FitsFrom m op len (p.streamed k n) ps) : FitsFrom m op len p (rounds src dst k n ++ ps) := by
  induction n generalizing k p with
  | zero =>
    have e : p.streamed k 0 = p := by cases p; simp_all [Spot.streamed]
    rw [e] at h; exact h
  | succ n ih =>
    have hrest : rounds src dst (k + 1) n ++ ps ≠ [] := by simp [hne]
    have ih' := ih (k := k + 1) (p := { p with index := k, fresh := false, sent := false }) rfl hc rfl (by omega)
      (by rw [Spot.streamed_succ]; exact h)
    have hsrc : src ≠ .merged := by rcases hk with ⟨rfl, _⟩ | ⟨rfl, _⟩ <;> simp
    refine ⟨⟨hs, hc, hf, hb, by omega, hsrc⟩, by simp [Prim.responds], fun _ => ⟨?_, by simp [Prim.responds, hrest], fun _ => ?_⟩⟩
    · rcases hk with ⟨_, rfl⟩ | ⟨_, rfl⟩
      · rfl
      · exact ⟨rfl, hb, by simp [Spot.after]; omega⟩
    · rcases hk with ⟨_, rfl⟩ | ⟨_, rfl⟩ <;> simpa [Spot.after] using ih'

theorem fitsFrom_stream {m : Mode} {op : OpCode} {len : Nat} {p : Spot} {src : Source} {dst : Sink} {ps : List Prim}
    (hk : (src = .hostByte ∧ dst = .discard) ∨ (src = .byte dummyByte ∧ dst = .hostByte)) (hs : p.sent = false)
    (hc : p.selected = true) (hf : p.fresh = false) (hb : usesBuffer op = true)
    (hne : ps ≠ []) (h : FitsFrom m op len (p.streamed 0 len) ps) : FitsFrom m op len p (stream src dst len ++ ps) :=
  fitsFrom_rounds hk hs hc hf hb (by omega) hne h

/-- A byte that opens a transaction is a command byte (30_encoding.md R128). -/
theorem commandPhase_of_opensWith {d : Bool} {tx : Byte} (h : opensWith d tx = true) : commandPhase tx ≠ none := by
  simp only [opensWith, Bool.and_eq_true] at h
  exact Option.isSome_iff_ne_none.1 h.1

theorem commandPhase_regWriteByte (a : RegAddr) : commandPhase (regWriteByte a) = some (.regw a) := by
  simp [commandPhase, decodeByte_regWriteByte]

theorem commandPhase_regReadByte (a : RegAddr) : commandPhase (regReadByte a) = some (.regr a) := by
  simp [commandPhase, decodeByte_regReadByte]

theorem commandPhase_frameWriteByte : commandPhase frameWriteByte = some (.fbw 0) := by decide
theorem commandPhase_frameReadByte : commandPhase frameReadByte = some (.fbr 0) := by decide
theorem commandPhase_sramWriteByte : commandPhase sramWriteByte = some .srwOff := by decide
theorem commandPhase_sramReadByte : commandPhase sramReadByte = some .srrOff := by decide

theorem opensWith_regWriteByte (a : RegAddr) : opensWith false (regWriteByte a) = true := by revert a; decide
theorem opensWith_regReadByte (a : RegAddr) : opensWith false (regReadByte a) = true := by revert a; decide
theorem opensWith_frameWriteByte : opensWith false frameWriteByte = true := by decide
theorem opensWith_frameReadByte : opensWith false frameReadByte = true := by decide
theorem opensWith_sramWriteByte : opensWith false sramWriteByte = true := by decide
theorem opensWith_sramReadByte : opensWith true sramReadByte = true := by decide

/-- What a record decodes to, by its op (30_encoding.md R131). -/
theorem decodeRecord_cases {m : Mode} {c : Command} {i : Instr} (h : decodeRecord m c = .instr i) :
    (c.op = 0x1#4 ∧ i = .regWrite c.addr c.value) ∨ (c.op = 0x2#4 ∧ i = .regRead c.addr) ∨
    (c.op = 0x3#4 ∧ m = .blocking ∧ i = .frameWriteBlocking c.buf c.len) ∨
    (c.op = 0x3#4 ∧ m = .nonblocking ∧ i = .frameWriteNonblocking c.buf c.len) ∨
    (c.op = 0x4#4 ∧ i = .frameRead c.buf c.len) ∨ (c.op = 0x5#4 ∧ i = .sramWrite c.offset c.buf c.len) ∨
    (c.op = 0x6#4 ∧ i = .sramRead c.offset c.buf c.len) ∨ (c.op = 0x7#4 ∧ i = .bitfieldRead c.addr c.mask c.pos) ∨
    (c.op = 0x8#4 ∧ i = .bitfieldWrite c.addr c.mask c.pos c.value) ∨ (c.op = 0x9#4 ∧ i = .ctrlWrite c.value) ∨
    (c.op = 0xA#4 ∧ i = .ctrlRead) ∨ (c.op = 0xB#4 ∧ i = .statusRead) := by
  unfold decodeRecord at h
  by_cases h1 : c.op = 0x1#4
  · rw [if_pos h1] at h; cases h; exact .inl ⟨h1, rfl⟩
  rw [if_neg h1] at h
  by_cases h2 : c.op = 0x2#4
  · rw [if_pos h2] at h; cases h; exact .inr (.inl ⟨h2, rfl⟩)
  rw [if_neg h2] at h
  by_cases h3 : c.op = 0x3#4
  · rw [if_pos h3] at h
    cases m <;> cases h
    · exact .inr (.inr (.inl ⟨h3, rfl, rfl⟩))
    · exact .inr (.inr (.inr (.inl ⟨h3, rfl, rfl⟩)))
  rw [if_neg h3] at h
  by_cases h4 : c.op = 0x4#4
  · rw [if_pos h4] at h; cases h; simp [h4]
  rw [if_neg h4] at h
  by_cases h5 : c.op = 0x5#4
  · rw [if_pos h5] at h; cases h; simp [h5]
  rw [if_neg h5] at h
  by_cases h6 : c.op = 0x6#4
  · rw [if_pos h6] at h; cases h; simp [h6]
  rw [if_neg h6] at h
  by_cases h7 : c.op = 0x7#4
  · rw [if_pos h7] at h; cases h; simp [h7]
  rw [if_neg h7] at h
  by_cases h8 : c.op = 0x8#4
  · rw [if_pos h8] at h; cases h; simp [h8]
  rw [if_neg h8] at h
  by_cases h9 : c.op = 0x9#4
  · rw [if_pos h9] at h; cases h; simp [h9]
  rw [if_neg h9] at h
  by_cases hA : c.op = 0xA#4
  · rw [if_pos hA] at h; cases h; simp [hA]
  rw [if_neg hA] at h
  by_cases hB : c.op = 0xB#4
  · rw [if_pos hB] at h; cases h; simp [hB]
  rw [if_neg hB] at h
  cases h

/-- The reserved op codes decode to nothing (30_encoding.md R132). -/
theorem decodeRecord_reserved (m : Mode) {c : Command} (h : c.op.toNat = 0 ∨ 0xC ≤ c.op.toNat) :
    decodeRecord m c = .reject (.reservedOp c.op) := by
  have hop : ∀ op : OpCode, op.toNat = 0 ∨ 0xC ≤ op.toNat →
      op = 0x0#4 ∨ op = 0xC#4 ∨ op = 0xD#4 ∨ op = 0xE#4 ∨ op = 0xF#4 := by decide
  rcases hop c.op h with h | h | h | h | h <;> simp [decodeRecord, h]

theorem fitsFrom_cons {m : Mode} {op : OpCode} {len : Nat} {p : Spot} {x y : Prim} {rest : List Prim}
    (hx : x.fits m op len p) (hr : x.responds = false) (h : FitsFrom m op len (p.after x) (y :: rest)) :
    FitsFrom m op len p (x :: y :: rest) :=
  ⟨hx, by simp [hr], fun _ => h⟩

theorem fitsFrom_last {m : Mode} {op : OpCode} {len : Nat} {p : Spot} {x : Prim} (hx : x.fits m op len p)
    (hr : x.responds = true) : FitsFrom m op len p [x] :=
  ⟨hx, by simp [hr], fun h => absurd rfl h⟩

/-- Every body fits, from its start. -/
theorem fitsFrom_body {m : Mode} {c : Command} {i : Instr} (hi : decodeRecord m c = .instr i) :
    FitsFrom m c.op c.len.toNat Spot.start (body i) := by
  rcases decodeRecord_cases hi with ⟨ho, rfl⟩ | ⟨ho, rfl⟩ | ⟨ho, hm, rfl⟩ | ⟨ho, hm, rfl⟩ | ⟨ho, rfl⟩ | ⟨ho, rfl⟩ |
    ⟨ho, rfl⟩ | ⟨ho, rfl⟩ | ⟨ho, rfl⟩ | ⟨ho, rfl⟩ | ⟨ho, rfl⟩ | ⟨ho, rfl⟩ <;> rw [ho]
  · simp [body, regWriteBody, regWriteTransaction, xfer, FitsFrom, Prim.fits, Prim.responds, Spot.after, Spot.start,
      opensWith_regWriteByte]
  · simp [body, regReadBody, regReadTransaction, xfer, FitsFrom, Prim.fits, Prim.responds, Spot.after, Spot.start,
      opensWith_regReadByte]
  · simp only [body, frameWriteBody, xfer, List.cons_append, List.nil_append]
    refine fitsFrom_cons ⟨rfl, rfl⟩ rfl (fitsFrom_cons ⟨rfl, rfl⟩ rfl (fitsFrom_cons (by
      simp [Prim.fits, Spot.after, Spot.start, opensWith_frameWriteByte]) rfl ?_))
    refine ⟨rfl, by simp [Prim.responds], fun _ => ?_⟩
    refine fitsFrom_stream (.inl ⟨rfl, rfl⟩) rfl rfl rfl rfl (by simp) ?_
    simp [FitsFrom, Prim.fits, Prim.responds, Spot.after, Spot.start, Spot.streamed]
  · simp [body, asyncStartBody, FitsFrom, Prim.fits, Prim.responds, Spot.after, Spot.start, hm,
      opensWith_frameWriteByte, usesBuffer]
  · simp only [body, frameReadBody, xfer, List.cons_append, List.nil_append]
    refine fitsFrom_cons ⟨rfl, rfl⟩ rfl (fitsFrom_cons (by
      simp [Prim.fits, Spot.after, Spot.start, opensWith_frameReadByte]) rfl ?_)
    refine ⟨rfl, by simp [Prim.responds], fun _ => ?_⟩
    refine fitsFrom_stream (.inr ⟨rfl, rfl⟩) rfl rfl rfl rfl (by simp) ?_
    simp [FitsFrom, Prim.fits, Prim.responds, Spot.after, Spot.start, Spot.streamed]
  · simp only [body, sramWriteBody, xfer, List.cons_append, List.nil_append]
    refine fitsFrom_cons ⟨rfl, rfl⟩ rfl (fitsFrom_cons ⟨rfl, rfl⟩ rfl (fitsFrom_cons (by
      simp [Prim.fits, Spot.after, Spot.start, opensWith_sramWriteByte]) rfl (fitsFrom_cons rfl rfl
      (fitsFrom_cons (by simp [Prim.fits, Spot.after, Spot.start]) rfl ?_))))
    refine ⟨rfl, by simp [Prim.responds], fun _ => ?_⟩
    refine fitsFrom_stream (.inl ⟨rfl, rfl⟩) rfl rfl rfl rfl (by simp) ?_
    simp [FitsFrom, Prim.fits, Prim.responds, Spot.after, Spot.start, Spot.streamed]
  · simp only [body, sramReadBody, xfer, List.cons_append, List.nil_append]
    refine fitsFrom_cons ⟨rfl, rfl⟩ rfl (fitsFrom_cons ⟨rfl, rfl⟩ rfl (fitsFrom_cons ⟨rfl, rfl, rfl, rfl⟩ rfl (fitsFrom_cons (by
      simp [Prim.fits, Spot.after, Spot.start, opensWith_sramReadByte]) rfl (fitsFrom_cons rfl rfl
      (fitsFrom_cons (by simp [Prim.fits, Spot.after, Spot.start]) rfl ?_)))))
    refine ⟨rfl, by simp [Prim.responds], fun _ => ?_⟩
    refine fitsFrom_stream (.inr ⟨rfl, rfl⟩) rfl rfl rfl rfl (by simp) ?_
    simp [FitsFrom, Prim.fits, Prim.responds, Spot.after, Spot.start, Spot.streamed]
  · simp [body, bitfieldReadBody, regReadTransaction, xfer, FitsFrom, Prim.fits, Prim.responds, Spot.after, Spot.start,
      opensWith_regReadByte]
  · simp [body, bitfieldWriteBody, regReadTransaction, regWriteTransaction, xfer, FitsFrom, Prim.fits, Prim.responds,
      Spot.after, Spot.start, opensWith_regReadByte, opensWith_regWriteByte]
  · simp [body, FitsFrom, Prim.fits, Prim.responds, Spot.start]
  · simp [body, FitsFrom, Prim.fits, Prim.responds, Spot.start]
  · simp [body, FitsFrom, Prim.fits, Prim.responds, Spot.start]

theorem fitsFrom_drop {m : Mode} {op : OpCode} {len n : Nat} {p : Spot} {l : List Prim} (h : FitsFrom m op len p l)
    (hn : n < l.length) : FitsFrom m op len ((l.take n).foldl Spot.after p) (l.drop n) := by
  induction n generalizing p l with
  | zero => simpa using h
  | succ n ih =>
    cases l with
    | nil => simp at hn
    | cons x rest =>
      rw [List.length_cons] at hn
      have hne : rest ≠ [] := by intro he; simp [he] at hn
      simpa using ih (h.2.2 hne) (by omega)

/-- What the primitive next to be done may rely on, and where the run goes from it. -/
theorem fits_nextPrim {m : Mode} {run : Run} {x : Prim} (h : nextPrim m run = some x) :
    x.fits m run.cmd.op run.cmd.len.toNat (run.spot m) ∧
      (x.responds = false → run.upc + 1 < (bodyOf m run.cmd).length) := by
  unfold nextPrim at h
  obtain ⟨hlt, hx⟩ := List.getElem?_eq_some_iff.1 h
  have hd : (bodyOf m run.cmd).drop run.upc = x :: (bodyOf m run.cmd).drop (run.upc + 1) := by
    rw [← hx]; exact List.drop_eq_getElem_cons hlt
  have hf : FitsFrom m run.cmd.op run.cmd.len.toNat (run.spot m) ((bodyOf m run.cmd).drop run.upc) := by
    refine fitsFrom_drop ?_ hlt
    unfold bodyOf at hlt ⊢
    cases hdec : decodeRecord m run.cmd with
    | instr i => exact fitsFrom_body hdec
    | reject e => rw [hdec] at hlt; simp at hlt
  rw [hd] at hf
  refine ⟨hf.1, fun hr => ?_⟩
  have hne : (bodyOf m run.cmd).drop (run.upc + 1) ≠ [] := fun he => by
    have := hf.2.1.2 he; rw [hr] at this; cases this
  by_contra hle
  exact hne (List.drop_eq_nil_of_le (by omega))

/-- The place after one more primitive. -/
theorem spot_next {m : Mode} {run run' : Run} {x : Prim} (h : nextPrim m run = some x) (hc : run'.cmd = run.cmd)
    (hu : run'.upc = run.upc + 1) : run'.spot m = (run.spot m).after x := by
  unfold nextPrim at h
  obtain ⟨hlt, hx⟩ := List.getElem?_eq_some_iff.1 h
  unfold Run.spot
  rw [hc, hu, List.take_add_one, List.getElem?_eq_getElem hlt, hx]
  simp

/-- Guards do not nest, and mask while they are held (43_critical_section_guard.md R182, R185). -/
theorem after_guards {m : Mode} {op : OpCode} {len : Nat} {p : Spot} {x : Prim} (hx : x.fits m op len p)
    (h : p.guards ≤ 1 ∧ (p.guards ≠ 0 → p.masked = true)) :
    (p.after x).guards ≤ 1 ∧ ((p.after x).guards ≠ 0 → (p.after x).masked = true) := by
  cases x with
  | guardEnter => simp only [Prim.fits] at hx; simp [Spot.after, hx.1]
  | guardExit => simp only [Prim.fits] at hx; simp [Spot.after, hx.1]
  | asyncSelect => exact ⟨h.1, fun _ => rfl⟩
  | wait dst => cases dst <;> exact h
  | _ => exact h

theorem foldl_guards {m : Mode} {op : OpCode} {len n : Nat} {p : Spot} {l : List Prim} (hf : FitsFrom m op len p l)
    (h : p.guards ≤ 1 ∧ (p.guards ≠ 0 → p.masked = true)) :
    ((l.take n).foldl Spot.after p).guards ≤ 1 ∧
      (((l.take n).foldl Spot.after p).guards ≠ 0 → ((l.take n).foldl Spot.after p).masked = true) := by
  induction n generalizing p l with
  | zero => simpa using h
  | succ n ih =>
    cases l with
    | nil => simpa using h
    | cons x rest =>
      have hx := after_guards hf.1 h
      cases rest with
      | nil => simpa using hx
      | cons y rest => simpa using ih (hf.2.2 (by simp)) hx

/-- The guards a command holds at its place: none or one, and the activity interrupt is masked while one is held. -/
theorem spot_guards (m : Mode) (run : Run) :
    (run.spot m).guards ≤ 1 ∧ ((run.spot m).guards ≠ 0 → (run.spot m).masked = true) := by
  unfold Run.spot bodyOf
  cases hdec : decodeRecord m run.cmd with
  | instr i => exact foldl_guards (fitsFrom_body hdec) (by simp [Spot.start])
  | reject e => simp [Spot.start]

/-- Just after chip-select is asserted no byte has been sent. -/
theorem after_fresh {m : Mode} {op : OpCode} {len : Nat} {p : Spot} {x : Prim} (hx : x.fits m op len p)
    (h : p.fresh = true → p.sent = false) : (p.after x).fresh = true → (p.after x).sent = false := by
  cases x with
  | selAssert => exact fun _ => hx.1
  | selDeassert => exact fun h => by cases h
  | send src => exact fun h => by cases h
  | sendRound k src => exact fun h => by cases h
  | asyncSelect => exact fun _ => hx.2.1
  | wait dst => cases dst <;> exact fun _ => rfl
  | _ => exact h

theorem foldl_fresh {m : Mode} {op : OpCode} {len n : Nat} {p : Spot} {l : List Prim} (hf : FitsFrom m op len p l)
    (h : p.fresh = true → p.sent = false) :
    ((l.take n).foldl Spot.after p).fresh = true → ((l.take n).foldl Spot.after p).sent = false := by
  induction n generalizing p l with
  | zero => simpa using h
  | succ n ih =>
    cases l with
    | nil => simpa using h
    | cons x rest =>
      have hx := after_fresh hf.1 h
      cases rest with
      | nil => simpa using hx
      | cons y rest => simpa using ih (hf.2.2 (by simp)) hx

theorem spot_fresh (m : Mode) (run : Run) : (run.spot m).fresh = true → (run.spot m).sent = false := by
  unfold Run.spot bodyOf
  cases hdec : decodeRecord m run.cmd with
  | instr i => exact foldl_fresh (fitsFrom_body hdec) (by simp [Spot.start])
  | reject e => simp [Spot.start]

/-- The body of `STATUS_READ` is its one primitive. -/
theorem nextPrim_status {m : Mode} {run : Run} {x : Prim} (h : nextPrim m run = some x)
    (ho : run.cmd.op = opStatusRead) : x = .statusRead := by
  have hb : bodyOf m run.cmd = [.statusRead] := by simp [bodyOf, decodeRecord, ho, opStatusRead, body]
  unfold nextPrim at h
  rw [hb] at h
  cases hu : run.upc with
  | zero => rw [hu] at h; simpa using h.symm
  | succ n => rw [hu] at h; simp at h

end Sys2Proof.Machine
end

