-- ==== Sys2Proof/Laws/Frame.lean ====
section
/-! SUPPORT. What a primitive, a `BUS` step and a whole command leave unchanged. -/

namespace Sys2Proof.Machine

/-- What a primitive leaves unchanged, and how it changes what it changes. -/
structure PrimFrame (run : Run) (s t : State) (x : Prim) : Prop where
  cfg     : t.cfg = s.cfg
  cs      : x ≠ .selAssert → x ≠ .selDeassert → x ≠ .asyncSelect → t.cs = s.cs
  prog    : t.prog = s.prog
  sched   : t.sched = s.sched
  trxIrq  : t.trxIrq = s.trxIrq
  trace   : ∃ es, t.trace = s.trace ++ es
  resp    : ∃ rs, t.resp = s.resp ++ rs
  peer    : t.peer = s.peer ∨ ∃ level, t.peer = (onSel level s).peer
  async   : x ≠ .asyncArm → t.cmpIrqEn = s.cmpIrqEn ∧ t.asyncState = s.asyncState ∧
    t.asyncRemaining = s.asyncRemaining ∧ t.asyncCursor = s.asyncCursor
  guard   : x ≠ .guardEnter → x ≠ .guardExit → t.guardDepth = s.guardDepth ∧ t.guardSaved = s.guardSaved
  enable  : x ≠ .guardEnter → x ≠ .guardExit → x ≠ .asyncSelect → x ≠ .ctrlWrite → t.actIrqEn = s.actIrqEn
  mem     : t.mem = s.mem ∨ (x = .wait .hostByte ∧ ∃ v,
    bufferAddr run.cmd.buf run.i < s.cfg.hostSize ∧ t.mem = Memory.write s.mem (bufferAddr run.cmd.buf run.i) v)
  seq     : t.seq = none ∨ t.seq = s.seq ∨ ∃ run', t.seq = some run' ∧ run'.cmd = run.cmd ∧ run'.upc = run.upc + 1 ∧
    ((∀ k src, x ≠ .sendRound k src) → run'.i = run.i) ∧ ∀ k src, x = .sendRound k src → run'.i = BitVec.ofNat 8 k

theorem PrimFrame.refl (run : Run) (s : State) (x : Prim) : PrimFrame run s s x :=
  ⟨rfl, fun _ _ _ => rfl, rfl, rfl, rfl, ⟨[], by simp⟩, ⟨[], by simp⟩, .inl rfl, fun _ => ⟨rfl, rfl, rfl, rfl⟩, fun _ _ => ⟨rfl, rfl⟩,
    fun _ _ _ _ => rfl, .inl rfl, .inr (.inl rfl)⟩

/-- A recorded fault is no part of the frame. -/
theorem PrimFrame.fault (run : Run) (s : State) (x : Prim) (f : Option FaultRecord) :
    PrimFrame run s { s with fault := f } x :=
  ⟨rfl, fun _ _ _ => rfl, rfl, rfl, rfl, ⟨[], by simp⟩, ⟨[], by simp⟩, .inl rfl, fun _ => ⟨rfl, rfl, rfl, rfl⟩, fun _ _ => ⟨rfl, rfl⟩,
    fun _ _ _ _ => rfl, .inl rfl, .inr (.inl rfl)⟩

theorem onSel_peer_congr {level : Bool} {s t : State} (h1 : t.cfg = s.cfg) (h2 : t.peer = s.peer)
    (h3 : t.draws = s.draws) : (onSel level t).peer = (onSel level s).peer := by
  unfold onSel; rw [h1]; split
  · simp [h2]
  · simp [h3]

/-- What a `WAIT` of a body leaves unchanged. -/
theorem waitStep_frame {dst : Sink} {run : Run} {s t : State} (h : waitStep dst s run advance = .next t) :
    PrimFrame run s t (.wait dst) := by
  rcases waitStep_next h with ⟨_, rfl⟩ | ⟨rx, hrx, h⟩
  · exact .refl run t _
  · cases dst with
    | hostByte =>
      have hm : ∀ u, memWrite (bufferAddr run.cmd.buf run.i) rx { s with shifter := .idle } = .next u →
          bufferAddr run.cmd.buf run.i < s.cfg.hostSize ∧
            u = { s with shifter := .idle, mem := Memory.write s.mem (bufferAddr run.cmd.buf run.i) rx } :=
        fun u hu => memWrite_next hu
      rcases andThen_next h with ⟨h1, _⟩ | ⟨u, h1, _, h2⟩
      · obtain ⟨hlt, rfl⟩ := hm _ h1
        exact ⟨rfl, fun _ _ _ => rfl, rfl, rfl, rfl, ⟨[], by simp⟩, ⟨[], by simp⟩, .inl rfl, fun _ => ⟨rfl, rfl, rfl, rfl⟩,
          fun _ _ => ⟨rfl, rfl⟩, fun _ _ _ _ => rfl, .inr ⟨rfl, rx, hlt, rfl⟩, .inr (.inl rfl)⟩
      · obtain ⟨hlt, rfl⟩ := hm _ h1
        cases h2
        exact ⟨rfl, fun _ _ _ => rfl, rfl, rfl, rfl, ⟨[], by simp⟩, ⟨[], by simp⟩, .inl rfl, fun _ => ⟨rfl, rfl, rfl, rfl⟩,
          fun _ _ => ⟨rfl, rfl⟩, fun _ _ _ _ => rfl, .inr ⟨rfl, rx, hlt, rfl⟩,
          .inr (.inr ⟨_, rfl, rfl, rfl, fun _ => rfl, fun _ _ h => by cases h⟩)⟩
    | _ =>
      cases h
      exact ⟨rfl, fun _ _ _ => rfl, rfl, rfl, rfl, ⟨[], by simp⟩, ⟨[], by simp⟩, .inl rfl, fun _ => ⟨rfl, rfl, rfl, rfl⟩, fun _ _ => ⟨rfl, rfl⟩,
        fun _ _ _ _ => rfl, .inl rfl, .inr (.inr ⟨_, rfl, rfl, rfl, fun _ => rfl, fun _ _ h => by cases h⟩)⟩

/-- What a `SEND` leaves unchanged, the run as it is for this step. -/
theorem sendFrom_frame {src : Source} {x : Prim} {run run1 : Run} {s t : State}
    (h1 : run1.cmd = run.cmd ∧ run1.upc = run.upc) (hi1 : (∀ k src, x ≠ .sendRound k src) → run1.i = run.i)
    (hi2 : ∀ k src, x = .sendRound k src → run1.i = BitVec.ofNat 8 k) (h : sendFrom src run1 s = .next t) :
    PrimFrame run s t x := by
  have key : ∀ b, andThen (send b s) (advance run1) = .next t → PrimFrame run s t x := by
    intro b h
    rcases andThen_next h with ⟨h2, _⟩ | ⟨u, h2, _, h3⟩
    · rcases send_next h2 with ⟨_, rfl⟩ | ⟨_, rfl⟩
      · exact ⟨rfl, fun _ _ _ => rfl, rfl, rfl, rfl, ⟨[], by simp⟩, ⟨[], by simp⟩, .inl rfl, fun _ => ⟨rfl, rfl, rfl, rfl⟩,
          fun _ _ => ⟨rfl, rfl⟩, fun _ _ _ _ => rfl, .inl rfl, .inr (.inl rfl)⟩
      · exact .fault ..
    · cases h3
      rcases send_next h2 with ⟨_, rfl⟩ | ⟨_, rfl⟩
      all_goals exact ⟨rfl, fun _ _ _ => rfl, rfl, rfl, rfl, ⟨[], by simp⟩, ⟨[], by simp⟩, .inl rfl, fun _ => ⟨rfl, rfl, rfl, rfl⟩,
          fun _ _ => ⟨rfl, rfl⟩, fun _ _ _ _ => rfl, .inl rfl,
          .inr (.inr ⟨_, rfl, h1.1, by show run1.upc + 1 = _; rw [h1.2], hi1, hi2⟩)⟩
  cases src with
  | byte b => exact key b h
  | hostByte => exact key _ (withMemRead_next (k := fun b => andThen (send b s) (advance run1)) h).2
  | merged =>
    simp only [sendFrom, withSource] at h
    cases hr : run1.r with
    | some r => rw [hr] at h; exact key _ h
    | none => rw [hr] at h; cases h

/-- What a primitive leaves unchanged. -/
theorem primStep_frame {run : Run} {s t : State} {x : Prim} (h : primStep run s x = .next t) : PrimFrame run s t x := by
  cases x with
  | guardEnter =>
    rcases andThen_next h with ⟨h1, _⟩ | ⟨u, h1, _, h2⟩
    · rcases guardEnter_next h1 with ⟨_, rfl⟩ | ⟨_, rfl⟩
      · exact ⟨rfl, fun _ _ _ => rfl, rfl, rfl, rfl, ⟨[], by simp⟩, ⟨[], by simp⟩, .inl rfl, fun _ => ⟨rfl, rfl, rfl, rfl⟩,
          fun h => absurd rfl h, fun h => absurd rfl h, .inl rfl, .inr (.inl rfl)⟩
      · exact .fault ..
    · cases h2
      rcases guardEnter_next h1 with ⟨_, rfl⟩ | ⟨_, rfl⟩
      all_goals exact ⟨rfl, fun _ _ _ => rfl, rfl, rfl, rfl, ⟨[], by simp⟩, ⟨[], by simp⟩, .inl rfl, fun _ => ⟨rfl, rfl, rfl, rfl⟩,
          fun h => absurd rfl h, fun h => absurd rfl h, .inl rfl, .inr (.inr ⟨_, rfl, rfl, rfl, fun _ => rfl, by simp⟩)⟩
  | guardExit =>
    rcases andThen_next h with ⟨h1, _⟩ | ⟨u, h1, _, h2⟩
    · rcases guardExit_next h1 with ⟨_, rfl⟩ | ⟨_, rfl⟩
      · exact ⟨rfl, fun _ _ _ => rfl, rfl, rfl, rfl, ⟨[], by simp⟩, ⟨[], by simp⟩, .inl rfl, fun _ => ⟨rfl, rfl, rfl, rfl⟩,
          fun _ h => absurd rfl h, fun _ h => absurd rfl h, .inl rfl, .inr (.inl rfl)⟩
      · exact .fault ..
    · cases h2
      rcases guardExit_next h1 with ⟨_, rfl⟩ | ⟨_, rfl⟩
      all_goals exact ⟨rfl, fun _ _ _ => rfl, rfl, rfl, rfl, ⟨[], by simp⟩, ⟨[], by simp⟩, .inl rfl, fun _ => ⟨rfl, rfl, rfl, rfl⟩,
          fun _ h => absurd rfl h, fun _ h => absurd rfl h, .inl rfl,
          .inr (.inr ⟨_, rfl, rfl, rfl, fun _ => rfl, by simp⟩)⟩
  | selAssert =>
    cases h
    exact ⟨by simp, fun h => absurd rfl h, by simp, by simp, by simp, ⟨[.sel true], by simp⟩, ⟨[], by simp⟩, .inr ⟨true, onSel_peer_congr rfl rfl rfl⟩,
      fun _ => by simp, fun _ _ => by simp, fun _ _ _ _ => by simp, .inl (by simp),
      .inr (.inr ⟨_, rfl, rfl, rfl, fun _ => rfl, by simp⟩)⟩
  | selDeassert =>
    cases h
    exact ⟨by simp, fun _ h => absurd rfl h, by simp, by simp, by simp, ⟨[.sel false], by simp⟩, ⟨[], by simp⟩, .inr ⟨false, onSel_peer_congr rfl rfl rfl⟩,
      fun _ => by simp, fun _ _ => by simp, fun _ _ _ _ => by simp, .inl (by simp),
      .inr (.inr ⟨_, rfl, rfl, rfl, fun _ => rfl, by simp⟩)⟩
  | settle =>
    cases h
    exact ⟨rfl, fun _ _ _ => rfl, rfl, rfl, rfl, ⟨_, rfl⟩, ⟨[], by simp [settle]⟩, .inl rfl, fun _ => ⟨rfl, rfl, rfl, rfl⟩,
      fun _ _ => ⟨rfl, rfl⟩, fun _ _ _ _ => rfl, .inl rfl, .inr (.inr ⟨_, rfl, rfl, rfl, fun _ => rfl, by simp⟩)⟩
  | send src => exact sendFrom_frame ⟨rfl, rfl⟩ (fun _ => rfl) (fun _ _ h => by cases h) h
  | sendRound k src =>
    exact sendFrom_frame (run1 := run.atRound k) ⟨rfl, rfl⟩ (fun h => absurd rfl (h k src))
      (fun _ _ h => by cases h; rfl) h
  | wait dst => exact waitStep_frame h
  | respond v =>
    have key : ∀ w, t = respond run.cmd.op w s → PrimFrame run s t (.respond v) := by
      rintro w rfl
      exact ⟨rfl, fun _ _ _ => rfl, rfl, rfl, rfl, ⟨[], by simp [respond]⟩, ⟨_, rfl⟩, .inl rfl, fun _ => ⟨rfl, rfl, rfl, rfl⟩,
        fun _ _ => ⟨rfl, rfl⟩, fun _ _ _ _ => rfl, .inl rfl, .inl rfl⟩
    simp only [primStep, respondStep] at h
    split at h <;> first | (cases h; exact key _ rfl) | cases h
  | asyncSelect =>
    cases h
    exact ⟨by simp, fun _ _ h => absurd rfl h, by simp, by simp, by simp, ⟨[.sel true], by simp⟩, ⟨[], by simp⟩, .inr ⟨true, onSel_peer_congr rfl rfl rfl⟩,
      fun _ => by simp, fun _ _ => by simp, fun _ _ h => absurd rfl h, .inl (by simp),
      .inr (.inr ⟨_, rfl, rfl, rfl, fun _ => rfl, by simp⟩)⟩
  | asyncArm =>
    cases h
    exact ⟨rfl, fun _ _ _ => rfl, rfl, rfl, rfl, ⟨[], by simp [asyncArm, respond]⟩, ⟨_, rfl⟩, .inl rfl, fun h => absurd rfl h,
      fun _ _ => ⟨rfl, rfl⟩, fun _ _ _ _ => rfl, .inl rfl, .inl rfl⟩
  | ctrlWrite =>
    cases h
    exact ⟨rfl, fun _ _ _ => rfl, rfl, rfl, rfl, ⟨[], by simp [respond]⟩, ⟨_, rfl⟩, .inl rfl, fun _ => ⟨rfl, rfl, rfl, rfl⟩,
      fun _ _ => ⟨rfl, rfl⟩, fun _ _ _ h => absurd rfl h, .inl rfl, .inl rfl⟩
  | ctrlRead =>
    cases h
    exact ⟨rfl, fun _ _ _ => rfl, rfl, rfl, rfl, ⟨[], by simp [respond]⟩, ⟨_, rfl⟩, .inl rfl, fun _ => ⟨rfl, rfl, rfl, rfl⟩,
      fun _ _ => ⟨rfl, rfl⟩, fun _ _ _ _ => rfl, .inl rfl, .inl rfl⟩
  | statusRead =>
    cases h
    exact ⟨rfl, fun _ _ _ => rfl, rfl, rfl, rfl, ⟨[], by simp [respond]⟩, ⟨_, rfl⟩, .inl rfl, fun _ => ⟨rfl, rfl, rfl, rfl⟩,
      fun _ _ => ⟨rfl, rfl⟩, fun _ _ _ _ => rfl, .inl rfl, .inl rfl⟩

/-- What a `BUS` step leaves unchanged (20_memory.md R82). -/
theorem busStep_frame {s t : State} (h : busStep s = .next t) :
    ∃ sh tr p d f, t = { s with shifter := sh, trace := s.trace ++ tr, peer := p, draws := d, fault := f } := by
  rcases busStep_next h with ⟨_, rfl⟩ | ⟨tx, _, ⟨rx, p, rfl, _⟩ | ⟨code, info, _, rfl, _⟩⟩
  · exact ⟨t.shifter, [], t.peer, t.draws, t.fault, by simp⟩
  · exact ⟨_, _, p, _, s.fault, rfl⟩
  · exact ⟨s.shifter, [], s.peer, s.draws, some ⟨code, info⟩, by simp⟩

/-- A move that carries a command leaves what surrounds the block: configuration, program, schedule, interrupt line. -/
theorem CommandMove.surroundings {s t : State} (h : CommandMove s t) :
    t.cfg = s.cfg ∧ t.prog = s.prog ∧ t.sched = s.sched ∧ t.trxIrq = s.trxIrq := by
  cases h with
  | issue c _ h => rcases issue_next h with ⟨f, _, rfl⟩ | ⟨_, rfl⟩ <;> exact ⟨rfl, rfl, rfl, rfl⟩
  | sequencer _ h =>
    rcases seqStep_next h with ⟨_, rfl⟩ | ⟨run, x, _, _, h⟩
    · exact ⟨rfl, rfl, rfl, rfl⟩
    · have F := primStep_frame h
      exact ⟨F.cfg, F.prog, F.sched, F.trxIrq⟩
  | bus _ h => obtain ⟨_, _, _, _, _, rfl⟩ := busStep_frame h; exact ⟨rfl, rfl, rfl, rfl⟩

/-- An instruction leaves what surrounds the block. -/
theorem exec_surroundings {i : Instr} {s t : State} (h : exec i s = .next t) :
    t.cfg = s.cfg ∧ t.prog = s.prog ∧ t.sched = s.sched ∧ t.trxIrq = s.trxIrq :=
  chain_induction
    (R := fun s t : State => t.cfg = s.cfg ∧ t.prog = s.prog ∧ t.sched = s.sched ∧ t.trxIrq = s.trxIrq)
    (fun _ => ⟨rfl, rfl, rfl, rfl⟩)
    (fun _ _ _ a b => ⟨b.1.trans a.1, b.2.1.trans a.2.1, b.2.2.1.trans a.2.2.1, b.2.2.2.trans a.2.2.2⟩)
    (fun _ _ _ h => h.surroundings) (exec_moves h)

/-- Which primitives the bodies hold, by op. -/
theorem mem_bodyOf {m : Mode} {c : Command} {x : Prim} (h : x ∈ bodyOf m c) :
    (x = .asyncArm → c.op = 0x3#4) ∧ (x = .asyncSelect → c.op = 0x3#4) ∧ (x = .ctrlWrite → c.op = 0x9#4) ∧
      (x = .wait .hostByte → c.op = 0x4#4 ∨ c.op = 0x6#4) ∧
      (x = .guardEnter ∨ x = .guardExit → c.op ≠ 0x4#4 ∧ c.op ≠ 0x9#4 ∧ c.op ≠ 0xA#4 ∧ c.op ≠ 0xB#4) := by
  have hrounds : ∀ src dst k n, x ∈ rounds src dst k n → (∃ k, x = .sendRound k src) ∨ x = .wait dst := by
    intro src dst k n hx
    induction n generalizing k with
    | zero => simp [rounds] at hx
    | succ n ih =>
      simp only [rounds, List.mem_cons] at hx
      rcases hx with hx | hx | hx
      · exact .inl ⟨k, hx⟩
      · exact .inr hx
      · exact ih _ hx
  have hstream : ∀ src dst n, x ∈ stream src dst n → (∃ k, x = .sendRound k src) ∨ x = .wait dst :=
    fun src dst n => hrounds src dst 0 n
  unfold bodyOf at h
  cases hdec : decodeRecord m c with
  | reject e => rw [hdec] at h; cases h
  | instr i =>
    rw [hdec] at h
    rcases decodeRecord_cases hdec with ⟨ho, rfl⟩ | ⟨ho, rfl⟩ | ⟨ho, hm, rfl⟩ | ⟨ho, hm, rfl⟩ | ⟨ho, rfl⟩ | ⟨ho, rfl⟩ |
      ⟨ho, rfl⟩ | ⟨ho, rfl⟩ | ⟨ho, rfl⟩ | ⟨ho, rfl⟩ | ⟨ho, rfl⟩ | ⟨ho, rfl⟩ <;> rw [ho] <;>
      simp only [body, regWriteBody, regReadBody, frameWriteBody, asyncStartBody, frameReadBody, sramWriteBody,
        sramReadBody, bitfieldReadBody, bitfieldWriteBody, regWriteTransaction, regReadTransaction, xfer, List.mem_append,
        List.mem_cons, List.not_mem_nil, or_false] at h <;>
      refine ⟨?_, ?_, ?_, ?_, ?_⟩
    all_goals
      intro hx
      first
      | decide
      | (subst hx; simp at h; have := hstream _ _ _ h; simp at this)
      | (rcases hx with rfl | rfl <;> simp at h <;> have := hstream _ _ _ h <;> simp at this)

end Sys2Proof.Machine
end

