-- ==== Sys2Proof/Laws/Invariant.lean ====
section
/-! SUPPORT. The controller's invariant move by move: from a state of the invariant with no fault recorded, each move has a
next state of the invariant, and raises none of the faults that 60_exceptions.md R240 marks not reachable. -/

namespace Sys2Proof.Machine

/-- The fault recorded, if one is, is none of `GUARD_DEPTH`, `SHIFTER_BUSY`, `RESERVED_CMD`. -/
def GoodFault (s : State) : Prop :=
  ∀ f, s.fault = some f → f.code ≠ .guardDepth ∧ f.code ≠ .shifterBusy ∧ f.code ≠ .reservedCmd

/-- The move has a next state, of the invariant and with no unreachable fault. -/
def Keeps (r : Result) : Prop := ∃ t, r = .next t ∧ BlockInv t ∧ GoodFault t

theorem goodFault_none {s : State} (h : s.fault = none) : GoodFault s := by
  intro f hf; rw [h] at hf; cases hf

/-- The invariant says nothing of memory, histories, fault, interrupt line, saved enable, program, schedule and counter. -/
theorem BlockInv.frame {s : State} (h : BlockInv s) (tr : List BusEvent) (rs : List Response) (f : Option FaultRecord)
    (l : Bool) (m : List Host.Cell) (pr : List Line) (sc : List Event) (d : Nat) (g : Bool) :
    BlockInv { s with
      trace := tr, resp := rs, fault := f, trxIrq := l, mem := m, prog := pr, sched := sc, draws := d, guardSaved := g } := by
  obtain ⟨h1, h2, h3, h4, h5, h6, h7, h8⟩ := h
  exact ⟨h1, h2, h3, h4, h5, fun run hr => by
    obtain ⟨a, b, c, d, e, f, g, i, j⟩ := h6 run hr
    exact ⟨a, b, c, d, e, f, g, i, j⟩, h7, h8⟩

/-- The invariant while a command is in flight and no asynchronous write runs. -/
theorem BlockInv.of_run {t : State} {run : Run} (m : Mode) (hmode : t.cfg.mode = m) (hseq : t.seq = some run) (hidle : t.asyncState = .idle)
    (hcmp : t.cmpIrqEn = false) (hfit : RunFits t run) (hsel : t.shifter ≠ .idle → t.cs = true)
    (hpeer : t.cfg.peerKind = .reference → t.cs = true → t.peer.ph ≠ .idle ∧ (t.peer.ph = .cmd →
      (t.shifter = .idle ∧ (run.spot m).fresh = true) ∨ ∃ tx, t.shifter = .busy tx ∧ commandPhase tx ≠ none)) :
    BlockInv t where
  blocking _ := hidle
  cmpIrq := by rw [hcmp, hidle]; simp
  writing h := by rw [hidle] at h; cases h
  cursor h := by rw [hidle] at h; cases h
  idlePort h := by rw [hseq] at h; cases h
  run r hr := by rw [hseq] at hr; cases hr; exact hfit
  selected := hsel
  peer hk hc := by
    obtain ⟨p1, p2⟩ := hpeer hk hc
    refine ⟨p1, fun hp => ?_⟩
    rcases p2 hp with ⟨a, b⟩ | h
    · exact .inl ⟨a, run, hseq, hmode ▸ b⟩
    · exact .inr h

/-- How the run and the state agree after one more primitive. -/
theorem RunFits.after {s t : State} {run run' : Run} {x : Prim} (R : RunFits s run)
    (hx : nextPrim s.cfg.mode run = some x) (hr : x.responds = false) (hc : run'.cmd = run.cmd)
    (hu : run'.upc = run.upc + 1) (hcfg : t.cfg = s.cfg) (hidle : t.asyncState = .idle)
    (hi : run'.i.toNat = ((run.spot s.cfg.mode).after x).index)
    (hl : ((run.spot s.cfg.mode).after x).hasLocal = true → run'.r ≠ none)
    (hd : t.guardDepth.toNat = ((run.spot s.cfg.mode).after x).guards)
    (hm : ((run.spot s.cfg.mode).after x).masked = true → t.actIrqEn = false)
    (hsel : t.cs = ((run.spot s.cfg.mode).after x).selected)
    (hsent : t.shifter = .idle ↔ ((run.spot s.cfg.mode).after x).sent = false) : RunFits t run' := by
  have hs := spot_next hx hc hu
  refine ⟨?_, ?_, ?_, ?_, ?_, ?_, ?_, ?_, ?_⟩
  · rw [hcfg, hc, hu]; exact (fits_nextPrim hx).2 hr
  · rw [hcfg, hs]; exact hi
  · rw [hcfg, hs]; exact hl
  · rw [hcfg, hs]; exact hd
  · rw [hcfg, hs]; exact hm
  · rw [hcfg, hc]; exact R.buffer
  · intro _; rw [hcfg, hs]; exact hsel
  · intro _; rw [hcfg, hs]; exact hsent
  · intro h; rw [hidle] at h; cases h

/-- The invariant where a command that was alone has just responded. -/
theorem BlockInv.of_respond {t : State} (hseq : t.seq = none) (hidle : t.asyncState = .idle) (hcmp : t.cmpIrqEn = false)
    (hd : t.guardDepth = 0) (hcs : t.cs = false) (hsh : t.shifter = .idle) : BlockInv t where
  blocking _ := hidle
  cmpIrq := by rw [hcmp, hidle]; simp
  writing h := by rw [hidle] at h; cases h
  cursor h := by rw [hidle] at h; cases h
  idlePort _ := ⟨hd, fun _ => ⟨hcs, hsh⟩⟩
  run r hr := by rw [hseq] at hr; cases hr
  selected h := absurd hsh h
  peer _ h := by rw [hcs] at h; cases h

theorem Keeps.next {t : State} (h : BlockInv t) (hf : t.fault = none) : Keeps (.next t) :=
  ⟨t, rfl, h, goodFault_none hf⟩

theorem depth_one {s : State} {n : Nat} (h : s.guardDepth.toNat = n) : s.guardDepth = BitVec.ofNat 8 n := by
  apply BitVec.eq_of_toNat_eq
  rw [h, BitVec.toNat_ofNat, Nat.mod_eq_of_lt]
  rw [← h]; exact s.guardDepth.isLt

/-- What a state of the invariant with a command in flight gives that command's next primitive. -/
structure Before (s : State) (run : Run) (x : Prim) : Prop where
  seq   : s.seq = some run
  fault : s.fault = none
  inv   : BlockInv s
  fit   : RunFits s run
  next  : nextPrim s.cfg.mode run = some x
  idle  : s.asyncState = .idle
  here  : x.fits s.cfg.mode run.cmd.op run.cmd.len.toNat (run.spot s.cfg.mode)

theorem Before.cmp {s : State} {run : Run} {x : Prim} (h : Before s run x) : s.cmpIrqEn = false := by
  cases hc : s.cmpIrqEn with
  | false => rfl
  | true => have := h.inv.cmpIrq.1 hc; rw [h.idle] at this; cases this

theorem Before.shifter {s : State} {run : Run} {x : Prim} (h : Before s run x)
    (hs : (run.spot s.cfg.mode).sent = false) : s.shifter = .idle := (h.fit.sent h.idle).2 hs

theorem Before.selected {s : State} {run : Run} {x : Prim} (h : Before s run x) :
    s.cs = (run.spot s.cfg.mode).selected := h.fit.selected h.idle

/-- The peer with an idle shifter: waiting for a command byte only where one is about to be sent. -/
theorem Before.peerIdle {s : State} {run : Run} {x : Prim} (h : Before s run x) (hs : s.shifter = .idle)
    (hk : s.cfg.peerKind = .reference) (hc : s.cs = true) :
    s.peer.ph ≠ .idle ∧ (s.peer.ph = .cmd → (run.spot s.cfg.mode).fresh = true) := by
  obtain ⟨h1, h2⟩ := h.inv.peer hk hc
  refine ⟨h1, fun hp => ?_⟩
  rcases h2 hp with ⟨_, r, hr, hf⟩ | ⟨tx, htx, _⟩
  · rw [h.seq] at hr; cases hr; exact hf
  · rw [hs] at htx; cases htx

/-- The peer with the done latch set awaits no command byte. -/
theorem BlockInv.peerDone {s : State} {rx : Byte} (h : BlockInv s) (hs : s.shifter = .done rx)
    (hk : s.cfg.peerKind = .reference) (hc : s.cs = true) : s.peer.ph ≠ .idle ∧ s.peer.ph ≠ .cmd := by
  obtain ⟨h1, h2⟩ := h.peer hk hc
  refine ⟨h1, fun hp => ?_⟩
  rcases h2 hp with ⟨hi, _⟩ | ⟨tx, htx, _⟩
  · rw [hs] at hi; cases hi
  · rw [hs] at htx; cases htx

/-- The peer after a chip-select assertion. -/
theorem onSel_true_ph {s : State} (hk : s.cfg.peerKind = .reference) : (onSel true s).peer.ph = .cmd := by
  unfold onSel; rw [hk]; rfl

theorem Before.guardEnter {s : State} {run : Run} (h : Before s run .guardEnter) :
    Keeps (primStep run s .guardEnter) := by
  obtain ⟨hg, hs⟩ := h.here
  have hsh := h.shifter hs
  have hd := h.fit.depth
  have hlt : s.guardDepth.toNat < 255 := by rw [hd, hg]; decide
  simp only [primStep, Machine.guardEnter, hlt, if_true]
  rw [andThen_of_none _ (by exact h.fault)]
  refine Keeps.next (BlockInv.of_run s.cfg.mode rfl rfl h.idle h.cmp (h.fit.after h.next rfl rfl rfl rfl h.idle ?_ ?_ ?_ ?_ ?_ ?_)
    (fun hn => absurd hsh hn) ?_) h.fault
  · exact h.fit.i
  · exact h.fit.r
  · have : s.guardDepth = 0 := depth_one (hd.trans hg)
    show (s.guardDepth + 1).toNat = _
    rw [this]; simp [Spot.after, hg]
  · exact fun _ => rfl
  · exact h.selected
  · exact h.fit.sent h.idle
  · intro hk hc
    obtain ⟨p1, p2⟩ := h.peerIdle hsh hk hc
    refine ⟨p1, fun hp => .inl ⟨hsh, ?_⟩⟩
    rw [spot_next (run' := { run with upc := run.upc + 1 }) h.next rfl rfl]; exact p2 hp

theorem Before.guardExit {s : State} {run : Run} (h : Before s run .guardExit) :
    Keeps (primStep run s .guardExit) := by
  obtain ⟨hg, hs⟩ := h.here
  have hsh := h.shifter hs
  have hd := h.fit.depth
  have hlt : 0 < s.guardDepth.toNat := by rw [hd, hg]; decide
  simp only [primStep, Machine.guardExit, hlt, if_true]
  rw [andThen_of_none _ (by exact h.fault)]
  refine Keeps.next (BlockInv.of_run s.cfg.mode rfl rfl h.idle h.cmp (h.fit.after h.next rfl rfl rfl rfl h.idle ?_ ?_ ?_ ?_ ?_ ?_)
    (fun hn => absurd hsh hn) ?_) h.fault
  · exact h.fit.i
  · exact h.fit.r
  · have : s.guardDepth = 1 := depth_one (hd.trans hg)
    show (s.guardDepth - 1).toNat = _
    rw [this]; simp [Spot.after, hg]
  · intro hm; simp [Spot.after, hg] at hm
  · exact h.selected
  · exact h.fit.sent h.idle
  · intro hk hc
    obtain ⟨p1, p2⟩ := h.peerIdle hsh hk hc
    refine ⟨p1, fun hp => .inl ⟨hsh, ?_⟩⟩
    rw [spot_next (run' := { run with upc := run.upc + 1 }) h.next rfl rfl]; exact p2 hp

theorem Before.selAssert {s : State} {run : Run} (h : Before s run .selAssert) :
    Keeps (primStep run s .selAssert) := by
  have hs : (run.spot s.cfg.mode).sent = false := h.here.1
  have hsh := h.shifter hs
  simp only [primStep, advance]
  refine Keeps.next (BlockInv.of_run s.cfg.mode (by simp) rfl (by simpa using h.idle) (by simpa using h.cmp)
    (h.fit.after h.next rfl rfl rfl (by simp) (by simpa using h.idle) ?_ ?_ ?_ ?_ ?_ ?_)
    (fun _ => by simp) ?_) (by simpa using h.fault)
  · exact h.fit.i
  · exact h.fit.r
  · simpa [Spot.after] using h.fit.depth
  · simpa [Spot.after] using h.fit.masked
  · simp [Spot.after]
  · simpa [Spot.after] using h.fit.sent h.idle
  · intro hk _
    have hp : (Machine.selAssert s).peer.ph = .cmd := onSel_true_ph (by simpa using hk)
    refine ⟨by simp only [hp]; simp, fun _ => .inl ⟨by simpa using hsh, ?_⟩⟩
    rw [spot_next (run' := { run with upc := run.upc + 1 }) h.next rfl rfl]; rfl

theorem Before.selDeassert {s : State} {run : Run} (h : Before s run .selDeassert) :
    Keeps (primStep run s .selDeassert) := by
  have hs : (run.spot s.cfg.mode).sent = false := h.here.1
  have hsh := h.shifter hs
  simp only [primStep, advance]
  refine Keeps.next (BlockInv.of_run s.cfg.mode (by simp) rfl (by simpa using h.idle) (by simpa using h.cmp)
    (h.fit.after h.next rfl rfl rfl (by simp) (by simpa using h.idle) ?_ ?_ ?_ ?_ ?_ ?_)
    (fun hn => absurd (by simpa using hsh) hn) ?_) (by simpa using h.fault)
  · exact h.fit.i
  · exact h.fit.r
  · simpa [Spot.after] using h.fit.depth
  · simpa [Spot.after] using h.fit.masked
  · simp [Spot.after]
  · simpa [Spot.after] using h.fit.sent h.idle
  · intro _ hc; simp at hc

theorem Before.settle {s : State} {run : Run} (h : Before s run .settle) : Keeps (primStep run s .settle) := by
  simp only [primStep, advance]
  refine Keeps.next (BlockInv.of_run s.cfg.mode rfl rfl h.idle h.cmp (h.fit.after h.next rfl rfl rfl rfl h.idle ?_ ?_ ?_ ?_ ?_ ?_)
    h.inv.selected ?_) h.fault
  · exact h.fit.i
  · exact h.fit.r
  · exact h.fit.depth
  · exact h.fit.masked
  · exact h.selected
  · exact h.fit.sent h.idle
  · intro hk hc
    obtain ⟨p1, p2⟩ := h.inv.peer hk hc
    refine ⟨p1, fun hp => ?_⟩
    rcases p2 hp with ⟨a, r, hr, b⟩ | b
    · rw [h.seq] at hr; cases hr
      exact .inl ⟨a, by rw [spot_next (run' := { run with upc := run.upc + 1 }) h.next rfl rfl]; exact b⟩
    · exact .inr b

/-- A `SEND` of a byte that the place allows, with the run as it is for this step. -/
theorem Before.sendByte {s : State} {run run1 : Run} {x : Prim} {src : Source} {b : Byte} {n : Nat} (h : Before s run x)
    (hs : (run.spot s.cfg.mode).sent = false) (hc : (run.spot s.cfg.mode).selected = true)
    (hb : (run.spot s.cfg.mode).fresh = true → commandPhase b ≠ none) (hr : x.responds = false)
    (h1 : run1.cmd = run.cmd ∧ run1.upc = run.upc ∧ run1.r = run.r) (hi : run1.i.toNat = n)
    (ha : (run.spot s.cfg.mode).after x = { run.spot s.cfg.mode with sent := true, fresh := false, index := n })
    (hv : ∀ k, withSource src run1 s k = k b) : Keeps (sendFrom src run1 s) := by
  have hsh := h.shifter hs
  rw [sendFrom_idle h.fault hsh hv]
  refine Keeps.next (BlockInv.of_run (run := run1.next) s.cfg.mode rfl rfl h.idle h.cmp
    (h.fit.after h.next hr h1.1 (by rw [Run.next_upc, h1.2.1]) rfl h.idle ?_ ?_ ?_ ?_ ?_ ?_)
    (fun _ => by exact h.selected.trans hc) ?_) h.fault
  · rw [ha]; exact hi
  · rw [ha, Run.next_r, h1.2.2]; exact h.fit.r
  · rw [ha]; exact h.fit.depth
  · rw [ha]; exact h.fit.masked
  · rw [ha]; exact h.selected
  · rw [ha]; simp [State.at]
  · intro hk hcs
    obtain ⟨p1, p2⟩ := h.peerIdle hsh hk hcs
    exact ⟨p1, fun hp => .inr ⟨b, rfl, hb (p2 hp)⟩⟩

theorem Before.bufferAddr_lt {s : State} {run : Run} {x : Prim} (h : Before s run x)
    (hu : usesBuffer run.cmd.op = true) {n : Nat} (hr : n < run.cmd.len.toNat) :
    run.cmd.buf + n < s.cfg.hostSize := by
  have h1 := h.fit.buffer hu
  omega

theorem Before.send {s : State} {run : Run} {src : Source} (h : Before s run (.send src)) :
    Keeps (primStep run s (.send src)) := by
  have hh := h.here
  cases src with
  | byte b => exact h.sendByte hh.1 hh.2.1 (fun hf => commandPhase_of_opensWith (hh.2.2 hf)) rfl ⟨rfl, rfl, rfl⟩ h.fit.i rfl (fun _ => rfl)
  | hostByte => exact hh.elim
  | merged =>
    obtain ⟨r, hr⟩ := Option.ne_none_iff_exists'.1 (h.fit.r hh.2.2.2)
    exact h.sendByte (b := fieldMerge r run.cmd.mask run.cmd.pos run.cmd.value) hh.1 hh.2.1
      (fun hf => by rw [hh.2.2.1] at hf; cases hf) rfl ⟨rfl, rfl, rfl⟩ h.fit.i rfl
      (fun k => by simp only [withSource, hr])

theorem Before.sendRound {s : State} {run : Run} {k : Nat} {src : Source} (h : Before s run (.sendRound k src)) :
    Keeps (primStep run s (.sendRound k src)) := by
  obtain ⟨hs, hc, hf, hb, hk, hm⟩ := h.here
  have hik : (run.atRound k).i.toNat = k := atRound_i (by have := run.cmd.len.isLt; omega)
  have key : ∀ b, (∀ f, withSource src (run.atRound k) s f = f b) → Keeps (sendFrom src (run.atRound k) s) :=
    fun b hv => h.sendByte hs hc (fun hfr => by rw [hf] at hfr; cases hfr) rfl ⟨rfl, rfl, rfl⟩ hik rfl hv
  show Keeps (sendFrom src (run.atRound k) s)
  cases src with
  | byte b => exact key b (fun _ => rfl)
  | hostByte =>
    have hlt := h.bufferAddr_lt hb hk
    have ha : bufferAddr (run.atRound k).cmd.buf (run.atRound k).i = run.cmd.buf + k := by
      unfold bufferAddr; rw [hik]; rfl
    exact key (Memory.read s.mem (run.cmd.buf + k)) (fun f => by
      simp [withSource, withMemRead, inHostMemory, ha, hlt])
  | merged => exact absurd rfl hm

/-- A `WAIT` that goes on: the sequencer has stored the byte somewhere the invariant does not see, and moves on. -/
theorem Before.waited {s : State} {run run' : Run} {x : Prim} {rx : Byte} (h : Before s run x) (m : List Host.Cell)
    (hsh : s.shifter = .done rx) (hr : x.responds = false) (hc : run'.cmd = run.cmd) (hu : run'.upc = run.upc + 1)
    (hi : run'.i.toNat = ((run.spot s.cfg.mode).after x).index)
    (hl : ((run.spot s.cfg.mode).after x).hasLocal = true → run'.r ≠ none)
    (hg : ((run.spot s.cfg.mode).after x).guards = (run.spot s.cfg.mode).guards)
    (hm : ((run.spot s.cfg.mode).after x).masked = (run.spot s.cfg.mode).masked)
    (hsel : ((run.spot s.cfg.mode).after x).selected = (run.spot s.cfg.mode).selected)
    (hsent : ((run.spot s.cfg.mode).after x).sent = false) :
    Keeps (.next { s with shifter := .idle, mem := m, seq := some run' }) := by
  refine Keeps.next (BlockInv.of_run (run := run') s.cfg.mode rfl rfl h.idle h.cmp
    (h.fit.after h.next hr hc hu rfl h.idle hi hl ?_ ?_ ?_ ?_) (fun hn => absurd rfl hn) ?_) h.fault
  · rw [hg]; exact h.fit.depth
  · rw [hm]; exact h.fit.masked
  · rw [hsel]; exact h.selected
  · rw [hsent]; simp
  · intro hk hcs
    obtain ⟨p1, p2⟩ := h.inv.peerDone hsh hk hcs
    exact ⟨p1, fun hp => absurd hp p2⟩

theorem Before.held {s : State} {run : Run} {x : Prim} (h : Before s run x) : Keeps (.next s) :=
  Keeps.next h.inv h.fault

theorem Before.wait {s : State} {run : Run} {dst : Sink} (h : Before s run (.wait dst)) :
    Keeps (primStep run s (.wait dst)) := by
  simp only [primStep, waitStep]
  split
  · rename_i rx hsh
    cases dst with
    | discard => exact h.waited s.mem hsh rfl rfl rfl h.fit.i h.fit.r rfl rfl rfl rfl
    | toLocal => exact h.waited s.mem hsh rfl rfl rfl h.fit.i (fun _ => by simp) rfl rfl rfl rfl
    | hostByte =>
      have hlt := h.bufferAddr_lt h.here.2.1 h.here.2.2
      have ha : bufferAddr run.cmd.buf run.i < s.cfg.hostSize := by unfold bufferAddr; rw [h.fit.i]; exact hlt
      simp only [withSink, memWrite, inHostMemory, ha, decide_true, if_true]
      rw [andThen_of_none _ (by exact h.fault)]
      exact h.waited _ hsh rfl rfl rfl h.fit.i h.fit.r rfl rfl rfl rfl
  · exact h.held

theorem Before.respond {s : State} {run : Run} {v : Returns} (h : Before s run (.respond v)) :
    Keeps (primStep run s (.respond v)) := by
  obtain ⟨hs, hc, hg, hl⟩ := h.here
  have key : ∀ w, Keeps (.next (Machine.respond run.cmd.op w s)) := fun w =>
    Keeps.next (BlockInv.of_respond rfl h.idle h.cmp (depth_one (h.fit.depth.trans hg)) (h.selected.trans hc)
      (h.shifter hs)) h.fault
  simp only [primStep, respondStep]
  cases v with
  | nothing => exact key _
  | fromLocal =>
    obtain ⟨r, hr⟩ := Option.ne_none_iff_exists'.1 (h.fit.r (hl (by simp)))
    rw [hr]; exact key _
  | field =>
    obtain ⟨r, hr⟩ := Option.ne_none_iff_exists'.1 (h.fit.r (hl (by simp)))
    rw [hr]; exact key _

theorem Before.asyncSelect {s : State} {run : Run} (h : Before s run .asyncSelect) :
    Keeps (primStep run s .asyncSelect) := by
  have hs : (run.spot s.cfg.mode).sent = false := h.here.2.1
  have hsh := h.shifter hs
  simp only [primStep, advance]
  refine Keeps.next (BlockInv.of_run s.cfg.mode (by simp) rfl (by simpa using h.idle) (by simpa using h.cmp)
    (h.fit.after h.next rfl rfl rfl (by simp) (by simpa using h.idle) ?_ ?_ ?_ ?_ ?_ ?_)
    (fun _ => by simp) ?_) (by simpa using h.fault)
  · exact h.fit.i
  · exact h.fit.r
  · simpa [Spot.after] using h.fit.depth
  · simp
  · simp [Spot.after]
  · simpa [Spot.after] using h.fit.sent h.idle
  · intro hk _
    have hp : (Machine.selAssert { s with actIrqEn := false }).peer.ph = .cmd := onSel_true_ph (by simpa using hk)
    refine ⟨by simp only [hp]; simp, fun _ => .inl ⟨by simpa using hsh, ?_⟩⟩
    rw [spot_next (run' := { run with upc := run.upc + 1 }) h.next rfl rfl]; rfl

theorem Before.asyncArm {s : State} {run : Run} (h : Before s run .asyncArm) : Keeps (primStep run s .asyncArm) := by
  obtain ⟨hm, hs, hc, hg, hmask, hu⟩ := h.here
  have hcs : s.cs = true := h.selected.trans hc
  have hsh : s.shifter ≠ .idle := fun hi => by rw [(h.fit.sent h.idle).1 hi] at hs; cases hs
  have hbuf := h.fit.buffer hu
  simp only [primStep]
  refine Keeps.next ⟨?_, ?_, ?_, ?_, ?_, ?_, ?_, ?_⟩ h.fault
  · intro hb
    have hb' : s.cfg.mode = .blocking := hb
    rw [hm] at hb'; cases hb'
  · exact ⟨fun _ => rfl, fun _ => rfl⟩
  · exact fun _ => ⟨h.fit.masked hmask, hcs, hsh⟩
  · intro _ hne
    show run.cmd.buf + run.cmd.len.toNat ≤ s.cfg.hostSize
    have h0 : run.cmd.len.toNat ≠ 0 := fun h0 => hne (BitVec.eq_of_toNat_eq h0)
    omega
  · exact fun _ => ⟨depth_one (h.fit.depth.trans hg), fun hi => by cases hi⟩
  · intro r hr; cases hr
  · exact fun _ => hcs
  · intro hk _
    obtain ⟨p1, p2⟩ := h.inv.peer hk hcs
    refine ⟨p1, fun hp => ?_⟩
    rcases p2 hp with ⟨a, _⟩ | b
    · exact absurd a hsh
    · exact .inr b

theorem Before.control {s : State} {run : Run} {x : Prim} (h : Before s run x) (e : Bool)
    (w : Option Byte) (hs : (run.spot s.cfg.mode).sent = false ∧ (run.spot s.cfg.mode).selected = false ∧
      (run.spot s.cfg.mode).guards = 0) : Keeps (.next (Machine.respond run.cmd.op w { s with actIrqEn := e })) :=
  Keeps.next (BlockInv.of_respond rfl h.idle h.cmp (depth_one (h.fit.depth.trans hs.2.2)) (h.selected.trans hs.2.1)
    (h.shifter hs.1)) h.fault

/-- `STATUS_READ` while an asynchronous write runs. -/
theorem keeps_statusRead {s : State} {run : Run} (h : BlockInv s) (hf : s.fault = none) (hs : s.seq = some run)
    (hg : (run.spot s.cfg.mode).guards = 0) (hw : s.asyncState = .writing) (w : Option Byte) :
    Keeps (.next (respond run.cmd.op w s)) := by
  obtain ⟨h1, h2, h3, h4, h5, h6, h7, h8⟩ := h
  refine Keeps.next ⟨h1, h2, h3, h4, fun _ => ⟨?_, fun hi => ?_⟩, fun r hr => (by cases hr), h7, ?_⟩ hf
  · exact depth_one ((h6 run hs).depth.trans hg)
  · have hi' : s.asyncState = .idle := hi
    rw [hw] at hi'; cases hi'
  · intro hk hc
    obtain ⟨p1, p2⟩ := h8 hk hc
    refine ⟨p1, fun hp => ?_⟩
    rcases p2 hp with ⟨a, _⟩ | b
    · exact absurd a (h3 hw).2.2
    · exact .inr b

/-- The `SEQ` step keeps the invariant. -/
theorem keeps_seqStep {s : State} (h : BlockInv s) (hf : s.fault = none) : Keeps (seqStep s) := by
  obtain hs | ⟨run, hs⟩ : s.seq = none ∨ ∃ run, s.seq = some run := by cases s.seq <;> simp
  · rw [seqStep_idle hs]; exact Keeps.next h hf
  · rw [seqStep_run hs]
    have R := h.run run hs
    obtain ⟨x, hx⟩ : ∃ x, nextPrim s.cfg.mode run = some x := ⟨_, List.getElem?_eq_getElem R.upc⟩
    have hh := (fits_nextPrim hx).1
    rw [hx]
    show Keeps (primStep run s x)
    cases ha : s.asyncState with
    | writing =>
      obtain rfl := nextPrim_status hx (R.status ha)
      exact keeps_statusRead h hf hs hh.2.2 ha _
    | idle =>
      have B : Before s run x := ⟨hs, hf, h, R, hx, ha, hh⟩
      cases x with
      | guardEnter => exact B.guardEnter
      | guardExit => exact B.guardExit
      | selAssert => exact B.selAssert
      | selDeassert => exact B.selDeassert
      | settle => exact B.settle
      | send src => exact B.send
      | wait dst => exact B.wait
      | sendRound k src => exact B.sendRound
      | respond v => exact B.respond
      | asyncSelect => exact B.asyncSelect
      | asyncArm => exact B.asyncArm
      | ctrlWrite => exact B.control _ _ hh
      | ctrlRead => exact B.control s.actIrqEn _ hh
      | statusRead => exact B.control s.actIrqEn _ hh

end Sys2Proof.Machine
end

