-- ==== Sys2Proof/Laws/Keeps.lean ====
section
/-! SUPPORT. The controller's invariant, for the moves of the other agents, and for a command run whole. -/

namespace Sys2Proof.Machine

/-- A command byte never leads back to the phase that awaits one, or to the phase of an unselected peer. -/
theorem commandPhase_ne {tx : Byte} {ph : Phase} (h : commandPhase tx = some ph) : ph ≠ .idle ∧ ph ≠ .cmd := by
  unfold commandPhase at h
  split at h <;> first | (cases h; simp) | cases h

/-- The reference peer's answer to a byte leaves it selected and past its command byte (20_memory.md R88–R96). -/
theorem exchange_answer {p : Params} {peer q : Peer} {tx d rx : Byte} (h : exchange p peer tx d = .answer rx q) :
    peer.ph ≠ .idle ∧ q.ph ≠ .idle ∧ q.ph ≠ .cmd := by
  unfold exchange at h
  split at h
  · cases h
  · rename_i hp
    split at h
    · rename_i ph hc; cases h; exact ⟨by simp [hp], commandPhase_ne hc⟩
    · cases h
  all_goals
    rename_i hp
    first
    | (cases h; simp [hp])
    | (split at h
       · cases h; simp [hp]
       · cases h)

/-- Only an unselected reference peer has no rule for a byte; only one that awaits a command byte finds it reserved. -/
theorem exchange_stops {p : Params} {peer : Peer} {tx d : Byte} :
    (exchange p peer tx d = .unselected → peer.ph = .idle) ∧
      ∀ code info, exchange p peer tx d = .raises code info →
        (peer.ph = .cmd ∧ commandPhase tx = none) ∨ code = .peerRange := by
  unfold exchange
  constructor
  · intro h
    split at h
    · assumption
    · split at h <;> cases h
    all_goals first | (cases h) | (split at h <;> cases h)
  · intro code info h
    split at h
    · cases h
    · rename_i hp
      split at h
      · cases h
      · rename_i hc; exact .inl ⟨hp, hc⟩
    all_goals first | (cases h) | (split at h <;> first | (cases h; done) | (cases h; exact .inr rfl))

/-- The `BUS` step keeps the invariant. -/
theorem keeps_busStep {s : State} (h : BlockInv s) (hf : s.fault = none) : Keeps (busStep s) := by
  obtain hs | ⟨tx, hs⟩ : (∀ tx, s.shifter ≠ .busy tx) ∨ ∃ tx, s.shifter = .busy tx := by cases s.shifter <;> simp
  · rw [busStep_notBusy hs]; exact Keeps.next h hf
  · have hcs : s.cs = true := h.selected (by rw [hs]; simp)
    have done : ∀ rx q, (s.cfg.peerKind = .reference → q.ph ≠ .idle ∧ q.ph ≠ .cmd) →
        Keeps (.next (byteDone tx rx q s)) := by
      intro rx q hq
      obtain ⟨h1, h2, h3, h4, h5, h6, h7, h8⟩ := h
      refine Keeps.next ⟨h1, h2, fun hw => ⟨(h3 hw).1, hcs, by simp [byteDone]⟩, h4, fun hn => ⟨(h5 hn).1, fun hi => ?_⟩,
        fun run hr => ?_, fun _ => hcs, fun hk _ => ⟨(hq hk).1, fun hp => absurd hp (hq hk).2⟩⟩ hf
      · have := ((h5 hn).2 hi).2
        rw [hs] at this; cases this
      · obtain ⟨a, b, c, d, e, f, g, i, j⟩ := h6 run hr
        refine ⟨a, b, c, d, e, f, g, fun hi => ?_, j⟩
        have := i hi
        rw [hs] at this
        simpa [byteDone] using this
    obtain hk | hk : s.cfg.peerKind = .unconstrained ∨ s.cfg.peerKind = .reference := by
      cases s.cfg.peerKind <;> simp
    · rw [busStep_unconstrained hs hk]
      exact done _ _ (fun hr => by rw [hk] at hr; cases hr)
    · obtain ⟨p1, p2⟩ := h.peer hk hcs
      rw [busStep_reference hs hk]
      cases he : exchange s.cfg s.peer tx (Config.freeByte s.draws) with
      | answer rx q => exact done rx q (fun _ => (exchange_answer he).2)
      | raises code info =>
        have hcode : code = .peerRange := by
          rcases (exchange_stops.2 code info he) with ⟨hp, hc⟩ | hc
          · rcases p2 hp with ⟨hi, _⟩ | ⟨tx', ht, hn⟩
            · rw [hs] at hi; cases hi
            · rw [hs] at ht; cases ht; exact absurd hc hn
          · exact hc
        refine ⟨_, rfl, h.frame s.trace s.resp _ s.trxIrq s.mem s.prog s.sched s.draws s.guardSaved, fun f hf' => ?_⟩
        cases hf'
        simp [hcode]
      | unselected => exact absurd (exchange_stops.1 he) p1

/-- What an issue check that finds a fault records is the fault of a failed check (10_state.md R57). -/
theorem issueFault_good {c : Command} {s : State} {f : FaultRecord} (h : issueFault c s = some f) :
    f.code ≠ .guardDepth ∧ f.code ≠ .shifterBusy ∧ f.code ≠ .reservedCmd := by
  unfold issueFault at h
  repeat' split at h
  all_goals cases h
  all_goals simp

/-- What an issue check that finds no fault says (10_state.md R57). -/
theorem issueFault_none {c : Command} {s : State} (h : issueFault c s = none) :
    s.seq = none ∧ legalOp c.op = true ∧ (s.asyncState = .writing → c.op = opStatusRead) ∧
      (usesAddr c.op = true → addrInRange c.addr = true) ∧
      (usesBuffer c.op = true → c.len ≠ 0 ∧ bufferInRange s.cfg c.buf c.len = true) := by
  unfold issueFault at h
  split at h
  · cases h
  rename_i h1
  split at h
  · cases h
  rename_i h2
  split at h
  · cases h
  rename_i h3
  split at h
  · cases h
  rename_i h4
  split at h
  · cases h
  rename_i h5
  split at h
  · cases h
  rename_i h6
  split at h
  · cases h
  rename_i h7
  refine ⟨by simpa using h1, by simpa using h2, fun hw => ?_, fun hu => ?_, fun hu => ⟨fun hl => h6 ⟨hu, hl⟩, ?_⟩⟩
  · by_contra hne; exact h4 ⟨hw, hne⟩
  · by_contra hne; exact h5 ⟨hu, by simpa using hne⟩
  · by_contra hne; exact h7 ⟨hu, by simpa using hne⟩

/-- A legal op has a body (30_encoding.md R131). -/
theorem bodyOf_length_pos (m : Mode) {c : Command} (h : legalOp c.op = true) : 0 < (bodyOf m c).length := by
  have hop : ∀ op : OpCode, legalOp op = true → op = 0x1#4 ∨ op = 0x2#4 ∨ op = 0x3#4 ∨ op = 0x4#4 ∨ op = 0x5#4 ∨
      op = 0x6#4 ∨ op = 0x7#4 ∨ op = 0x8#4 ∨ op = 0x9#4 ∨ op = 0xA#4 ∨ op = 0xB#4 := by decide
  unfold bodyOf decodeRecord
  rcases hop c.op h with h | h | h | h | h | h | h | h | h | h | h <;> cases m <;>
    simp [h, body, regWriteBody, regReadBody, frameWriteBody, asyncStartBody, frameReadBody, sramWriteBody, sramReadBody,
      bitfieldReadBody, bitfieldWriteBody, regWriteTransaction, regReadTransaction, xfer]

/-- The issue step keeps the invariant. -/
theorem keeps_issue {s : State} (c : Command) (h : BlockInv s) (hf : s.fault = none) : Keeps (issue c s) := by
  unfold issue
  cases hc : issueFault c s with
  | some f =>
    refine ⟨_, rfl, h.frame s.trace s.resp _ s.trxIrq s.mem s.prog s.sched s.draws s.guardSaved, fun g hg => ?_⟩
    cases hg
    exact issueFault_good hc
  | none =>
    obtain ⟨i1, i2, i3, _, i5⟩ := issueFault_none hc
    obtain ⟨h1, h2, h3, h4, h5, h6, h7, h8⟩ := h
    obtain ⟨hd, hi⟩ := h5 i1
    have hspot : ∀ m, (⟨c, 0, 0, none⟩ : Run).spot m = Spot.start := fun m => by simp [Run.spot]
    refine Keeps.next ⟨h1, h2, h3, h4, fun hn => (by cases hn), fun run hr => ?_, h7, fun hk hcs => ?_⟩ hf
    · cases hr
      refine ⟨bodyOf_length_pos _ i2, ?_, ?_, ?_, ?_, fun hu => ?_, fun hi' => ?_, fun hi' => ?_, i3⟩
      · rw [hspot]; rfl
      · rw [hspot]; intro hl; cases hl
      · rw [hspot]; show s.guardDepth.toNat = _; rw [hd]; rfl
      · rw [hspot]; intro hl; cases hl
      · have := (i5 hu).2; simpa [bufferInRange] using this
      · rw [hspot]; exact (hi hi').1
      · rw [hspot]; exact ⟨fun _ => rfl, fun _ => (hi hi').2⟩
    · obtain ⟨p1, p2⟩ := h8 hk hcs
      refine ⟨p1, fun hp => ?_⟩
      rcases p2 hp with ⟨_, r, hr, _⟩ | hb
      · rw [i1] at hr; cases hr
      · exact .inr hb

/-- The completion event keeps the invariant. -/
theorem keeps_completionStep {s : State} (h : BlockInv s) (hf : s.fault = none) : Keeps (completionStep s) := by
  unfold completionStep
  split
  · rename_i he
    simp only [completionEnabled, Bool.and_eq_true, decide_eq_true_eq] at he
    obtain ⟨⟨hm, hc⟩, hp⟩ := he
    have hw := h.cmpIrq.1 hc
    obtain ⟨w1, w2, w3⟩ := h.writing hw
    obtain ⟨rx, hrx⟩ : ∃ rx, s.shifter = .done rx := by
      unfold completionPending at hp
      split at hp
      · exact ⟨_, by assumption⟩
      · cases hp
    have hstatus : ∀ run, s.seq = some run → (run.spot s.cfg.mode) = Spot.start := by
      intro run hr
      have R := h.run run hr
      have hb : bodyOf s.cfg.mode run.cmd = [.statusRead] := by
        simp [bodyOf, decodeRecord, R.status hw, opStatusRead, body]
      have hu := R.upc
      rw [hb] at hu
      have hu0 : run.upc = 0 := by simpa using hu
      simp [Run.spot, hu0]
    split
    · rename_i hr
      refine Keeps.next ⟨fun _ => rfl, ?_, ?_, ?_, fun hn => ⟨?_, fun _ => ⟨?_, ?_⟩⟩, fun run hr => ?_,
        fun hn => ?_, fun _ hcs => ?_⟩ ?_
      · simp [completionFinish]
      · intro hi; cases hi
      · intro hi; cases hi
      · have hn' : s.seq = none := by simpa [completionFinish] using hn
        simpa [completionFinish] using (h.idlePort hn').1
      · simp [completionFinish]
      · simp [completionFinish]
      · have hr' : s.seq = some run := by simpa [completionFinish] using hr
        obtain ⟨a, b, c, d, e, f, g, i, j⟩ := h.run run hr'
        have hsp := hstatus run hr'
        have hcfg : (completionFinish { s with shifter := .idle }).cfg = s.cfg := by simp [completionFinish]
        refine ⟨?_, ?_, ?_, ?_, ?_, ?_, ?_, ?_, ?_⟩
        · rw [hcfg]; exact a
        · rw [hcfg]; exact b
        · rw [hcfg]; exact c
        · rw [hcfg]; simpa [completionFinish] using d
        · rw [hcfg, hsp]; intro hl; cases hl
        · rw [hcfg]; exact f
        · rw [hcfg, hsp]; intro _; simp [completionFinish, Spot.start]
        · rw [hcfg, hsp]; intro _; simp [completionFinish, Spot.start]
        · intro hi; cases hi
      · simp [completionFinish] at hn
      · simp [completionFinish] at hcs
      · simpa [completionFinish] using hf
    · rename_i hr
      have hcur := h.cursor hw hr
      have h0 : s.asyncRemaining.toNat ≠ 0 := fun h0 => hr (BitVec.eq_of_toNat_eq h0)
      have hlt : s.asyncCursor < s.cfg.hostSize := by omega
      simp only [completionPush, withMemRead, inHostMemory, hlt, decide_true, if_true, send]
      rw [andThen_of_none _ (by exact hf)]
      refine Keeps.next ⟨h.blocking, h.cmpIrq, fun _ => ⟨w1, w2, by simp⟩, fun _ hne => ?_,
        fun hn => ⟨(h.idlePort hn).1, fun hi => ?_⟩, fun run hr' => ?_, fun _ => w2, fun hk _ => ?_⟩ hf
      · have hne' : s.asyncRemaining - 1 ≠ 0 := hne
        show nextCursor { s with shifter := .idle } + (s.asyncRemaining - 1).toNat ≤ s.cfg.hostSize
        have e1 : (s.asyncRemaining - 1).toNat = s.asyncRemaining.toNat - 1 := by
          have := s.asyncRemaining.isLt
          rw [BitVec.toNat_sub]; simp; omega
        have e2 : s.asyncRemaining.toNat - 1 ≠ 0 := by
          rw [← e1]; exact fun h0 => hne' (BitVec.eq_of_toNat_eq h0)
        have e3 : nextCursor { s with shifter := .idle } = s.asyncCursor + 1 := by
          show (s.asyncCursor + 1) % s.cfg.hostSize = _
          rw [Nat.mod_eq_of_lt]; omega
        rw [e1, e3]; omega
      · have hi' : s.asyncState = .idle := hi
        rw [hw] at hi'; cases hi'
      · obtain ⟨a, b, c, d, e, f, g, i, j⟩ := h.run run hr'
        refine ⟨a, b, c, d, e, f, fun hi => ?_, fun hi => ?_, j⟩
        all_goals
          have hi' : s.asyncState = .idle := hi
          rw [hw] at hi'; cases hi'
      · obtain ⟨q1, q2⟩ := h.peerDone hrx hk w2
        exact ⟨q1, fun hp => absurd hp q2⟩
  · exact Keeps.next h hf

theorem keeps_forward {s : State} (h : BlockInv s) (hf : s.fault = none) : Keeps (forward s) := by
  unfold forward
  split
  · exact keeps_busStep h hf
  · exact keeps_seqStep h hf

theorem keeps_drive (n : Nat) {s : State} (h : BlockInv s) (hg : GoodFault s) : Keeps (drive n s) := by
  induction n generalizing s with
  | zero => exact ⟨s, rfl, h, hg⟩
  | succ n ih =>
    unfold drive
    split
    · exact ⟨s, rfl, h, hg⟩
    · rename_i hc
      have hf : s.fault = none := by
        simp only [Bool.or_eq_true, not_or] at hc
        simpa using hc.1
      obtain ⟨t, ht, h1, h2⟩ := keeps_forward h hf
      rw [ht]; exact ih h1 h2

/-- What keeps the invariant, then keeps it from there on, keeps it. -/
theorem Keeps.andThen {r : Result} {k : State → Result} (h : Keeps r)
    (hk : ∀ t, BlockInv t → t.fault = none → Keeps (k t)) : Keeps (Machine.andThen r k) := by
  obtain ⟨t, rfl, h1, h2⟩ := h
  cases hf : t.fault with
  | none => rw [andThen_of_none _ hf]; exact hk t h1 hf
  | some f => simp only [Machine.andThen, hf]; exact ⟨t, rfl, h1, h2⟩

theorem keeps_runCommand {s : State} (c : Command) (h : BlockInv s) (hf : s.fault = none) : Keeps (runCommand c s) := by
  rw [runCommand, whileRunning_of_none _ hf]
  exact (keeps_issue c h hf).andThen fun t ht htf => keeps_drive _ ht (goodFault_none htf)

theorem keeps_completeCommandByte {s : State} (tx : Byte) (h : BlockInv s) (hf : s.fault = none) :
    Keeps (completeCommandByte tx s) := by
  rw [completeCommandByte, whileRunning_of_none _ hf]
  split
  · exact keeps_busStep h hf
  · exact Keeps.next h hf

/-- Every instruction keeps the invariant. -/
theorem keeps_exec {s : State} (i : Instr) (h : BlockInv s) (hf : s.fault = none) : Keeps (exec i s) := by
  cases i <;> first | exact keeps_runCommand _ h hf | exact keeps_completeCommandByte _ h hf

end Sys2Proof.Machine
end

