-- ==== Sys2Proof/Laws/PerInstr.lean ====
section
/-! SUPPORT. Per instruction: its encoding has the fixed bits of its row of spec/opcode_table.json. -/

namespace Sys2Proof.Laws.TableMatch

/-- The bits a row fixes: `match` and `mask` of spec/opcode_table.json. -/
structure Row where
  value : Nat
  mask  : Nat
  deriving DecidableEq, Repr

/-- The row of each instruction, as spec/opcode_table.json writes it. -/
def row : Instr → Row
  | .busRegWrite _ => ⟨0xC0, 0xC0⟩
  | .busRegRead _ => ⟨0x80, 0xC0⟩
  | .busFrameWrite => ⟨0x60, 0xFF⟩
  | .busFrameRead => ⟨0x20, 0xFF⟩
  | .busSramWrite => ⟨0x40, 0xFF⟩
  | .busSramRead => ⟨0x00, 0xFF⟩
  | .regWrite _ _ => ⟨0x1, 0xF⟩
  | .regRead _ => ⟨0x2, 0xF⟩
  | .frameWriteBlocking _ _ => ⟨0x3, 0xF⟩
  | .frameWriteNonblocking _ _ => ⟨0x3, 0xF⟩
  | .frameRead _ _ => ⟨0x4, 0xF⟩
  | .sramWrite _ _ _ => ⟨0x5, 0xF⟩
  | .sramRead _ _ _ => ⟨0x6, 0xF⟩
  | .bitfieldRead _ _ _ => ⟨0x7, 0xF⟩
  | .bitfieldWrite _ _ _ _ => ⟨0x8, 0xF⟩
  | .ctrlWrite _ => ⟨0x9, 0xF⟩
  | .ctrlRead => ⟨0xA, 0xF⟩
  | .statusRead => ⟨0xB, 0xF⟩

/-- The bits of a code that a row of the table shows: the byte, or the record's op code. -/
def codeBits : Code → Nat
  | .byte b => b.toNat
  | .record c => c.op.toNat

/-- The instruction's encoding has its row's fixed bits. -/
def Statement (i : Instr) : Prop := codeBits (encode i) &&& (row i).mask = (row i).value

theorem busRegWrite (addr : RegAddr) : Statement (.busRegWrite addr) := by
  revert addr; unfold Statement; decide

theorem busRegRead (addr : RegAddr) : Statement (.busRegRead addr) := by
  revert addr; unfold Statement; decide

theorem busFrameWrite : Statement .busFrameWrite := rfl
theorem busFrameRead : Statement .busFrameRead := rfl
theorem busSramWrite : Statement .busSramWrite := rfl
theorem busSramRead : Statement .busSramRead := rfl
theorem regWrite (addr value : Byte) : Statement (.regWrite addr value) := by
  simp [Statement, encode, codeBits, row, Command.regWrite]
theorem regRead (addr : Byte) : Statement (.regRead addr) := by
  simp [Statement, encode, codeBits, row, Command.regRead]
theorem frameWriteBlocking (buf : Nat) (len : Byte) : Statement (.frameWriteBlocking buf len) := by
  simp [Statement, encode, codeBits, row, Command.frameWrite]
theorem frameWriteNonblocking (buf : Nat) (len : Byte) : Statement (.frameWriteNonblocking buf len) := by
  simp [Statement, encode, codeBits, row, Command.frameWrite]
theorem frameRead (buf : Nat) (len : Byte) : Statement (.frameRead buf len) := by
  simp [Statement, encode, codeBits, row, Command.frameRead]
theorem sramWrite (offset : Byte) (buf : Nat) (len : Byte) : Statement (.sramWrite offset buf len) := by
  simp [Statement, encode, codeBits, row, Command.sramWrite]
theorem sramRead (offset : Byte) (buf : Nat) (len : Byte) : Statement (.sramRead offset buf len) := by
  simp [Statement, encode, codeBits, row, Command.sramRead]
theorem bitfieldRead (addr mask : Byte) (pos : BitVec 3) : Statement (.bitfieldRead addr mask pos) := by
  simp [Statement, encode, codeBits, row, Command.bitfieldRead]
theorem bitfieldWrite (addr mask : Byte) (pos : BitVec 3) (value : Byte) :
    Statement (.bitfieldWrite addr mask pos value) := by
  simp [Statement, encode, codeBits, row, Command.bitfieldWrite]
theorem ctrlWrite (value : Byte) : Statement (.ctrlWrite value) := by
  simp [Statement, encode, codeBits, row, Command.ctrlWrite]
theorem ctrlRead : Statement .ctrlRead := rfl
theorem statusRead : Statement .statusRead := rfl

end Sys2Proof.Laws.TableMatch
end

