-- ==== Sys2Proof/Laws/Trace.lean ====
section
/-! SUPPORT. The bus history move by move: from a state of the controller's invariant whose history is a sequence of whole
transactions, each move leaves one (10_state.md R35, R56, 30_encoding.md R120, R128). -/

namespace Sys2Proof.Machine

theorem busPhase_append (tr : List BusEvent) (e : BusEvent) :
    busPhase (tr ++ [e]) = BusPhase.next (busPhase tr) e := by
  simp [busPhase]

/-- The first byte after chip-select's assertion, and after the delay of `SRAM_READ`, is a command byte (30_encoding.md
R120). -/
theorem next_command {settled : Bool} {tx rx : Byte} (h : opensWith settled tx = true) :
    BusPhase.next (some (.opened settled)) (.xfer tx rx) = some .talking := by
  cases settled <;> exact if_pos h

/-- A state with the same history, select line, shifter, command and configuration. -/
theorem TraceOk.same {s t : State} (h : TraceOk s) (h1 : t.trace = s.trace) (h2 : t.cs = s.cs)
    (h3 : t.shifter = s.shifter) (h4 : t.seq = s.seq) (h5 : t.cfg = s.cfg) : TraceOk t := by
  unfold TraceOk at *
  rw [h1, h2, h3, h4, h5]; exact h

/-- With chip-select deasserted no transaction is open. -/
theorem TraceOk.closed {s : State} (h : TraceOk s) (hc : s.cs = false) : busPhase s.trace = some .closed := by
  rcases h with ⟨h, _⟩ | ⟨_, _, h, _⟩ | ⟨_, h, _⟩
  · exact h
  · rw [hc] at h; cases h
  · rw [hc] at h; cases h

theorem TraceOk.of_closed {t : State} (h : busPhase t.trace = some .closed) (hc : t.cs = false) : TraceOk t :=
  .inl ⟨h, hc⟩

/-- A primitive that touches neither line nor shifter nor history, and after which as many bytes have been sent. -/
theorem TraceOk.advance {s t : State} {run run' : Run} {x : Prim} (h : TraceOk s) (hs : s.seq = some run)
    (hx : nextPrim s.cfg.mode run = some x) (hf : ((run.spot s.cfg.mode).after x).fresh = (run.spot s.cfg.mode).fresh)
    (hd : ((run.spot s.cfg.mode).after x).settled = (run.spot s.cfg.mode).settled) (ht : t.seq = some run') (hc : run'.cmd = run.cmd) (hu : run'.upc = run.upc + 1) (h1 : t.trace = s.trace)
    (h2 : t.cs = s.cs) (h3 : t.shifter = s.shifter) (h5 : t.cfg = s.cfg) : TraceOk t := by
  have hsp := spot_next hx hc hu
  rcases h with ⟨a, b⟩ | ⟨d, a, b, c⟩ | ⟨a, b, c⟩
  · exact .inl ⟨h1 ▸ a, h2.trans b⟩
  · refine .inr (.inl ⟨d, h1 ▸ a, h2.trans b, ?_⟩)
    rcases c with ⟨c1, r, hr, c2, c3⟩ | ⟨tx, c1, c2⟩
    · rw [hs] at hr; cases hr
      exact .inl ⟨h3.trans c1, run', ht, by rw [h5, hsp, hf]; exact c2, by rw [h5, hsp, hd]; exact c3⟩
    · exact .inr ⟨tx, h3.trans c1, c2⟩
  · refine .inr (.inr ⟨h1 ▸ a, h2.trans b, fun r hr => ?_⟩)
    rw [ht] at hr; cases hr
    rw [h5, hsp, hf]; exact c run hs

/-- The done latch is never set between chip-select's assertion and the command byte. -/
theorem TraceOk.done {s : State} {rx : Byte} (h : TraceOk s) (hs : s.shifter = .done rx) (hc : s.cs = true) :
    busPhase s.trace = some .talking ∧ ∀ run, s.seq = some run → (run.spot s.cfg.mode).fresh = false := by
  rcases h with ⟨_, b⟩ | ⟨_, _, _, ⟨c, _⟩ | ⟨_, c, _⟩⟩ | ⟨a, _, c⟩
  · rw [hc] at b; cases b
  · rw [hs] at c; cases c
  · rw [hs] at c; cases c
  · exact ⟨a, c⟩

/-- Whether a byte has been sent, after one more primitive. -/
theorem fresh_next {m : Mode} {run run' : Run} {x : Prim} {b : Bool} (h : nextPrim m run = some x)
    (hc : run'.cmd = run.cmd) (hu : run'.upc = run.upc + 1) (hb : ((run.spot m).after x).fresh = b) :
    (run'.spot m).fresh = b := by
  rw [spot_next h hc hu]; exact hb

theorem Before.trace_selected {s t : State} {run run' : Run} {x : Prim} (h : Before s run x) (hT : TraceOk s)
    (hsel : (run.spot s.cfg.mode).selected = false) (hsent : (run.spot s.cfg.mode).sent = false)
    (hf : ((run.spot s.cfg.mode).after x).fresh = true) (hd : ((run.spot s.cfg.mode).after x).settled = false) (ht : t.seq = some run') (hc : run'.cmd = run.cmd)
    (hu : run'.upc = run.upc + 1) (h1 : t.trace = s.trace ++ [.sel true]) (h2 : t.cs = true)
    (h3 : t.shifter = s.shifter) (h5 : t.cfg = s.cfg) : TraceOk t := by
  have hcl := hT.closed (h.selected.trans hsel)
  refine .inr (.inl ⟨false, by rw [h1, busPhase_append, hcl]; rfl, h2,
    .inl ⟨h3.trans (h.shifter hsent), run', ht, ?_, ?_⟩⟩)
  · rw [h5, spot_next h.next hc hu]; exact hf
  · rw [h5, spot_next h.next hc hu]; exact hd

/-- A `SEND` of a byte that the place allows, with the run as it is for this step. -/
theorem Before.trace_send {s t : State} {run run1 : Run} {x : Prim} {src : Source} {b : Byte} (h : Before s run x)
    (hT : TraceOk s) (hs : (run.spot s.cfg.mode).sent = false)
    (hb : (run.spot s.cfg.mode).fresh = true → opensWith (run.spot s.cfg.mode).settled b = true)
    (ha : ((run.spot s.cfg.mode).after x).fresh = false) (h1 : run1.cmd = run.cmd) (h2 : run1.upc = run.upc)
    (hv : ∀ k, withSource src run1 s k = k b) (ht : sendFrom src run1 s = .next t) : TraceOk t := by
  have hsh := h.shifter hs
  rw [sendFrom_idle h.fault hsh hv] at ht
  cases ht
  rcases hT with ⟨a, c⟩ | ⟨d, a, b', ⟨_, r, hr, c, c'⟩ | ⟨_, c, _⟩⟩ | ⟨a, b', _⟩
  · exact .inl ⟨a, c⟩
  · rw [h.seq] at hr; cases hr
    exact .inr (.inl ⟨d, a, b', .inr ⟨b, rfl, c' ▸ hb c⟩⟩)
  · rw [hsh] at c; cases c
  · refine .inr (.inr ⟨a, b', fun r hr => ?_⟩)
    cases hr
    exact fresh_next (run' := run1.next) h.next h1 (by rw [Run.next_upc, h2]) ha

/-- Each primitive keeps the bus history. -/
theorem Before.trace {s t : State} {run : Run} {x : Prim} (h : Before s run x) (hT : TraceOk s)
    (ht : primStep run s x = .next t) : TraceOk t := by
  have hh := h.here
  cases x with
  | guardEnter =>
    rcases andThen_next ht with ⟨h1, h2⟩ | ⟨u, h1, _, h2⟩
    · rcases guardEnter_next h1 with ⟨_, rfl⟩ | ⟨_, rfl⟩ <;> exact hT.same rfl rfl rfl rfl rfl
    · cases h2
      rcases guardEnter_next h1 with ⟨_, rfl⟩ | ⟨_, rfl⟩ <;> exact hT.advance h.seq h.next rfl rfl rfl rfl rfl rfl rfl rfl rfl
  | guardExit =>
    rcases andThen_next ht with ⟨h1, h2⟩ | ⟨u, h1, _, h2⟩
    · rcases guardExit_next h1 with ⟨_, rfl⟩ | ⟨_, rfl⟩ <;> exact hT.same rfl rfl rfl rfl rfl
    · cases h2
      rcases guardExit_next h1 with ⟨_, rfl⟩ | ⟨_, rfl⟩ <;> exact hT.advance h.seq h.next rfl rfl rfl rfl rfl rfl rfl rfl rfl
  | selAssert =>
    cases ht
    exact h.trace_selected hT hh.2 hh.1 rfl rfl rfl rfl rfl (by simp) (by simp) (by simp) (by simp)
  | selDeassert =>
    cases ht
    have hcs := h.selected.trans hh.2.1
    have hsh := h.shifter hh.1
    refine .of_closed ?_ (by simp)
    have : (Machine.selDeassert s).trace = s.trace ++ [.sel false] := by simp
    show busPhase (Machine.selDeassert s).trace = _
    rw [this, busPhase_append]
    rcases hT with ⟨_, b⟩ | ⟨_, _, _, ⟨_, r, hr, c, _⟩ | ⟨_, c, _⟩⟩ | ⟨a, _, _⟩
    · rw [hcs] at b; cases b
    · rw [h.seq] at hr; cases hr; rw [hh.2.2] at c; cases c
    · rw [hsh] at c; cases c
    · rw [a]; rfl
  | settle =>
    cases ht
    have hcs := h.selected.trans hh.2.1
    have hsh := h.shifter hh.2.2.1
    rcases hT with ⟨_, b⟩ | ⟨d, a, b, ⟨_, r, hr, _, c⟩ | ⟨_, c, _⟩⟩ | ⟨_, _, c⟩
    · rw [hcs] at b; cases b
    · rw [h.seq] at hr; cases hr
      obtain rfl : d = false := c.symm.trans hh.2.2.2
      refine .inr (.inl ⟨true, ?_, b, .inl ⟨hsh, _, rfl, fresh_next h.next rfl rfl hh.1, ?_⟩⟩)
      · show busPhase (s.trace ++ [.delay s.cfg.tSramSettle]) = _
        rw [busPhase_append, a]; rfl
      · show (Run.spot s.cfg.mode _).settled = true
        rw [spot_next (run' := { run with upc := run.upc + 1 }) h.next rfl rfl]; rfl
    · rw [hsh] at c; cases c
    · have := c run h.seq; rw [hh.1] at this; cases this
  | send src =>
    cases src with
    | byte b => exact h.trace_send hT hh.1 hh.2.2 rfl rfl rfl (fun _ => rfl) ht
    | hostByte => exact hh.elim
    | merged =>
      obtain ⟨r, hr⟩ := Option.ne_none_iff_exists'.1 (h.fit.r hh.2.2.2)
      exact h.trace_send (b := fieldMerge r run.cmd.mask run.cmd.pos run.cmd.value) hT hh.1
        (fun hf => by rw [hh.2.2.1] at hf; cases hf) rfl rfl rfl (fun k => by simp only [withSource, hr]) ht
  | sendRound k src =>
    have key : ∀ b, (∀ f, withSource src (run.atRound k) s f = f b) → TraceOk t := fun b hv =>
      h.trace_send hT hh.1 (fun hf => by rw [hh.2.2.1] at hf; cases hf) (run1 := run.atRound k) rfl rfl rfl hv ht
    cases src with
    | byte b => exact key b (fun _ => rfl)
    | hostByte =>
      have ht' : withMemRead (bufferAddr run.cmd.buf (run.atRound k).i) s
        (fun b => andThen (Machine.send b s) (Machine.advance (run.atRound k))) = .next t := ht
      have hlt := (withMemRead_next ht').1
      exact key (Memory.read s.mem (bufferAddr run.cmd.buf (run.atRound k).i)) (fun f => by
        have : bufferAddr (run.atRound k).cmd.buf (run.atRound k).i < s.cfg.hostSize := hlt
        simp only [withSource, withMemRead, inHostMemory, this, decide_true, if_true]; rfl)
    | merged => exact absurd rfl hh.2.2.2.2.2
  | wait dst =>
    rcases waitStep_next ht with ⟨_, rfl⟩ | ⟨rx, hrx, h'⟩
    · exact hT
    · have hcs := h.inv.selected (by rw [hrx]; simp)
      obtain ⟨d1, d2⟩ := hT.done hrx hcs
      cases dst with
      | discard =>
        cases h'
        refine .inr (.inr ⟨d1, hcs, fun r hr => ?_⟩)
        cases hr
        exact fresh_next h.next rfl rfl (d2 run h.seq)
      | toLocal =>
        cases h'
        refine .inr (.inr ⟨d1, hcs, fun r hr => ?_⟩)
        cases hr
        exact fresh_next h.next rfl rfl (d2 run h.seq)
      | hostByte =>
        rcases andThen_next h' with ⟨h1, h2⟩ | ⟨u, h1, _, h2⟩
        · obtain ⟨_, rfl⟩ := memWrite_next h1
          have := h.fault
          simp [this] at h2
        · obtain ⟨_, rfl⟩ := memWrite_next h1
          cases h2
          refine .inr (.inr ⟨d1, hcs, fun r hr => ?_⟩)
          cases hr
          exact fresh_next h.next rfl rfl (d2 run h.seq)
  | respond v =>
    have hc := h.selected.trans hh.2.1
    have hcl := hT.closed hc
    simp only [primStep, respondStep] at ht
    split at ht <;> first | (cases ht; exact .of_closed hcl hc) | cases ht
  | asyncSelect =>
    cases ht
    exact h.trace_selected hT hh.2.2 hh.2.1 rfl rfl rfl rfl rfl (by simp) (by simp) (by simp) (by simp)
  | asyncArm =>
    cases ht
    have hcs := h.selected.trans hh.2.2.1
    have hsh : s.shifter ≠ .idle := fun hi => by
      have := (h.fit.sent h.idle).1 hi
      rw [hh.2.1] at this; cases this
    rcases hT with ⟨_, b⟩ | ⟨d, a, b, ⟨c, _⟩ | c⟩ | ⟨a, b, _⟩
    · rw [hcs] at b; cases b
    · exact absurd c hsh
    · exact .inr (.inl ⟨d, a, b, .inr c⟩)
    · exact .inr (.inr ⟨a, b, fun r hr => by cases hr⟩)
  | ctrlWrite =>
    have hc := h.selected.trans hh.2.1
    cases ht; exact .of_closed (hT.closed hc) hc
  | ctrlRead =>
    have hc := h.selected.trans hh.2.1
    cases ht; exact .of_closed (hT.closed hc) hc
  | statusRead =>
    have hc := h.selected.trans hh.2.1
    cases ht; exact .of_closed (hT.closed hc) hc

/-- The `SEQ` step keeps the bus history. -/
theorem seqStep_trace {s t : State} (h : BlockInv s) (hT : TraceOk s) (hf : s.fault = none) (ht : seqStep s = .next t) :
    TraceOk t := by
  rcases seqStep_next ht with ⟨_, rfl⟩ | ⟨run, x, hs, hx, ht⟩
  · exact hT
  · have R := h.run run hs
    have hh := (fits_nextPrim hx).1
    cases ha : s.asyncState with
    | idle => exact Before.trace ⟨hs, hf, h, R, hx, ha, hh⟩ hT ht
    | writing =>
      obtain rfl := nextPrim_status hx (R.status ha)
      cases ht
      rcases hT with a | ⟨d, a, b, ⟨c, _⟩ | c⟩ | ⟨a, b, _⟩
      · exact .inl a
      · exact absurd c (h.writing ha).2.2
      · exact .inr (.inl ⟨d, a, b, .inr c⟩)
      · exact .inr (.inr ⟨a, b, fun r hr => by cases hr⟩)

/-- A command in flight while a byte is in the shifter has sent one since it asserted chip-select, or is `STATUS_READ`
beside an asynchronous write. -/
theorem BlockInv.not_fresh {s : State} (h : BlockInv s) (hs : s.shifter ≠ .idle) (run : Run) (hr : s.seq = some run) :
    (run.spot s.cfg.mode).fresh = false := by
  have R := h.run run hr
  cases ha : s.asyncState with
  | idle =>
    cases hf : (run.spot s.cfg.mode).fresh with
    | false => rfl
    | true => exact absurd ((R.sent ha).2 (spot_fresh _ _ hf)) hs
  | writing =>
    have hb : bodyOf s.cfg.mode run.cmd = [.statusRead] := by
      simp [bodyOf, decodeRecord, R.status ha, opStatusRead, body]
    have hu := R.upc
    rw [hb] at hu
    have hu0 : run.upc = 0 := by simpa using hu
    simp [Run.spot, hu0, Spot.start]

/-- The `BUS` step keeps the bus history. -/
theorem busStep_trace {s t : State} (h : BlockInv s) (hT : TraceOk s) (ht : busStep s = .next t) : TraceOk t := by
  rcases busStep_next ht with ⟨_, rfl⟩ | ⟨tx, hs, ⟨rx, p, rfl, _⟩ | ⟨code, info, _, rfl, _⟩⟩
  · exact hT
  · have hne : s.shifter ≠ .idle := by rw [hs]; simp
    have hcs := h.selected hne
    suffices hph : busPhase (s.trace ++ [.xfer tx rx]) = some .talking by
      exact .inr (.inr ⟨hph, hcs, fun run hr => h.not_fresh hne run hr⟩)
    rw [busPhase_append]
    rcases hT with ⟨_, b⟩ | ⟨_, a, _, ⟨c, _⟩ | ⟨tx', c, d⟩⟩ | ⟨a, _, _⟩
    · exact absurd (b.symm.trans hcs) (by simp)
    · exact absurd c hne
    · have e : tx' = tx := Shifter.busy.inj (c.symm.trans hs)
      rw [a]
      exact next_command (e ▸ d)
    · rw [a]; rfl
  · exact hT.same rfl rfl rfl rfl rfl

/-- The issue step keeps the bus history. -/
theorem issue_trace {c : Command} {s t : State} (hT : TraceOk s) (ht : issue c s = .next t) : TraceOk t := by
  rcases issue_next ht with ⟨f, _, rfl⟩ | ⟨hc, rfl⟩
  · exact hT.same rfl rfl rfl rfl rfl
  · have hs := (issueFault_none hc).1
    rcases hT with a | ⟨d, a, b, ⟨_, r, hr, _⟩ | c⟩ | ⟨a, b, _⟩
    · exact .inl a
    · rw [hs] at hr; cases hr
    · exact .inr (.inl ⟨d, a, b, .inr c⟩)
    · refine .inr (.inr ⟨a, b, fun r hr => ?_⟩)
      cases hr
      show (Run.spot s.cfg.mode _).fresh = false
      simp [Run.spot, Spot.start]

/-- The completion event keeps the bus history. -/
theorem completionStep_trace {s t : State} (h : BlockInv s) (hT : TraceOk s) (hf : s.fault = none)
    (ht : completionStep s = .next t) : TraceOk t := by
  have done : completionEnabled s = true → ∃ rx, s.shifter = .done rx := by
    intro he
    simp only [completionEnabled, Bool.and_eq_true] at he
    have hp := he.2
    unfold completionPending at hp
    split at hp
    · exact ⟨_, by assumption⟩
    · cases hp
  rcases completionStep_next hf ht with ⟨_, rfl⟩ | ⟨he, _, rfl⟩ | ⟨he, _, _, rfl⟩
  · exact hT
  · obtain ⟨rx, hrx⟩ := done he
    have hcs := h.selected (by rw [hrx]; simp)
    refine .of_closed ?_ (by simp [completionFinish])
    have : (completionFinish { s with shifter := .idle }).trace = s.trace ++ [.sel false] := by simp [completionFinish]
    rw [this, busPhase_append, (hT.done hrx hcs).1]; rfl
  · obtain ⟨rx, hrx⟩ := done he
    have hcs := h.selected (by rw [hrx]; simp)
    exact .inr (.inr ⟨(hT.done hrx hcs).1, hcs, (hT.done hrx hcs).2⟩)

end Sys2Proof.Machine
end

