-- ==== Sys2Proof/Tests/Slice0.lean ====
section
/-! SUPPORT. Tests: ill-formed terms, words written out from the encoding tables, single steps with the results that
95_test_vectors.md gives, and for each statement of Certificates/Slice0/Obligations.lean with hypotheses a state and
operands that meet them. -/

namespace Sys2Proof.Tests
open Sys2Proof.Machine

/-! ### Helpers -/

/-- There is a next state, and it passes the check. -/
def gives (r : Result) (check : State → Bool) : Bool :=
  match r with
  | .next s => check s
  | _ => false

/-- An event with its received byte left out: 95_test_vectors.md writes a draw there. -/
def noRx : BusEvent → BusEvent
  | .xfer tx _ => .xfer tx 0
  | e => e

/-- The bus history with the received bytes left out. -/
def wire (s : State) : List BusEvent := s.trace.map noRx

/-- A byte sent, its answer left out. -/
def out (tx : Byte) : BusEvent := .xfer tx 0

/-- The reset state in `MODE = BLOCKING`. -/
def blocking : State := State.launch { Params.launch with mode := .blocking } [] Peer.launch

/-- The reset state with an unconstrained peer. -/
def unconstrained : State := State.launch { Params.launch with peerKind := .unconstrained } [] Peer.launch

/-- Step 4 of 95_test_vectors.md section 2.7: one byte to go, the command byte in the shifter. -/
def writing : State :=
  { State.reset with
    cs := true
    shifter := .busy 0x60
    cmpIrqEn := true
    asyncState := .writing
    asyncRemaining := 1
    asyncCursor := 0x100
    trace := [.sel true]
    resp := [⟨0x3, none⟩]
    mem := [(0x100, 0x5A)]
    peer := { Peer.launch with ph := .cmd } }

/-- A finished byte in the shifter of an asynchronous write, with `n` bytes to go from `a`. -/
def pushing (n : Byte) (a : Nat) : State :=
  { writing with
    shifter := .done 0x00
    asyncRemaining := n
    asyncCursor := a
    peer := { Peer.launch with ph := .fbw 0 }
    trace := [.sel true, .xfer 0x60 0] }

/-- `REG_READ 0x02` in flight, its command byte exchanged. -/
def midRead : State :=
  { State.reset with
    cs := true
    guardDepth := 1
    seq := some ⟨.regRead 0x02, 4, 0, none⟩
    trace := [.sel true, .xfer 0x82 0]
    peer := { Peer.launch with ph := .regr 2 } }

/-- A state with a command in flight: the command, the place in its body, and `i`; `r` holds 0xAB. -/
def inBody (c : Command) (upc : Nat) (i : Byte) (s : State) : State := { s with seq := some ⟨c, upc, i, some 0xAB⟩ }

/-- A byte in the shifter of an open transaction, the reference peer in a phase. -/
def onBus (tx : Byte) (ph : Phase) : State :=
  { State.reset with cs := true, shifter := .busy tx, peer := { Peer.launch with ph := ph } }

/-! ### Well-formedness: an ill-formed term for each check -/

theorem test_wf_frameWriteBlocking : (Instr.frameWriteBlocking 0x10000 1).wf Params.launch = false ∧
    (Instr.frameWriteBlocking 0xFFFF 1).wf Params.launch = true := by decide
theorem test_wf_frameWriteNonblocking : (Instr.frameWriteNonblocking 0x10000 1).wf Params.launch = false ∧
    (Instr.frameWriteNonblocking 0xFFFF 1).wf Params.launch = true := by decide
theorem test_wf_frameRead : (Instr.frameRead 0x10000 1).wf Params.launch = false ∧
    (Instr.frameRead 0xFFFF 1).wf Params.launch = true := by decide
theorem test_wf_sramWrite : (Instr.sramWrite 0 0x10000 1).wf Params.launch = false ∧
    (Instr.sramWrite 0xFF 0xFFFF 1).wf Params.launch = true := by decide
theorem test_wf_sramRead : (Instr.sramRead 0 0x10000 1).wf Params.launch = false ∧
    (Instr.sramRead 0xFF 0xFFFF 1).wf Params.launch = true := by decide
theorem test_inMode : (Instr.frameWriteBlocking 0 1).inMode .nonblocking = false ∧
    (Instr.frameWriteNonblocking 0 1).inMode .blocking = false ∧ (Instr.frameRead 0 1).inMode .blocking = true := by decide
theorem test_params_wf : Params.launch.wf = true ∧ { Params.launch with hostAddrWidth := 0 }.wf = false ∧
    { Params.launch with frameBufferSize := 0 }.wf = false ∧ { Params.launch with sramSize := 0 }.wf = false := by decide

/-! ### Decoding: words written out from 30_encoding.md R121, R122 (code, then address or fb and zeros) and R131 -/

theorem test_decode_busRegWrite : decodeByte 0b11_000010 = .instr (.busRegWrite 0x02) ∧
    decodeByte 0b11_111111 = .instr (.busRegWrite 0x3F) := by decide
theorem test_decode_busRegRead : decodeByte 0b10_000010 = .instr (.busRegRead 0x02) ∧
    decodeByte 0b10_100001 = .instr (.busRegRead 0x21) := by decide
theorem test_decode_busFrameWrite : decodeByte 0b01_1_00000 = .instr .busFrameWrite := by decide
theorem test_decode_busFrameRead : decodeByte 0b00_1_00000 = .instr .busFrameRead := by decide
theorem test_decode_busSramWrite : decodeByte 0b01_0_00000 = .instr .busSramWrite := by decide
theorem test_decode_busSramRead : decodeByte 0b00_0_00000 = .instr .busSramRead := by decide
theorem test_decode_reservedByte : decodeByte 0b01_1_00001 = .reject (.reservedCommandByte 0x61) ∧
    decodeByte 0b00_0_10000 = .reject (.reservedCommandByte 0x10) := by decide
theorem test_decode_regWrite : decodeRecord .blocking { op := 0b0001, addr := 0x02, value := 0x3C, len := 9 } =
    .instr (.regWrite 0x02 0x3C) := by decide
theorem test_decode_regRead : decodeRecord .blocking { op := 0b0010, addr := 0x41, value := 7 } =
    .instr (.regRead 0x41) := by decide
theorem test_decode_frameWriteBlocking : decodeRecord .blocking { op := 0b0011, buf := 0x100, len := 3 } =
    .instr (.frameWriteBlocking 0x100 3) := by decide
theorem test_decode_frameWriteNonblocking : decodeRecord .nonblocking { op := 0b0011, buf := 0x100, len := 3 } =
    .instr (.frameWriteNonblocking 0x100 3) := by decide
theorem test_decode_frameRead : decodeRecord .blocking { op := 0b0100, buf := 0x200, len := 3 } =
    .instr (.frameRead 0x200 3) := by decide
theorem test_decode_sramWrite : decodeRecord .blocking { op := 0b0101, offset := 0x10, buf := 0x100, len := 2 } =
    .instr (.sramWrite 0x10 0x100 2) := by decide
theorem test_decode_sramRead : decodeRecord .blocking { op := 0b0110, offset := 0x11, buf := 0x200, len := 2 } =
    .instr (.sramRead 0x11 0x200 2) := by decide
theorem test_decode_bitfieldRead : decodeRecord .blocking { op := 0b0111, addr := 0x02, mask := 0x30, pos := 4 } =
    .instr (.bitfieldRead 0x02 0x30 4) := by decide
theorem test_decode_bitfieldWrite :
    decodeRecord .blocking { op := 0b1000, addr := 0x02, mask := 0x30, pos := 4, value := 2 } =
      .instr (.bitfieldWrite 0x02 0x30 4 2) := by decide
theorem test_decode_ctrlWrite : decodeRecord .blocking { op := 0b1001, value := 0x01, addr := 5 } =
    .instr (.ctrlWrite 0x01) := by decide
theorem test_decode_ctrlRead : decodeRecord .blocking { op := 0b1010, value := 9 } = .instr .ctrlRead := by decide
theorem test_decode_statusRead : decodeRecord .blocking { op := 0b1011 } = .instr .statusRead := by decide
theorem test_decode_reservedOps : decodeRecord .blocking { op := 0b0000 } = .reject (.reservedOp 0) ∧
    decodeRecord .blocking { op := 0b1100 } = .reject (.reservedOp 0xC) ∧
    decodeRecord .blocking { op := 0b1111 } = .reject (.reservedOp 0xF) := by decide

/-- The words of spec/opcode_table.json: the row's `match`, its other bits 0. -/
theorem test_tableWords : decodeTableWord 8 0xC0 = some (.busRegWrite 0) ∧ decodeTableWord 8 0x80 = some (.busRegRead 0) ∧
    decodeTableWord 8 0x60 = some .busFrameWrite ∧ decodeTableWord 8 0x00 = some .busSramRead ∧
    decodeTableWord 4 0x1 = some (.regWrite 0 0) ∧ decodeTableWord 8 0x1 = some (.regWrite 0 0) ∧
    decodeTableWord 8 0x3 = some (.frameWriteNonblocking 0 0) ∧ decodeTableWord 8 0xB = some .statusRead ∧
    decodeTableWord 8 0xC = none ∧ decodeTableWord 8 0x61 = none := by decide

/-- `step` runs the word placed: a record is executed from the port, a byte is completed on the bus. -/
theorem test_fetch : gives (step (State.reset.withFetchWord 8 0xA)) (fun t => t.resp = [⟨0xA, some 0x00⟩]) = true ∧
    gives (step (State.reset.withFetchWord 8 0x60)) (fun t => wire t = [out 0x60] && t.peer.ph = .fbw 0) = true := by
  decide

/-! ### The bus command bytes (20_memory.md R88) -/

theorem test_busRegWrite : gives (exec (.busRegWrite 0x02) (onBus 0xC2 .cmd)) (fun t => t.peer.ph = .regw 2) = true := by
  decide
theorem test_busRegRead : gives (exec (.busRegRead 0x3F) (onBus 0xBF .cmd)) (fun t => t.peer.ph = .regr 0x3F) = true := by
  decide
theorem test_busFrameWrite : gives (exec .busFrameWrite (onBus 0x60 .cmd)) (fun t => t.peer.ph = .fbw 0) = true := by decide
theorem test_busFrameRead : gives (exec .busFrameRead (onBus 0x20 .cmd)) (fun t => t.peer.ph = .fbr 0) = true := by decide
theorem test_busSramWrite : gives (exec .busSramWrite (onBus 0x40 .cmd)) (fun t => t.peer.ph = .srwOff) = true := by decide
theorem test_busSramRead : gives (exec .busSramRead (onBus 0x00 .cmd)) (fun t => t.peer.ph = .srrOff) = true := by decide

/-- Rows of 20_memory.md R88–R96 that the byte forms do not show: a reserved byte, a store past the end. -/
theorem test_peerFaults : gives (busStep (onBus 0x61 .cmd)) (fun t => t.fault = some ⟨.reservedCmd, 0x61⟩) = true ∧
    gives (busStep (onBus 0x03 (.fbw 128))) (fun t => t.fault = some ⟨.peerRange, 128⟩) = true ∧
    gives (busStep (onBus 0x02 (.srw 256))) (fun t => t.fault = some ⟨.peerRange, 256⟩) = true := by decide

/-! ### The host commands (95_test_vectors.md section 2) -/

/-- R-2. -/
theorem test_regWrite : gives (exec (.regWrite 0x3F 0xFF) State.reset) (fun t =>
    wire t = [.sel true, out 0xFF, out 0xFF, .sel false] && t.resp = [⟨0x1, none⟩] &&
      t.peer.regs = [(0x3F, 0xFF)]) = true := by decide

/-- V3: the address is refused before anything is sent. -/
theorem test_regWrite_range : gives (exec (.regWrite 0x40 0x00) State.reset) (fun t =>
    t.trace = [] && t.fault = some ⟨.addrRange, 0x40⟩) = true := by decide

/-- R-3. -/
theorem test_regRead : gives (exec (.regRead 0x3F) { State.reset with peer := ⟨[(0x3F, 0xFF)], [], [], .idle⟩ })
    (fun t => wire t = [.sel true, out 0xBF, out 0x00, .sel false] && t.resp = [⟨0x2, some 0xFF⟩]) = true := by decide

/-- V4. -/
theorem test_regRead_range : gives (exec (.regRead 0xFF) State.reset) (fun t => t.fault = some ⟨.addrRange, 0xFF⟩) = true := by
  decide

/-- F-3. -/
theorem test_frameWriteBlocking :
    gives (exec (.frameWriteBlocking 0x100 3) { blocking with mem := [(0x100, 1), (0x101, 2), (0x102, 3)] }) (fun t =>
      wire t = [.sel true, out 0x60, out 1, out 2, out 3, .sel false] &&
        t.peer.fb = [(0, 1), (1, 2), (2, 3)] && t.resp = [⟨0x3, none⟩]) = true := by decide

/-- F-6: the third byte does not fit a frame buffer of two. -/
theorem test_frameWriteBlocking_room :
    gives (exec (.frameWriteBlocking 0x100 3)
      { blocking with
        cfg := { blocking.cfg with frameBufferSize := 2 }
        mem := [(0x100, 1), (0x101, 2), (0x102, 3)] }) (fun t =>
      t.fault = some ⟨.peerRange, 2⟩ && t.peer.fb = [(0, 1), (1, 2)] && wire t = [.sel true, out 0x60, out 1, out 2]) =
    true := by decide

/-- Section 2.7, steps 1 to 4. -/
theorem test_frameWriteNonblocking :
    gives (exec (.frameWriteNonblocking 0x100 1) { State.reset with actIrqEn := true, mem := [(0x100, 0x5A)] }) (fun t =>
      t.asyncState = .writing && t.asyncRemaining = 1 && t.asyncCursor = 0x100 && t.cs && !t.actIrqEn && t.cmpIrqEn &&
        t.shifter = .busy 0x60 && t.seq = none && statusByte t = 0x17) = true := by decide

/-- V13: the overlap is found before the zero length. -/
theorem test_frameWriteNonblocking_overlap :
    gives (exec (.frameWriteNonblocking 0x100 0) writing) (fun t => t.fault = some ⟨.asyncOverlap, 0x3⟩) = true := by decide

/-- Section 2.7, step 6: the push, and with the cursor at the top of memory it wraps (45_async_frame_write.md R203). -/
theorem test_completion_push :
    gives (completionStep (pushing 1 0x100)) (fun t =>
      t.shifter = .busy 0x5A && t.asyncRemaining = 0 && t.asyncCursor = 0x101 && t.asyncState = .writing) = true ∧
    gives (completionStep (pushing 1 0xFFFF)) (fun t => t.asyncCursor = 0) = true := by decide

/-- Section 2.7, step 8. -/
theorem test_completion_finish :
    gives (completionStep (pushing 0 0x101)) (fun t =>
      t.asyncState = .idle && !t.cs && !t.cmpIrqEn && t.actIrqEn && t.shifter = .idle && statusByte t = 0x18) = true := by
  decide

/-- F-5: the peer's index starts at 0 again. -/
theorem test_frameRead :
    gives (exec (.frameRead 0x200 2) { State.reset with peer := ⟨[], [(0, 1), (1, 2), (2, 3)], [], .idle⟩ }) (fun t =>
      wire t = [.sel true, out 0x20, out 0, out 0, .sel false] && t.mem = [(0x200, 1), (0x201, 2)]) = true := by decide

/-- V9. -/
theorem test_frameRead_range :
    gives (exec (.frameRead 0xFFFF 2) State.reset) (fun t => t.fault = some ⟨.hostAddrRange, 0xFFFF⟩) = true := by decide

/-- S-3. -/
theorem test_sramWrite :
    gives (exec (.sramWrite 0x10 0x100 2) { State.reset with mem := [(0x100, 0x11), (0x101, 0x22)] }) (fun t =>
      wire t = [.sel true, out 0x40, out 0x10, out 0x11, out 0x22, .sel false] &&
        t.peer.sram = [(0x10, 0x11), (0x11, 0x22)]) = true := by decide

/-- S-5: no wrap at the end of the peer's SRAM. -/
theorem test_sramWrite_room :
    gives (exec (.sramWrite 0xFF 0x100 2) { State.reset with mem := [(0x100, 0x01), (0x101, 0x02)] }) (fun t =>
      t.fault = some ⟨.peerRange, 256⟩ && t.peer.sram = [(0xFF, 0x01)]) = true := by decide

/-- S-4: the settling delay, the offset byte, the data. -/
theorem test_sramRead :
    gives (exec (.sramRead 0x11 0x200 2)
      { State.reset with peer := ⟨[], [], [(0x10, 0x11), (0x11, 0x22), (0x12, 0x33)], .idle⟩ }) (fun t =>
      wire t = [.sel true, .delay 1, out 0x00, out 0x11, out 0, out 0, .sel false] &&
        t.mem = [(0x200, 0x22), (0x201, 0x33)]) = true := by decide

/-- V7. -/
theorem test_sramRead_length :
    gives (exec (.sramRead 0x00 0x100 0) State.reset) (fun t => t.fault = some ⟨.zeroLength, 0x6⟩) = true := by decide

/-- B-1 as a command, and the enable restored (43_critical_section_guard.md R181). -/
theorem test_bitfieldWrite :
    gives (exec (.bitfieldWrite 0x02 0x30 4 0x2)
      { State.reset with actIrqEn := true, peer := ⟨[(2, 0)], [], [], .idle⟩ }) (fun t =>
      wire t = [.sel true, out 0x82, out 0, .sel false, .sel true, out 0xC2, out 0x20, .sel false] &&
        t.peer.regs = [(2, 0x20)] && t.resp = [⟨0x8, none⟩] && t.actIrqEn) = true := by decide

/-- B-2 as a command. -/
theorem test_bitfieldRead :
    gives (exec (.bitfieldRead 0x02 0x30 4) { State.reset with peer := ⟨[(2, 0x20)], [], [], .idle⟩ }) (fun t =>
      t.resp = [⟨0x7, some 0x02⟩] && t.peer.regs = [(2, 0x20)]) = true := by decide

/-- B-3 to B-8, the merge. -/
theorem test_merge : fieldMerge 0xFF 0x30 4 0x0 = 0xCF ∧ fieldMerge 0xA5 0x00 3 0x7 = 0xA5 ∧
    fieldMerge 0xA5 0xFF 0 0x3C = 0x3C ∧ fieldMerge 0x00 0x30 4 0x7 = 0x30 ∧ fieldMerge 0x12 0x80 7 0xFF = 0x92 ∧
    fieldMerge 0xAB 0x0F 4 0x3 = 0xA0 := by decide

/-- B-3, B-5, B-8 to B-11, the read. -/
theorem test_fieldRead : fieldRead 0xFF 0x30 4 = 0x3 ∧ fieldRead 0xA5 0xFF 0 = 0xA5 ∧ fieldRead 0xAB 0x0F 4 = 0x0 ∧
    fieldRead 0xBE 0x0C 3 = 0x1 ∧ fieldRead 0x3C 0x30 0 = 0x30 ∧ fieldRead 0x92 0x80 7 = 0x1 := by decide

/-- K-4, K-7. -/
theorem test_ctrlWrite : gives (exec (.ctrlWrite 0xFF) State.reset) (fun t => t.actIrqEn && t.resp = [⟨0x9, none⟩]) = true ∧
    gives (exec (.ctrlWrite 0xFE) { State.reset with actIrqEn := true }) (fun t => !t.actIrqEn) = true := by decide

/-- V16. -/
theorem test_ctrlWrite_busy : gives (exec (.ctrlWrite 0x01) writing) (fun t => t.fault = some ⟨.busBusy, 0x9⟩) = true := by
  decide

/-- K-1, K-4. -/
theorem test_ctrlRead : gives (exec .ctrlRead State.reset) (fun t => t.resp = [⟨0xA, some 0x00⟩]) = true ∧
    gives (exec .ctrlRead { State.reset with actIrqEn := true }) (fun t => t.resp = [⟨0xA, some 0x01⟩]) = true := by decide

/-- K-2, K-3, V17. -/
theorem test_statusRead : gives (exec .statusRead State.reset) (fun t => t.resp = [⟨0xB, some 0x10⟩]) = true ∧
    gives (exec .statusRead blocking) (fun t => t.resp = [⟨0xB, some 0x00⟩]) = true ∧
    gives (exec .statusRead writing) (fun t => t.resp = [⟨0x3, none⟩, ⟨0xB, some 0x17⟩]) = true := by decide

/-- K-6. -/
theorem test_statusRead_enabled :
    gives (exec .statusRead { blocking with actIrqEn := true }) (fun t => t.resp = [⟨0xB, some 0x08⟩]) = true := by decide

/-- V1, V2, V11, V12, V14, V15. -/
theorem test_issue : issueFault { op := 0x0 } State.reset = some ⟨.illegalOp, 0x0⟩ ∧
    issueFault { op := 0xF } State.reset = some ⟨.illegalOp, 0xF⟩ ∧
    issueFault { op := 0x0 } midRead = some ⟨.portOverlap, 0x0⟩ ∧
    issueFault (.regWrite 0x01 0x00) midRead = some ⟨.portOverlap, 0x1⟩ ∧
    issueFault (.regWrite 0x40 0x00) writing = some ⟨.busBusy, 0x1⟩ ∧
    issueFault { op := 0xC } writing = some ⟨.illegalOp, 0xC⟩ := by decide

/-- V5, V6, V8, V10. -/
theorem test_issue_operands : issueFault (.bitfieldWrite 0x80 0x01 0 0x1) State.reset = some ⟨.addrRange, 0x80⟩ ∧
    issueFault (.frameWrite 0x100 0) State.reset = some ⟨.zeroLength, 0x3⟩ ∧
    issueFault (.frameRead 0xFFFF 1) State.reset = none ∧
    issueFault (.frameWrite 0xFFFF 0) State.reset = some ⟨.zeroLength, 0x3⟩ := by decide

/-- G-1, G-4's entry, G-7; G-2, G-5's exit, G-8. -/
theorem test_guardEnter : gives (guardEnter { State.reset with actIrqEn := true })
      (fun t => !t.actIrqEn && t.guardDepth = 1 && t.guardSaved) = true ∧
    gives (guardEnter { State.reset with guardDepth := 255, guardSaved := true })
      (fun t => t.fault = some ⟨.guardDepth, 255⟩) = true := by decide
theorem test_guardExit : gives (guardExit { State.reset with guardDepth := 1, guardSaved := true })
      (fun t => t.actIrqEn && t.guardDepth = 0) = true ∧
    gives (guardExit { State.reset with guardDepth := 2, guardSaved := true })
      (fun t => !t.actIrqEn && t.guardDepth = 1) = true ∧
    gives (guardExit { State.reset with guardSaved := true }) (fun t => t.fault = some ⟨.guardDepth, 0⟩) = true := by decide

/-- `POLL_IDLE` of program P2 (95_test_vectors.md section 3): while the write runs the poll stays before the `FRAME_READ`;
with no write running mainline goes on to it. -/
theorem test_pollIdle_waits :
    gives (step { writing with sched := [.mainline, .mainline], prog := [.pollIdle, .command (.frameRead 0x200 3)] })
      (fun t => t.prog = [.pollIdle, .command (.frameRead 0x200 3)] && t.fault = none &&
        t.resp = [⟨0x3, none⟩, ⟨0xB, some 0x17⟩]) = true := by decide
theorem test_pollIdle_goesOn :
    gives (step { State.reset with actIrqEn := true, sched := [.mainline], prog := [.pollIdle, .command .statusRead] })
      (fun t => t.prog = [.command .statusRead] && t.resp = [⟨0xB, some 0x18⟩]) = true := by decide

/-- `HWRITE 0x100, 0x11` and `ACT_IRQ_ON` of program P2. -/
theorem test_assemble : (withProgram State.reset [.pseudo .actIrqOn, .hwrite 0x100 0x11, .pseudo .pollIdle]).prog =
    [.command { op := 0x9, value := 0x01 }, .hwrite 0x100 0x11, .pollIdle] := by decide

/-- V18, and the interrupt output of section 2.8. -/
theorem test_halted : step { State.reset with fault := some ⟨.addrRange, 0x41⟩, sched := [.bus] } =
    .fault (.halted .addrRange 0x41) := rfl
theorem test_irqOut : irqOut { State.reset with trxIrq := true } = false ∧ irqOut { State.reset with actIrqEn := true } = false ∧
    irqOut { State.reset with trxIrq := true, actIrqEn := true } = true := by decide

/-! ### Witnesses: for each statement with hypotheses, what meets them -/

theorem reset_ready : Ready State.reset := ⟨rfl, rfl, rfl, rfl, rfl⟩
theorem blocking_ready : Ready blocking := ⟨rfl, rfl, rfl, rfl, rfl⟩
theorem unconstrained_ready : Ready unconstrained := ⟨rfl, rfl, rfl, rfl, rfl⟩

/-- The reset state with one register written. -/
def plain : State := { State.reset with peer := ⟨[(0x3F, 0xFF)], [], [], .idle⟩ }
theorem plain_ready : Ready plain := ⟨rfl, rfl, rfl, rfl, rfl⟩

theorem reset_inv : BlockInv State.reset where
  blocking := by decide
  cmpIrq := by decide
  writing := by decide
  cursor := by decide
  idlePort := by decide
  run := fun _ h => by cases h
  selected := by decide
  peer := by decide

/-- The invariant holds while an asynchronous write runs, at a byte that has finished. -/
theorem pushing_inv : BlockInv (pushing 1 0xFFFF) where
  blocking := by decide
  cmpIrq := by decide
  writing := by decide
  cursor := by decide
  idlePort := by decide
  run := fun _ h => by cases h
  selected := by decide
  peer := fun _ _ => ⟨by decide, fun h => by cases h⟩

theorem finishing_inv : BlockInv (pushing 0 0) where
  blocking := by decide
  cmpIrq := by decide
  writing := by decide
  cursor := by decide
  idlePort := by decide
  run := fun _ h => by cases h
  selected := by decide
  peer := fun _ _ => ⟨by decide, fun h => by cases h⟩

/-- The invariant holds in the middle of a command. -/
theorem midRead_inv : BlockInv midRead where
  blocking := by decide
  cmpIrq := by decide
  writing := by decide
  cursor := by decide
  idlePort := fun h => by cases h
  run := fun run h => by
    cases h
    exact ⟨by decide, by decide, by decide, by decide, by decide, by decide, by decide, by decide, by decide⟩
  selected := by decide
  peer := fun _ _ => ⟨by decide, fun h => by cases h⟩

/-- The last step of the asynchronous start. -/
def arming : State :=
  { State.reset with
    cs := true
    shifter := .busy 0x60
    seq := some ⟨.frameWrite 0x100 1, 2, 0, none⟩
    trace := [.sel true]
    peer := { Peer.launch with ph := .cmd } }

theorem arming_inv : BlockInv arming where
  blocking := by decide
  cmpIrq := by decide
  writing := by decide
  cursor := by decide
  idlePort := fun h => by cases h
  run := fun run h => by
    cases h
    exact ⟨by decide, by decide, by decide, by decide, by decide, by decide, by decide, by decide, by decide⟩
  selected := by decide
  peer := fun _ _ => ⟨by decide, fun _ => .inr ⟨0x60, rfl, by decide⟩⟩

theorem witness_DecodeOfEncode : (Instr.frameRead 0xFFFF 0xFF).wf Params.launch = true ∧
    (Instr.frameRead 0xFFFF 0xFF).inMode Params.launch.mode = true ∧
    (Instr.frameWriteBlocking 0xFFFF 1).wf blocking.cfg = true ∧
    (Instr.frameWriteBlocking 0xFFFF 1).inMode blocking.cfg.mode = true := by decide

theorem witness_OnlyTheSixByteFormsDecode : ∀ i, encode i ≠ .byte 0x01 := by
  intro i
  cases i with
  | busRegWrite a => revert a; decide
  | busRegRead a => revert a; decide
  | busFrameWrite => decide
  | busFrameRead => decide
  | busSramWrite => decide
  | busSramRead => decide
  | _ => intro h; cases h

theorem witness_RecordDecodesByItsOp : ∃ (c c' : Command) (i : Instr), c ≠ c' ∧ c.op = c'.op ∧
    (usesAddr c.op = true → c.addr = c'.addr) ∧
    (c.op = 0x1#4 ∨ c.op = 0x8#4 ∨ c.op = 0x9#4 → c.value = c'.value) ∧
    (c.op = 0x7#4 ∨ c.op = 0x8#4 → c.mask = c'.mask ∧ c.pos = c'.pos) ∧
    (c.op = 0x5#4 ∨ c.op = 0x6#4 → c.offset = c'.offset) ∧
    (usesBuffer c.op = true → c.len = c'.len ∧ c.buf = c'.buf) ∧ decodeRecord .blocking c = .instr i :=
  ⟨.regRead 0x02, { op := 0x2, addr := 0x02, value := 7, buf := 3 }, .regRead 0x02, by decide⟩

theorem witness_StepRunsTheDecodedInstruction :
    (State.reset.withFetchWord 8 0x1).fault = none ∧ (State.reset.withFetchWord 8 0x1).sched = [.mainline] ∧
    (State.reset.withFetchWord 8 0x1).prog = [.command (.ofOp 1)] ∧
    decodeRecord Params.launch.mode (.ofOp 1) = .instr (.regWrite 0 0) ∧
    (State.reset.withFetchWord 8 0xC0).fault = none ∧ (State.reset.withFetchWord 8 0xC0).sched = [.bus] ∧
    (State.reset.withFetchWord 8 0xC0).shifter = .busy 0xC0 ∧
    (State.reset.withFetchWord 8 0xC0).cfg.peerKind = .reference ∧ (State.reset.withFetchWord 8 0xC0).peer.ph = .cmd ∧
    decodeByte 0xC0 = .instr (.busRegWrite 0) := by decide

theorem witness_FaultedStateHasNoStep :
    { State.reset with fault := some ⟨.addrRange, 0x41⟩ }.fault = some ⟨.addrRange, 0x41⟩ := rfl

theorem witness_CommandIsSmallSteps : encode .ctrlRead = .record .ctrlRead ∧
    ∃ t, exec .ctrlRead { State.reset with sched := [.bus] } = .next t := ⟨rfl, _, rfl⟩

/-- `StepKeepsBlockInv`, `StepNeverSticks` and `StepKeepsTransactionForm`, in the middle of a command. -/
theorem witness_step_midRead : BlockInv midRead ∧ TraceOk midRead ∧ midRead.fault = none ∧
    (∃ t, step { midRead with sched := [.sequencer] } = .next t) ∧ NextMoveInRange midRead :=
  ⟨midRead_inv, .inr (.inr ⟨by decide, rfl, fun _ h => by cases h; decide⟩), rfl, ⟨_, rfl⟩,
    ⟨(fun _ _ _ h => by cases h), fun _ _ _ h => by cases h⟩⟩

/-- The same at the end of an asynchronous write, the completion event next, and with host writes at the top of
memory next. -/
theorem witness_step_finishing : BlockInv (pushing 0 0) ∧ TraceOk (pushing 0 0) ∧ (pushing 0 0).fault = none ∧
    (∃ t, step { pushing 0 0 with sched := [.completion] } = .next t) ∧
    NextMoveInRange { pushing 0 0 with sched := [.hostWrite 0xFFFF 0x5A], prog := [.hwrite 0xFFFF 0x5A] } :=
  ⟨finishing_inv, .inr (.inr ⟨by decide, rfl, fun _ h => by cases h⟩), rfl, ⟨_, rfl⟩,
    ⟨(fun _ _ _ h => by cases h; decide), fun _ _ _ h => by cases h; decide⟩⟩

/-- The invariant's rules: an asynchronous write running, a guard held, nothing running, `BLOCKING`. -/
theorem witness_BlockInvGivesTheRules : BlockInv (pushing 1 0xFFFF) ∧ (pushing 1 0xFFFF).asyncState = .writing ∧
    BlockInv midRead ∧ midRead.guardDepth ≠ 0 ∧ midRead.cs = true ∧ BlockInv arming ∧ arming.shifter ≠ .idle ∧
    BlockInv State.reset ∧ State.reset.seq = none ∧ BlockInv blocking ∧ blocking.cfg.mode = .blocking :=
  ⟨pushing_inv, rfl, midRead_inv, by decide, rfl, arming_inv, by decide, reset_inv, rfl,
    .of_respond rfl rfl rfl rfl rfl rfl, rfl⟩

theorem witness_StepKeepsCanonicalMemory : Canonical writing ∧
    ∃ t, step { writing with sched := [.hostWrite 0x100 0x00] } = .next t := ⟨⟨by decide, fun _ => by decide⟩, _, rfl⟩

theorem witness_StepKeepsConfigurationAndHistory :
    ∃ t, step { midRead with sched := [.sequencer] } = .next t := ⟨_, rfl⟩

/-- `WritersOfTheControlBits`: each agent's step; a host write at the top of memory, by itself and as the next move; both
branches of the completion event; a primitive that is none of the writers. -/
theorem witness_WritersOfTheControlBits : (∃ t, busStep writing = .next t) ∧
    (∃ t, issue (.regRead 0x02) State.reset = .next t) ∧ (∃ t, hostWrite 0xFFFF 1 State.reset = .next t) ∧
    ({ State.reset with sched := [.hostWrite 0xFFFF 1] }.fault = none ∧ 0xFFFF < 2 ^ State.reset.cfg.hostAddrWidth) ∧
    (State.reset.seq = none ∧ ∃ t, seqStep State.reset = .next t) ∧
    (∃ run t, midRead.seq = some run ∧ seqStep midRead = .next t ∧
      nextPrim midRead.cfg.mode run = some (.send (.byte 0x00))) ∧
    ((pushing 0 0).fault = none ∧ (pushing 0 0).asyncRemaining = 0 ∧ ∃ t, completionStep (pushing 0 0) = .next t) ∧
    ((pushing 1 0xFFFF).asyncRemaining ≠ 0 ∧ ∃ t, completionStep (pushing 1 0xFFFF) = .next t) ∧
    ∃ t, runEvent .bus writing = .next t :=
  ⟨⟨_, rfl⟩, ⟨_, rfl⟩, ⟨_, rfl⟩, by decide, ⟨rfl, _, rfl⟩, ⟨_, _, rfl, rfl, rfl⟩, ⟨rfl, rfl, _, rfl⟩, ⟨by decide, _, rfl⟩,
    _, rfl⟩

theorem witness_PortOverlapFaults : ∃ run, midRead.seq = some run ∧ midRead.fault = none ∧
    encode .statusRead = .record .statusRead := ⟨_, rfl, rfl, rfl⟩

theorem witness_CommandsFaultDuringAsyncWrite : writing.fault = none ∧ writing.seq = none ∧ writing.asyncState = .writing ∧
    encode (.frameWriteNonblocking 0 0) = .record (.frameWrite 0 0) ∧ (Command.frameWrite 0 0).op = 0x3#4 ∧
    encode .ctrlRead = .record .ctrlRead ∧ Command.ctrlRead.op ≠ 0x3#4 ∧ Command.ctrlRead.op ≠ 0xB#4 := by decide

theorem witness_OperandFaults : State.reset.fault = none ∧ State.reset.seq = none ∧ State.reset.asyncState = .idle ∧
    encode (.regRead 0x40) = .record (.regRead 0x40) ∧ 0x40 ≤ (Command.regRead 0x40).addr.toNat ∧
    encode (.frameRead 0 0) = .record (.frameRead 0 0) ∧ (Command.frameRead 0 0).len = 0 ∧
    encode (.sramRead 0 0xFFFF 2) = .record (.sramRead 0 0xFFFF 2) ∧ (Command.sramRead 0 0xFFFF 2).len ≠ 0 ∧
    State.reset.cfg.hostSize ≤ 0xFFFF + (Command.sramRead 0 0xFFFF 2).len.toNat - 1 := by decide

theorem witness_ReservedOpFaults : ((0x0#4).toNat = 0 ∨ 0xC ≤ (0x0#4).toNat) ∧ ((0xC#4).toNat = 0 ∨ 0xC ≤ (0xC#4).toNat) ∧
    State.reset.fault = none ∧ State.reset.seq = none ∧
    { State.reset with prog := [.command { op := 0xC }] }.prog = [.command { op := 0xC }] := by decide

/-- Each check at its boundary: the highest register, the last byte of memory, the top op while writing. -/
theorem witness_AcceptedCommandStarts : State.reset.seq = none ∧ (Command.regRead 0x3F).addr.toNat < 0x40 ∧
    (Command.frameRead 0xFFFF 1).len ≠ 0 ∧ 0xFFFF + (Command.frameRead 0xFFFF 1).len.toNat - 1 < State.reset.cfg.hostSize ∧
    writing.seq = none ∧ Command.statusRead.op = 0xB#4 ∧ Command.statusRead.op.toNat ≤ 0xB := by decide

/-- `RegWriteEffect`, `RegReadEffect`, `BitfieldReadEffect`, `BitfieldWriteEffect`, `RegisterRoundTrip`,
`BitfieldRoundTrip`: the highest register, written before. -/
theorem witness_registerCommands : Ready plain ∧ (0x3F : Byte).toNat < 0x40 ∧ PlainRegister plain 0x3F ∧
    Cells.get plain.peer.regs (0x3F : Byte).toNat = some 0xFF ∧ Ready unconstrained :=
  ⟨plain_ready, by decide, ⟨rfl, by decide⟩, rfl, unconstrained_ready⟩

/-- `FrameWriteBlockingEffect`, `FrameRoundTrip`'s first clause: the whole of the peer's frame buffer; one byte at the top of memory. -/
theorem witness_blockingFrames : Ready blocking ∧ blocking.cfg.mode = .blocking ∧ blocking.cfg.peerKind = .reference ∧
    BufferOk blocking 0x100 128 ∧ BufferOk blocking 0xFFFF 1 ∧
    PeerRoom blocking blocking.cfg.frameBufferSize 0 (128 : Byte).toNat ∧
    (128 : Byte).toNat ≤ blocking.cfg.frameBufferSize :=
  ⟨blocking_ready, rfl, rfl, ⟨by decide, by decide⟩, ⟨by decide, by decide⟩, .inr (by decide), by decide⟩

/-- `AsyncStartEffect`, `AsyncWriteTakesOneMoreEventThanBytes`, `FrameRoundTrip`'s second clause. -/
theorem witness_asyncWrite : Ready State.reset ∧ State.reset.cfg.mode = .nonblocking ∧ BufferOk State.reset 0xFFFF 1 ∧
    BufferOk State.reset 0 128 ∧ PeerRoom State.reset State.reset.cfg.frameBufferSize 0 (128 : Byte).toNat ∧
    State.reset.cfg.peerKind = .reference ∧ (128 : Byte).toNat ≤ State.reset.cfg.frameBufferSize :=
  ⟨reset_ready, rfl, ⟨by decide, by decide⟩, ⟨by decide, by decide⟩, .inr (by decide), rfl, by decide⟩

/-- `FrameReadEffect`, `SramWriteEffect`, `SramReadEffect`, `SramRoundTrip`, with either peer. -/
theorem witness_streams : Ready State.reset ∧ State.reset.cfg.peerKind = .reference ∧ BufferOk State.reset 0xFFFF 1 ∧
    PeerRoom State.reset State.reset.cfg.frameBufferSize 0 (128 : Byte).toNat ∧
    PeerRoom State.reset State.reset.cfg.sramSize (0xFF : Byte).toNat (1 : Byte).toNat ∧
    (0xFF : Byte).toNat + (1 : Byte).toNat ≤ State.reset.cfg.sramSize ∧
    Ready unconstrained ∧ PeerRoom unconstrained unconstrained.cfg.sramSize (0xFF : Byte).toNat (0xFF : Byte).toNat :=
  ⟨reset_ready, rfl, ⟨by decide, by decide⟩, .inr (by decide), .inr (by decide), by decide, unconstrained_ready, .inl rfl⟩

/-- `CtrlWriteEffect`, `CtrlReadEffect`, `StatusReadEffect`. -/
theorem witness_controlCommands : State.reset.fault = none ∧ State.reset.seq = none ∧ State.reset.asyncState = .idle ∧
    writing.fault = none ∧ writing.seq = none := by decide

theorem witness_CommandByteEffect : (onBus 0xFF .cmd).fault = none ∧ (onBus 0xFF .cmd).shifter = .busy 0xFF ∧
    (onBus 0xFF .cmd).peer.ph = .cmd ∧ encode (.busRegWrite 0x3F) = .byte 0xFF ∧ encode (.busRegRead 0x3F) = .byte 0xBF ∧
    encode .busFrameWrite = .byte 0x60 ∧ encode .busFrameRead = .byte 0x20 ∧ encode .busSramWrite = .byte 0x40 ∧
    encode .busSramRead = .byte 0x00 := by decide

theorem witness_CommandByteNotThere : State.reset.shifter ≠ .busy 0x60 ∧ (onBus 0x60 (.fbw 3)).shifter = .busy 0x60 ∧
    (onBus 0x60 (.fbw 3)).cfg.peerKind = .reference ∧ (onBus 0x60 (.fbw 3)).peer.ph ≠ .cmd ∧
    (onBus 0x60 (.fbw 3)).fault = none := by decide

/-- `HostCommandFrame`: a command that runs to its response, of each kind of op the clauses tell apart. -/
theorem witness_HostCommandFrame : (∃ t, exec (.frameRead 0xFFFF 1) State.reset = .next t) ∧
    (∃ t, exec (.frameWriteBlocking 0xFFFF 1) blocking = .next t) ∧ (∃ t, exec (.ctrlWrite 1) State.reset = .next t) ∧
    ∃ t, exec .statusRead writing = .next t := ⟨⟨_, rfl⟩, ⟨_, rfl⟩, ⟨_, rfl⟩, _, rfl⟩

theorem witness_CompletionPushRule : (pushing 1 0xFFFF).fault = none ∧ completionEnabled (pushing 1 0xFFFF) = true ∧
    (pushing 1 0xFFFF).asyncRemaining ≠ 0 ∧ (pushing 1 0xFFFF).asyncCursor < (pushing 1 0xFFFF).cfg.hostSize := by decide

theorem witness_CompletionFinishRule : completionEnabled (pushing 0 0) = true ∧ (pushing 0 0).asyncRemaining = 0 ∧
    (pushing 0 0).cfg.peerKind = .reference := by decide

theorem witness_CompletionOnlyWhenEnabled : blocking.cfg.mode = .blocking ∧ midRead.cmpIrqEn = false ∧
    ∀ rx, writing.shifter ≠ .done rx := ⟨rfl, rfl, fun _ h => by cases h⟩

/-- Into `WRITING` by the start's last step and by a line of mainline; a push; out of `WRITING`. -/
theorem witness_AsyncStateTransitions :
    (BlockInv arming ∧ arming.fault = none ∧ arming.asyncState = .idle ∧
      ∃ t, runEvent .sequencer arming = .next t ∧ t.asyncState = .writing) ∧
    (BlockInv State.reset ∧ State.reset.asyncState = .idle ∧
      ∃ t, runEvent .mainline { State.reset with prog := [.command (.frameWrite 0xFFFF 1)] } = .next t ∧
        t.asyncState = .writing) ∧
    (BlockInv (pushing 1 0xFFFF) ∧ completionEnabled (pushing 1 0xFFFF) = true ∧
      (∃ t, runEvent .completion (pushing 1 0xFFFF) = .next t)) ∧
    BlockInv (pushing 0 0) ∧ ∃ t, runEvent .completion (pushing 0 0) = .next t ∧ t.asyncState = .idle :=
  ⟨⟨arming_inv, rfl, rfl, _, rfl, rfl⟩, ⟨reset_inv, rfl, _, rfl, rfl⟩, ⟨pushing_inv, by decide, _, rfl⟩,
    finishing_inv, _, rfl, rfl⟩

/-- `GuardRules`: both primitives, below and at the ends of the depth. -/
theorem witness_GuardRules :
    (∃ run, (inBody (.regRead 2) 0 0 { State.reset with guardDepth := 254 }).seq = some run ∧
      nextPrim .nonblocking run = some .guardEnter) ∧ (254#8).toNat < 255 ∧ (255#8).toNat = 255 ∧
    ∃ run, (inBody (.regRead 2) 7 0 { State.reset with guardDepth := 1 }).seq = some run ∧
      nextPrim .nonblocking run = some .guardExit :=
  ⟨⟨_, rfl, rfl⟩, by decide, by decide, _, rfl, rfl⟩

theorem witness_EmptyGuardIsNoOp : { State.reset with actIrqEn := true }.guardDepth.toNat < 255 ∧
    { State.reset with guardDepth := 254 }.guardDepth.toNat < 255 ∧
    { State.reset with guardDepth := 254 }.actIrqEn = false := by decide

theorem witness_SelAssertRule :
    (∃ run, (inBody (.regRead 2) 1 0 State.reset).seq = some run ∧ nextPrim .nonblocking run = some .selAssert) ∧
    ∃ run, (inBody (.frameWrite 0 1) 0 0 State.reset).seq = some run ∧ nextPrim .nonblocking run = some .asyncSelect :=
  ⟨⟨_, rfl, rfl⟩, _, rfl, rfl⟩

theorem witness_SelDeassertAndSettleRules : (∃ run, (inBody (.regRead 2) 6 0 State.reset).seq = some run ∧
      nextPrim .nonblocking run = some .selDeassert) ∧
    ∃ run, (inBody (.sramRead 0 0 1) 2 0 State.reset).seq = some run ∧ nextPrim .nonblocking run = some .settle :=
  ⟨⟨_, rfl, rfl⟩, _, rfl, rfl⟩

/-- Each primitive that responds. -/
theorem witness_RespondRule :
    (∃ run, (inBody (.regWrite 2 0) 8 0 State.reset).seq = some run ∧ nextPrim .nonblocking run = some (.respond .nothing)) ∧
    (∃ run r, (inBody (.regRead 2) 8 0 State.reset).seq = some run ∧ run.r = some r ∧
      nextPrim .nonblocking run = some (.respond .fromLocal)) ∧
    (∃ run r, (inBody (.bitfieldRead 2 1 0) 8 0 State.reset).seq = some run ∧ run.r = some r ∧
      nextPrim .nonblocking run = some (.respond .field)) ∧
    (∃ run, arming.seq = some run ∧ nextPrim .nonblocking run = some .asyncArm) ∧
    (∃ run, (inBody (.ctrlWrite 1) 0 0 State.reset).seq = some run ∧ nextPrim .nonblocking run = some .ctrlWrite) ∧
    (∃ run, (inBody .ctrlRead 0 0 State.reset).seq = some run ∧ nextPrim .nonblocking run = some .ctrlRead) ∧
    (∃ run, (inBody .statusRead 0 0 State.reset).seq = some run ∧ nextPrim .nonblocking run = some .statusRead) ∧
    ∃ t, seqStep arming = .next t :=
  ⟨⟨_, rfl, rfl⟩, ⟨_, _, rfl, rfl, rfl⟩, ⟨_, _, rfl, rfl, rfl⟩, ⟨_, rfl, rfl⟩, ⟨_, rfl, rfl⟩, ⟨_, rfl, rfl⟩, ⟨_, rfl, rfl⟩,
    _, rfl⟩

/-- An operand, a byte at the top of host memory, and the merge; the shifter at rest, and not. -/
theorem witness_SendRule :
    (∃ run, (inBody (.regWrite 2 0x3C) 2 0 State.reset).seq = some run ∧
      nextPrim .nonblocking run = some (.send (.byte 0xC2))) ∧
    (∃ run, (inBody (.frameWrite 0xFFFE 2) 6 0 blocking).seq = some run ∧
      nextPrim .blocking run = some (.sendRound 1 .hostByte) ∧
      run.cmd.buf + (BitVec.ofNat 8 1).toNat < 2 ^ blocking.cfg.hostAddrWidth) ∧
    (∃ run r, (inBody (.bitfieldWrite 2 0x30 4 2) 12 0 State.reset).seq = some run ∧
      nextPrim .nonblocking run = some (.send .merged) ∧ run.r = some r) ∧
    State.reset.shifter = .idle ∧ writing.shifter ≠ .idle :=
  ⟨⟨_, rfl, rfl⟩, ⟨_, rfl, rfl, by decide⟩, ⟨_, _, rfl, rfl, rfl⟩, rfl, by decide⟩

/-- A `WAIT` of each kind, and a byte that shifts while `CEV` moves. -/
theorem witness_WaitRule :
    (∃ run, (inBody (.regRead 2) 3 0 State.reset).seq = some run ∧ nextPrim .nonblocking run = some (.wait .discard)) ∧
    (∃ run, (inBody (.regRead 2) 5 0 State.reset).seq = some run ∧ nextPrim .nonblocking run = some (.wait .toLocal)) ∧
    (∃ run, (inBody (.frameRead 0xFFFF 1) 4 0 State.reset).seq = some run ∧
      nextPrim .nonblocking run = some (.wait .hostByte) ∧ run.cmd.buf + run.i.toNat < 2 ^ 16) ∧
    (∀ rx, State.reset.shifter ≠ .done rx) ∧ (pushing 0 0).shifter = .done 0x00 ∧ writing.shifter = .busy 0x60 ∧
    (∃ t, runEvent .completion writing = .next t) ∧
    ∃ t, runEvent .mainline { writing with prog := [.pollIdle] } = .next t :=
  ⟨⟨_, rfl, rfl⟩, ⟨_, rfl, rfl⟩, ⟨_, rfl, rfl, by decide⟩, (fun _ h => by cases h), rfl, rfl, ⟨_, rfl⟩, _, rfl⟩

theorem witness_BusStepRule : { writing with sched := [.bus] }.fault = none ∧
    { writing with sched := [.bus] }.shifter = .busy 0x60 ∧ writing.cfg.peerKind = .reference ∧
    (∃ rx p, exchange writing.cfg writing.peer 0x60 (Config.freeByte writing.draws) = .answer rx p) ∧
    { unconstrained with shifter := .busy 0x60, sched := [.bus] }.cfg.peerKind = .unconstrained :=
  ⟨rfl, rfl, rfl, ⟨_, _, rfl⟩, rfl⟩

/-- Every phase, the streams at their last cell and past it, and a register with a side effect. -/
theorem witness_ReferencePeerDataRules :
    (∀ ph, (onBus 0x5A ph).cfg.peerKind = .reference ∧ (onBus 0x5A ph).shifter = .busy 0x5A ∧
      (onBus 0x5A ph).peer.ph = ph) ∧
    (5 : RegAddr) ∉ (onBus 0x5A .cmd).cfg.sideEffectRegs ∧
    (5 : RegAddr) ∈ { Params.launch with sideEffectRegs := [5] }.sideEffectRegs ∧
    127 < (onBus 0x5A (.fbw 127)).cfg.frameBufferSize ∧ (onBus 0x5A (.fbr 128)).cfg.frameBufferSize ≤ 128 ∧
    255 < (onBus 0x5A (.srw 255)).cfg.sramSize ∧ (onBus 0x5A (.srr 256)).cfg.sramSize ≤ 256 :=
  ⟨fun _ => ⟨rfl, rfl, rfl⟩, by decide⟩

theorem witness_ReservedCommandByteFaults : (onBus 0x7F .cmd).cfg.peerKind = .reference ∧
    (onBus 0x7F .cmd).shifter = .busy 0x7F ∧ (onBus 0x7F .cmd).peer.ph = .cmd ∧ (0x7F : Byte).getLsbD 7 = false ∧
    (0x7F : Byte).extractLsb' 0 5 ≠ 0#5 ∧ (0x01 : Byte).extractLsb' 0 5 ≠ 0#5 := by decide

theorem witness_MemWriteRule : 0xFFFF < 2 ^ State.reset.cfg.hostAddrWidth := by decide

theorem witness_ActivityInterruptIsForwarded : { midRead with sched := [.environment true] }.fault = none ∧
    { midRead with sched := [.environment true] }.sched = [.environment true] := by decide

/-- With nothing running, and with an asynchronous write running. -/
theorem witness_PollIdleRule : State.reset.fault = none ∧ State.reset.seq = none ∧ State.reset.asyncState = .idle ∧
    writing.fault = none ∧ writing.seq = none ∧ writing.asyncState = .writing ∧
    { writing with sched := [.mainline], prog := [.pollIdle] }.sched = [.mainline] ∧
    { writing with sched := [.mainline], prog := [.pollIdle] }.prog = [.pollIdle] := by decide

end Sys2Proof.Tests
end

section
/-! SUPPORT. The step with a known next move, the issue check's first failure case by case, which primitives free the
port, and how a whole command is made of single steps. -/

namespace Sys2Proof.Machine

/-! ### The next move -/

/-- With no fault recorded, a step is the move at the head of the schedule (10_state.md R30; log 1). -/
theorem step_of_sched {s : State} {e : Event} {rest : List Event} (hf : s.fault = none) (hs : s.sched = e :: rest) :
    step s = runEvent e { s with sched := rest } := by
  rw [step, whileRunning_of_none _ hf, takeEvent, hs]

/-- A read of host memory after a write, at any address (20_memory.md R73). -/
theorem Memory.read_write (m : List Host.Cell) (a : Nat) (v : Byte) (b : Nat) :
    Memory.read (Memory.write m a v) b = if b = a then v else Memory.read m b := by
  split
  · next h => rw [h, Memory.read_write_same]
  · next h => exact Memory.read_write_other m v h

/-- A host write inside host memory is the write and nothing else (20_memory.md R71). -/
theorem hostWrite_of_lt {a : Nat} {s : State} (v : Byte) (h : a < s.cfg.hostSize) :
    hostWrite a v s = .next { s with mem := Memory.write s.mem a v } :=
  if_pos (decide_eq_true h)

/-- The `SEQ` step is the primitive at the command's place (10_state.md R32). -/
theorem seqStep_of_nextPrim {s : State} {run : Run} {x : Prim} (hs : s.seq = some run)
    (hx : nextPrim s.cfg.mode run = some x) : seqStep s = primStep run s x := by
  rw [seqStep_run hs, hx]

/-! ### The issue check (10_state.md R57) -/

/-- A host command's op is legal (30_encoding.md R131). -/
theorem legalOp_of_encode {i : Instr} {c : Command} (h : encode i = .record c) : legalOp c.op = true := by
  cases i <;> cases h <;> rfl

theorem legalOp_iff (op : OpCode) : legalOp op = true ↔ 1 ≤ op.toNat ∧ op.toNat ≤ 0xB := by
  simp [legalOp]

theorem usesAddr_iff (op : OpCode) : usesAddr op = true ↔ op = 0x1#4 ∨ op = 0x2#4 ∨ op = 0x7#4 ∨ op = 0x8#4 := by
  simp [usesAddr, or_assoc]

theorem usesBuffer_iff (op : OpCode) : usesBuffer op = true ↔ op = 0x3#4 ∨ op = 0x4#4 ∨ op = 0x5#4 ∨ op = 0x6#4 := by
  simp [usesBuffer, or_assoc]

/-- No op has both a register address and a buffer (30_encoding.md R130). -/
theorem usesAddr_of_usesBuffer {op : OpCode} (h : usesBuffer op = true) : usesAddr op = false := by
  revert op; decide

theorem addrInRange_iff (addr : Byte) : addrInRange addr = true ↔ addr.toNat < 0x40 := by
  revert addr; decide

theorem bufferInRange_iff (p : Params) (buf : Nat) (len : Byte) :
    bufferInRange p buf len = true ↔ buf + len.toNat - 1 < p.hostSize := by
  simp [bufferInRange]

theorem issue_of_issueFault {c : Command} {s : State} {f : FaultRecord} (h : issueFault c s = some f) :
    issue c s = .next { s with fault := some f } := by
  rw [issue, h]; rfl

theorem exec_of_issueFault {i : Instr} {c : Command} {s : State} {f : FaultRecord} (hi : encode i = .record c)
    (hf : s.fault = none) (h : issueFault c s = some f) : exec i s = .next { s with fault := some f } := by
  rw [exec_record hi, runCommand_of_issueFault hf h]

theorem issueFault_inFlight {c : Command} {s : State} {run : Run} (hs : s.seq = some run) :
    issueFault c s = some ⟨.portOverlap, c.op.toNat⟩ := by
  simp [issueFault, hs]

theorem issueFault_reserved {c : Command} {s : State} (hs : s.seq = none) (hl : legalOp c.op = false) :
    issueFault c s = some ⟨.illegalOp, c.op.toNat⟩ := by
  simp [issueFault, hs, hl]

theorem issueFault_asyncOverlap {c : Command} {s : State} (hs : s.seq = none) (hw : s.asyncState = .writing)
    (ho : c.op = opFrameWrite) : issueFault c s = some ⟨.asyncOverlap, c.op.toNat⟩ := by
  have hl : legalOp opFrameWrite = true := rfl
  simp [issueFault, hs, hl, hw, ho]

theorem issueFault_busBusy {c : Command} {s : State} (hs : s.seq = none) (hl : legalOp c.op = true)
    (hw : s.asyncState = .writing) (ho : c.op ≠ opFrameWrite) (ho' : c.op ≠ opStatusRead) :
    issueFault c s = some ⟨.busBusy, c.op.toNat⟩ := by
  simp [issueFault, hs, hl, hw, ho, ho']

theorem issueFault_addrRange {c : Command} {s : State} (hs : s.seq = none) (hl : legalOp c.op = true)
    (hw : s.asyncState = .idle) (hu : usesAddr c.op = true) (ha : addrInRange c.addr = false) :
    issueFault c s = some ⟨.addrRange, c.addr.toNat⟩ := by
  simp [issueFault, hs, hl, hw, hu, ha]

theorem issueFault_zeroLength {c : Command} {s : State} (hs : s.seq = none) (hl : legalOp c.op = true)
    (hw : s.asyncState = .idle) (hu : usesBuffer c.op = true) (hlen : c.len = 0) :
    issueFault c s = some ⟨.zeroLength, c.op.toNat⟩ := by
  simp [issueFault, hs, hl, hw, hu, usesAddr_of_usesBuffer hu, hlen]

theorem issueFault_hostAddrRange {c : Command} {s : State} (hs : s.seq = none) (hl : legalOp c.op = true)
    (hw : s.asyncState = .idle) (hu : usesBuffer c.op = true) (hlen : c.len ≠ 0)
    (hb : bufferInRange s.cfg c.buf c.len = false) : issueFault c s = some ⟨.hostAddrRange, c.buf⟩ := by
  simpa [issueFault, hs, hl, hw, hu, usesAddr_of_usesBuffer hu, hb] using hlen

/-- What passes every check, `issueFault_none` read the other way. -/
theorem issueFault_eq_none {c : Command} {s : State} (hs : s.seq = none) (hl : legalOp c.op = true)
    (hw : s.asyncState = .writing → c.op = opStatusRead) (ha : usesAddr c.op = true → addrInRange c.addr = true)
    (hb : usesBuffer c.op = true → c.len ≠ 0 ∧ bufferInRange s.cfg c.buf c.len = true) : issueFault c s = none := by
  have hne : ¬(s.asyncState = .writing ∧ c.op = opFrameWrite) := fun ⟨h1, h2⟩ => by
    rw [hw h1] at h2; exact absurd h2 (by decide)
  have hst : ¬(s.asyncState = .writing ∧ c.op ≠ opStatusRead) := fun ⟨h1, h2⟩ => h2 (hw h1)
  have haddr : ¬(usesAddr c.op ∧ !addrInRange c.addr) := fun ⟨h1, h2⟩ => by simp [ha h1] at h2
  have hlen : ¬(usesBuffer c.op ∧ c.len = 0) := fun ⟨h1, h2⟩ => (hb h1).1 h2
  have hbuf : ¬(usesBuffer c.op ∧ !bufferInRange s.cfg c.buf c.len) := fun ⟨h1, h2⟩ => by simp [(hb h1).2] at h2
  rw [issueFault, if_neg (by simp [hs]), if_neg (by simp [hl]), if_neg hne, if_neg hst, if_neg haddr, if_neg hlen,
    if_neg hbuf]

/-! ### Which primitives free the port (10_state.md R45, R58) -/

/-- A primitive that goes on with its body keeps a command in flight. -/
theorem andThen_advance_seq {r : Result} {run : Run} {t : State} (h : andThen r (advance run) = .next t)
    (hr : ∀ u, r = .next u → u.seq ≠ none) : t.seq ≠ none := by
  rcases andThen_next h with ⟨h1, _⟩ | ⟨u, _, _, h2⟩
  · exact hr t h1
  · rw [advance_next h2]; simp

theorem sendFrom_seq {src : Source} {run : Run} {s t : State} (hs : s.seq ≠ none)
    (h : sendFrom src run s = .next t) : t.seq ≠ none := by
  have key : ∀ b, andThen (send b s) (advance run) = .next t → t.seq ≠ none := fun b hb =>
    andThen_advance_seq hb fun u hu => by rcases send_next hu with ⟨_, rfl⟩ | ⟨_, rfl⟩ <;> exact hs
  cases src with
  | byte b => exact key b h
  | hostByte => exact key _ (withMemRead_next (k := fun b => andThen (send b s) (advance run)) h).2
  | merged =>
    simp only [sendFrom, withSource] at h
    cases hr : run.r with
    | some r => rw [hr] at h; exact key _ h
    | none => rw [hr] at h; cases h

theorem waitStep_seq {dst : Sink} {run : Run} {s t : State} (hs : s.seq ≠ none)
    (h : waitStep dst s run advance = .next t) : t.seq ≠ none := by
  rcases waitStep_next h with ⟨_, rfl⟩ | ⟨rx, _, h⟩
  · exact hs
  · cases dst with
    | discard => rw [advance_next h]; simp
    | toLocal => rw [advance_next h]; simp
    | hostByte => exact andThen_advance_seq h fun u hu => by rw [(memWrite_next hu).2]; exact hs

/-- A primitive frees the port exactly if it responds (10_state.md R45). -/
theorem primStep_seq {run : Run} {s t : State} {x : Prim} (hs : s.seq ≠ none) (h : primStep run s x = .next t) :
    t.seq = none ↔ x.responds = true := by
  have goesOn : ∀ {y : Prim}, y.responds = false → t.seq ≠ none → (t.seq = none ↔ y.responds = true) :=
    fun hy ht => by simp [hy, ht]
  have ends : ∀ {y : Prim}, y.responds = true → t.seq = none → (t.seq = none ↔ y.responds = true) :=
    fun hy ht => by simp [hy, ht]
  cases x with
  | guardEnter =>
    exact goesOn rfl <| andThen_advance_seq h fun u hu => by
      rcases guardEnter_next hu with ⟨_, rfl⟩ | ⟨_, rfl⟩ <;> exact hs
  | guardExit =>
    exact goesOn rfl <| andThen_advance_seq h fun u hu => by
      rcases guardExit_next hu with ⟨_, rfl⟩ | ⟨_, rfl⟩ <;> exact hs
  | selAssert => exact goesOn rfl (by rw [advance_next h]; simp)
  | selDeassert => exact goesOn rfl (by rw [advance_next h]; simp)
  | settle => exact goesOn rfl (by rw [advance_next h]; simp)
  | send src => exact goesOn rfl (sendFrom_seq hs h)
  | sendRound k src => exact goesOn rfl (sendFrom_seq hs h)
  | wait dst => exact goesOn rfl (waitStep_seq hs h)
  | respond v =>
    simp only [primStep, respondStep] at h
    split at h <;> cases h <;> exact ends rfl rfl
  | asyncSelect => exact goesOn rfl (by rw [advance_next h]; simp)
  | asyncArm => cases h; exact ends rfl rfl
  | ctrlWrite => cases h; exact ends rfl rfl
  | ctrlRead => cases h; exact ends rfl rfl
  | statusRead => cases h; exact ends rfl rfl

/-- The rest of a body fits the place at which the command stands. -/
theorem fitsFrom_nextPrim {m : Mode} {run : Run} {x : Prim} (h : nextPrim m run = some x) :
    FitsFrom m run.cmd.op run.cmd.len.toNat (run.spot m) (x :: (bodyOf m run.cmd).drop (run.upc + 1)) := by
  obtain ⟨hlt, hx⟩ := List.getElem?_eq_some_iff.1 h
  rw [← hx, ← List.drop_eq_getElem_cons hlt]
  refine fitsFrom_drop ?_ hlt
  unfold bodyOf at hlt ⊢
  cases hdec : decodeRecord m run.cmd with
  | instr i => exact fitsFrom_body hdec
  | reject e => rw [hdec] at hlt; simp at hlt

/-- A primitive responds exactly if it is the last of its body (10_state.md R58). -/
theorem responds_nextPrim {m : Mode} {run : Run} {x : Prim} (h : nextPrim m run = some x) :
    x.responds = true ↔ run.upc + 1 = (bodyOf m run.cmd).length := by
  have hlt : run.upc < (bodyOf m run.cmd).length := (List.getElem?_eq_some_iff.1 h).1
  obtain ⟨_, hlast, _⟩ := fitsFrom_nextPrim h
  rw [hlast, List.drop_eq_nil_iff]
  omega

/-! ### A whole command as single steps (10_state.md R30, R32) -/

/-- With no fault recorded, the step that takes a command forward is a move of `SEQ` or of `BUS`, whatever is scheduled. -/
theorem forward_event {s : State} (hf : s.fault = none) :
    ∃ e, (e = .sequencer ∨ e = .bus) ∧ ∀ l, runEvent e { s with sched := l } = Result.withSched l (forward s) := by
  cases hh : heldAtWait s with
  | true =>
    refine ⟨.bus, .inr rfl, fun l => ?_⟩
    show busMove { s with sched := l } = _
    rw [busMove_eq_busStep (by exact hf), busStep_withSched, forward, if_pos hh]
  | false =>
    refine ⟨.sequencer, .inl rfl, fun l => ?_⟩
    show seqStep { s with sched := l } = _
    rw [seqStep_withSched, forward, if_neg (by simp [hh])]

/-- One scheduled event, then the events after it. -/
theorem run_event {s t u : State} {e : Event} {l : List Event} {n : Nat} (hf : s.fault = none)
    (h : runEvent e { s with sched := l } = .next u) (hr : Sys2Proof.core.run n u = .next t) :
    Sys2Proof.core.run (n + 1) { s with sched := e :: l } = .next t := by
  rw [run_succ ((step_event e l hf).trans h), hr]

/-- What `drive` reaches, `SEQ` and `BUS` events put before the schedule reach. -/
theorem drive_events {n : Nat} {s t : State} (h : drive n s = .next t) :
    ∃ evs : List Event, (∀ e ∈ evs, e = .sequencer ∨ e = .bus) ∧
      Sys2Proof.core.run evs.length { s with sched := evs ++ s.sched } = .next t := by
  induction n generalizing s with
  | zero => cases h; exact ⟨[], by simp, rfl⟩
  | succ n ih =>
    unfold drive at h
    split at h
    · cases h; exact ⟨[], by simp, rfl⟩
    · next hc =>
      have hf : s.fault = none := by
        simp only [Bool.or_eq_true, not_or] at hc
        simpa using hc.1
      cases hw : forward s with
      | next u =>
        rw [hw] at h
        obtain ⟨evs, hevs, hrun⟩ := ih h
        obtain ⟨e, he, hev⟩ := forward_event hf
        have hsched : u.sched = s.sched := sched_of_withSched (forward_withSched _ s) hw
        refine ⟨e :: evs, by simpa [he] using hevs, run_event hf (u := { u with sched := evs ++ s.sched }) ?_ ?_⟩
        · rw [hev, hw]; rfl
        · rw [← hsched]; exact hrun
      | fault f => rw [hw] at h; cases h
      | refused f => rw [hw] at h; cases h

/-- What a whole command reaches, its issue step and then `SEQ` and `BUS` events reach. -/
theorem runCommand_events {c : Command} {s t : State} (h : runCommand c s = .next t) :
    ∃ evs : List Event, (∀ e ∈ evs, e = .sequencer ∨ e = .bus) ∧
      Sys2Proof.core.run (evs.length + 1) { s with sched := .issue c :: (evs ++ s.sched) } = .next t := by
  obtain ⟨hf, h⟩ := whileRunning_next.1 h
  rcases andThen_next h with ⟨hi, _⟩ | ⟨u, hi, _, hd⟩
  · exact ⟨[], by simp, run_event hf (u := t) hi rfl⟩
  · obtain ⟨evs, hevs, hrun⟩ := drive_events hd
    have hsched : u.sched = s.sched := sched_of_withSched (issue_withSched _ c s) hi
    refine ⟨evs, hevs, run_event hf (u := { u with sched := evs ++ s.sched }) ?_ ?_⟩
    · show issue c { s with sched := evs ++ s.sched } = _
      rw [issue_withSched, hi]; rfl
    · rw [← hsched]; exact hrun

end Sys2Proof.Machine
end

section
/-! SUPPORT. What every move keeps or leaves: the controller's invariant, the form of the bus history, the configuration
and the histories, the interrupt line. -/

namespace Sys2Proof.Machine

/-! ### The controller's invariant and the bus history -/

theorem Keeps.inv {r : Result} {t : State} (h : Keeps r) (ht : r = .next t) : BlockInv t := by
  obtain ⟨u, hu, hinv, _⟩ := h
  rw [ht] at hu; cases hu; exact hinv

theorem CommandMove.keeps_inv {s t : State} (hf : s.fault = none) (h : CommandMove s t) (hI : BlockInv s) :
    BlockInv t := by
  cases h with
  | issue c _ h => exact (keeps_issue c hI hf).inv h
  | sequencer _ h => exact (keeps_seqStep hI hf).inv h
  | bus _ h => exact (keeps_busStep hI hf).inv h

/-- Every move keeps the controller's invariant. -/
theorem Move.keeps_inv {s t : State} (hf : s.fault = none) (h : Move s t) (hI : BlockInv s) : BlockInv t := by
  cases h with
  | command _ h => exact h.keeps_inv hf hI
  | completion _ h => exact (keeps_completionStep hI hf).inv h
  | hostWrite a v _ h =>
    obtain ⟨_, rfl⟩ := memWrite_next h
    exact hI.frame s.trace s.resp s.fault s.trxIrq _ s.prog s.sched s.draws s.guardSaved
  | environment l => exact hI.frame s.trace s.resp s.fault l s.mem s.prog s.sched s.draws s.guardSaved
  | schedule p e d => exact hI.frame s.trace s.resp s.fault s.trxIrq s.mem p e d s.guardSaved

theorem CommandMove.keeps_trace {s t : State} (hf : s.fault = none) (h : CommandMove s t) (hI : BlockInv s)
    (hT : TraceOk s) : TraceOk t := by
  cases h with
  | issue c _ h => exact issue_trace hT h
  | sequencer _ h => exact seqStep_trace hI hT hf h
  | bus _ h => exact busStep_trace hI hT h

/-- Every move from the controller's invariant keeps the form of the bus history. -/
theorem Move.keeps_trace {s t : State} (hf : s.fault = none) (h : Move s t) (hI : BlockInv s) (hT : TraceOk s) :
    TraceOk t := by
  cases h with
  | command _ h => exact h.keeps_trace hf hI hT
  | completion _ h => exact completionStep_trace hI hT hf h
  | hostWrite a v _ h =>
    obtain ⟨_, rfl⟩ := memWrite_next h
    exact hT.same rfl rfl rfl rfl rfl
  | environment l => exact hT.same rfl rfl rfl rfl rfl
  | schedule p e d => exact hT.same rfl rfl rfl rfl rfl

/-! ### What the invariant says of the guard and of chip-select -/

/-- Guards do not nest (43_critical_section_guard.md R183). -/
theorem BlockInv.depth_le_one {s : State} (h : BlockInv s) : s.guardDepth.toNat ≤ 1 := by
  cases hs : s.seq with
  | none => simp [(h.idlePort hs).1]
  | some run => rw [(h.run run hs).depth]; exact (spot_guards s.cfg.mode run).1

/-- While a guard is held the activity interrupt is masked (43_critical_section_guard.md R185). -/
theorem BlockInv.guard_masks {s : State} (h : BlockInv s) (hd : s.guardDepth ≠ 0) : s.actIrqEn = false := by
  cases hs : s.seq with
  | none => exact absurd (h.idlePort hs).1 hd
  | some run =>
    have R := h.run run hs
    refine R.masked ((spot_guards s.cfg.mode run).2 fun hg => hd ?_)
    exact depth_one (R.depth.trans hg)

/-- Chip-select is asserted only for a command in flight or an asynchronous write (10_state.md R54). -/
theorem BlockInv.selected_by {s : State} (h : BlockInv s) (hc : s.cs = true) :
    s.seq ≠ none ∨ s.asyncState = .writing := by
  cases hs : s.seq with
  | some run => exact .inl (by simp)
  | none =>
    cases ha : s.asyncState with
    | writing => exact .inr rfl
    | idle =>
      obtain ⟨hcs, _⟩ := (h.idlePort hs).2 ha
      rw [hc] at hcs; cases hcs

/-! ### The configuration and the histories -/

/-- The configuration stays, and the histories of `s` stand at the front of those of `t` (10_state.md R34, R46). -/
def HistoryExtends (s t : State) : Prop :=
  t.cfg = s.cfg ∧ (∃ es, t.trace = s.trace ++ es) ∧ ∃ rs, t.resp = s.resp ++ rs

theorem HistoryExtends.of_eq {s t : State} (hc : t.cfg = s.cfg) (ht : t.trace = s.trace) (hr : t.resp = s.resp) :
    HistoryExtends s t :=
  ⟨hc, ⟨[], by simp [ht]⟩, ⟨[], by simp [hr]⟩⟩

theorem HistoryExtends.trans {s t u : State} (h1 : HistoryExtends s t) (h2 : HistoryExtends t u) :
    HistoryExtends s u := by
  obtain ⟨c1, ⟨es1, t1⟩, ⟨rs1, r1⟩⟩ := h1
  obtain ⟨c2, ⟨es2, t2⟩, ⟨rs2, r2⟩⟩ := h2
  exact ⟨c2.trans c1, ⟨es1 ++ es2, by simp [t2, t1]⟩, ⟨rs1 ++ rs2, by simp [r2, r1]⟩⟩

theorem CommandMove.historyExtends {s t : State} (h : CommandMove s t) : HistoryExtends s t := by
  cases h with
  | issue c _ h => rcases issue_next h with ⟨f, _, rfl⟩ | ⟨_, rfl⟩ <;> exact .of_eq rfl rfl rfl
  | sequencer _ h =>
    rcases seqStep_next h with ⟨_, rfl⟩ | ⟨run, x, _, _, h⟩
    · exact .of_eq rfl rfl rfl
    · have F := primStep_frame h
      exact ⟨F.cfg, F.trace, F.resp⟩
  | bus _ h =>
    obtain ⟨_, tr, _, _, _, rfl⟩ := busStep_frame h
    exact ⟨rfl, ⟨tr, rfl⟩, ⟨[], by simp⟩⟩

theorem completionStep_historyExtends {s t : State} (hf : s.fault = none) (h : completionStep s = .next t) :
    HistoryExtends s t := by
  rcases completionStep_next hf h with ⟨_, rfl⟩ | ⟨_, _, rfl⟩ | ⟨_, _, _, rfl⟩
  · exact .of_eq rfl rfl rfl
  · exact ⟨by simp, ⟨[.sel false], by simp⟩, ⟨[], by simp⟩⟩
  · exact .of_eq rfl rfl rfl

theorem Move.historyExtends {s t : State} (hf : s.fault = none) (h : Move s t) : HistoryExtends s t := by
  cases h with
  | command _ h => exact h.historyExtends
  | completion _ h => exact completionStep_historyExtends hf h
  | hostWrite a v _ h => obtain ⟨_, rfl⟩ := memWrite_next h; exact .of_eq rfl rfl rfl
  | environment l => exact .of_eq rfl rfl rfl
  | schedule p e d => exact .of_eq rfl rfl rfl

/-! ### The interrupt line -/

theorem CommandMove.trxIrq {s t : State} (h : CommandMove s t) : t.trxIrq = s.trxIrq := by
  obtain ⟨_, _, _, hirq⟩ := h.surroundings
  exact hirq

theorem CommandMoves.trxIrq {s t : State} (h : CommandMoves s t) : t.trxIrq = s.trxIrq :=
  chain_induction (R := fun s t : State => t.trxIrq = s.trxIrq) (fun _ => rfl) (fun _ _ _ h1 h2 => h2.trans h1)
    (fun _ _ _ h => h.trxIrq) h

theorem hostWrite_trxIrq {a : Nat} {v : Byte} {s t : State} (h : hostWrite a v s = .next t) : t.trxIrq = s.trxIrq := by
  obtain ⟨_, rfl⟩ := memWrite_next h; rfl

theorem pollLine_trxIrq {after : List Line} {s t : State} (h : pollLine after s = .next t) : t.trxIrq = s.trxIrq := by
  rcases andThen_next h with ⟨h, _⟩ | ⟨u, h1, _, h2⟩
  · exact (exec_moves h).trxIrq
  · rw [← (exec_moves h1).trxIrq]
    cases h2
    split <;> rfl

theorem mainlineStep_trxIrq {s t : State} (hf : s.fault = none) (h : mainlineStep s = .next t) :
    t.trxIrq = s.trxIrq := by
  unfold mainlineStep at h
  split at h
  · cases h; rfl
  · next c after _ => exact (commandLine_moves (s := { s with prog := after }) hf h).trxIrq
  · next after _ => exact hostWrite_trxIrq (s := { s with prog := after }) h
  · exact pollLine_trxIrq h

theorem completionStep_trxIrq {s t : State} (hf : s.fault = none) (h : completionStep s = .next t) :
    t.trxIrq = s.trxIrq := by
  rcases completionStep_next hf h with ⟨_, rfl⟩ | ⟨_, _, rfl⟩ | ⟨_, _, _, rfl⟩ <;> simp

/-- Only `ENV` writes the interrupt line (10_state.md R48). -/
theorem runEvent_trxIrq {e : Event} {s t : State} (hf : s.fault = none) (h : runEvent e s = .next t)
    (he : ∀ level, e ≠ .environment level) : t.trxIrq = s.trxIrq := by
  cases e with
  | mainline => exact mainlineStep_trxIrq hf h
  | issue c => exact (CommandMove.issue c t h).trxIrq
  | hostWrite a v => exact hostWrite_trxIrq h
  | sequencer => exact (CommandMove.sequencer t h).trxIrq
  | bus => exact (busMove_moves hf h).trxIrq
  | completion => exact completionStep_trxIrq hf h
  | environment l => exact absurd rfl (he l)

/-! ### The writers of the control bits, agent by agent -/

theorem busStep_controlBits {s t : State} (h : busStep s = .next t) :
    t.cs = s.cs ∧ t.actIrqEn = s.actIrqEn ∧ t.cmpIrqEn = s.cmpIrqEn ∧ t.guardDepth = s.guardDepth ∧
      t.guardSaved = s.guardSaved ∧ t.asyncState = s.asyncState ∧ t.asyncRemaining = s.asyncRemaining ∧
      t.asyncCursor = s.asyncCursor ∧ t.seq = s.seq ∧ t.resp = s.resp ∧ t.mem = s.mem ∧ t.trxIrq = s.trxIrq := by
  obtain ⟨_, _, _, _, _, rfl⟩ := busStep_frame h
  exact ⟨rfl, rfl, rfl, rfl, rfl, rfl, rfl, rfl, rfl, rfl, rfl, rfl⟩

theorem issue_writes {c : Command} {s t : State} (h : issue c s = .next t) :
    ∃ r f, t = { s with seq := r, fault := f } := by
  rcases issue_next h with ⟨f, _, rfl⟩ | ⟨_, rfl⟩
  · exact ⟨s.seq, some f, rfl⟩
  · exact ⟨_, s.fault, rfl⟩

theorem hostWrite_writes {a : Nat} {v : Byte} {s t : State} (h : hostWrite a v s = .next t) :
    ∃ m, t = { s with mem := m } ∧ ∀ b, Memory.read m b = if b = a then v else Memory.read s.mem b := by
  obtain ⟨_, rfl⟩ := memWrite_next h
  exact ⟨_, rfl, Memory.read_write s.mem a v⟩

theorem step_hostWrite {a : Nat} {v : Byte} {s : State} {rest : List Event} (hf : s.fault = none)
    (hs : s.sched = .hostWrite a v :: rest) (ha : a < 2 ^ s.cfg.hostAddrWidth) :
    step s = .next { s with sched := rest, mem := Memory.write s.mem a v } :=
  (step_of_sched hf hs).trans (hostWrite_of_lt v ha)

/-- The completion event leaves the guard, the port, the responses and memory; its last branch leaves count and cursor,
its push leaves chip-select and the control bits (45_async_frame_write.md R203, R204). -/
theorem completionStep_writes {s t : State} (hf : s.fault = none) (h : completionStep s = .next t) :
    t.guardDepth = s.guardDepth ∧ t.guardSaved = s.guardSaved ∧ t.seq = s.seq ∧ t.resp = s.resp ∧ t.mem = s.mem ∧
      t.fault = none ∧
      (s.asyncRemaining ≠ 0 → t.cs = s.cs ∧ t.actIrqEn = s.actIrqEn ∧ t.cmpIrqEn = s.cmpIrqEn ∧
        t.asyncState = s.asyncState) ∧
      (s.asyncRemaining = 0 → t.asyncRemaining = s.asyncRemaining ∧ t.asyncCursor = s.asyncCursor) := by
  rcases completionStep_next hf h with ⟨_, rfl⟩ | ⟨_, h0, rfl⟩ | ⟨_, h0, _, rfl⟩
  · simp [hf]
  · simp [hf, h0]
  · exact ⟨rfl, rfl, rfl, rfl, rfl, hf, fun _ => ⟨rfl, rfl, rfl, rfl⟩, fun h => absurd h h0⟩

end Sys2Proof.Machine
end

section
/-! SUPPORT. The statements about the state and the whole machine (10_state.md): each theorem settles one obligation. -/

open Sys2Proof Sys2Proof.Machine

/-- Settles O10: a step is a chain of moves, and each move keeps the invariant. -/
theorem stepKeepsBlockInv : Obligations.StepKeepsBlockInv := by
  intro s t hI h
  exact chain_keeps (fun _ _ hf hm hI => hm.keeps_inv hf hI) (step_moves h) hI

/-- Settles O16: along a step's chain of moves, the invariant and the form of the history are kept together. -/
theorem stepKeepsTransactionForm : Obligations.StepKeepsTransactionForm := by
  intro s t hI hT h
  exact (chain_keeps (P := fun s => BlockInv s ∧ TraceOk s)
    (fun _ _ hf hm ⟨hI, hT⟩ => ⟨hm.keeps_inv hf hI, hm.keeps_trace hf hI hT⟩) (step_moves h) ⟨hI, hT⟩).2

/-- Settles O7: the issue step, then one event for each step that `drive` takes. -/
theorem commandIsSmallSteps : Obligations.CommandIsSmallSteps := by
  intro i c s t rest hi h
  rw [exec_record hi] at h
  exact runCommand_events h

/-- Settles O11: the fields of the invariant, and the guard depth by the bracket structure of the bodies. -/
theorem blockInvGivesTheRules : Obligations.BlockInvGivesTheRules := by
  intro s h
  have hcmp : s.asyncState = .idle → s.cmpIrqEn = false := fun hi => by
    rw [← Bool.not_eq_true, h.cmpIrq, hi]; simp
  refine ⟨fun hb => ⟨h.blocking hb, hcmp (h.blocking hb)⟩, h.cmpIrq, fun hw => ?_, fun hn => (h.idlePort hn).1,
    h.selected_by, h.selected, h.depth_le_one, fun hd => ⟨h.guard_masks hd, by simp [irqOut, h.guard_masks hd]⟩,
    fun ⟨hc, ha⟩ => ?_⟩
  · obtain ⟨hact, hcs, _⟩ := h.writing hw
    exact ⟨hact, hcs⟩
  · rw [(h.writing (h.cmpIrq.1 hc)).1] at ha; cases ha

/-- Settles O15: every move extends the histories and leaves the configuration. -/
theorem stepKeepsConfigurationAndHistory : Obligations.StepKeepsConfigurationAndHistory := by
  intro s t h
  exact chain_induction (R := HistoryExtends) (fun _ => .of_eq rfl rfl rfl) (fun _ _ _ => .trans)
    (fun _ _ hf hm => hm.historyExtends hf) (step_moves h)

/-- Settles O18, agent by agent. -/
theorem writersOfTheControlBits : Obligations.WritersOfTheControlBits := by
  refine ⟨fun _ _ => busStep_controlBits, fun _ _ _ => issue_writes, fun _ _ _ _ => hostWrite_writes,
    fun a v s rest hf hs ha => ⟨_, step_hostWrite hf hs ha, Memory.read_write s.mem a v⟩, fun s t hn h => ?_,
    fun s t run x hs hx h => ?_, fun _ _ => completionStep_writes, fun _ _ _ => runEvent_trxIrq⟩
  · rw [seqStep_idle hn] at h; cases h; rfl
  · rw [seqStep_of_nextPrim hs hx] at h
    have F := primStep_frame h
    exact ⟨F.cs, F.enable, F.guard, F.async⟩

/-- Settles O6: both `step` and `exec` run only while no fault is recorded. -/
theorem faultedStateHasNoStep : Obligations.FaultedStateHasNoStep :=
  fun _ _ h => ⟨whileRunning_halted _ h, fun i => exec_halted i h⟩

/-- Settles O9: after reset the port is idle, the guard is open and no transaction is. -/
theorem resetMeetsBlockInv : Obligations.ResetMeetsBlockInv :=
  fun _ _ _ => .of_respond rfl rfl rfl rfl rfl rfl

/-- Settles O19: the port check comes first. -/
theorem portOverlapFaults : Obligations.PortOverlapFaults :=
  ⟨fun _ _ _ hs => issue_of_issueFault (issueFault_inFlight hs),
    fun _ _ _ _ hi hf hs => exec_of_issueFault hi hf (issueFault_inFlight hs)⟩

/-- Settles O20: the asynchronous checks come before those of the operands. -/
theorem commandsFaultDuringAsyncWrite : Obligations.CommandsFaultDuringAsyncWrite := by
  intro i c s hi hf hs hw
  have hl := legalOp_of_encode hi
  refine ⟨fun ho => ?_, fun ho ho' => exec_of_issueFault hi hf (issueFault_busBusy hs hl hw ho ho')⟩
  have h := exec_of_issueFault hi hf (issueFault_asyncOverlap hs hw ho)
  rw [ho] at h; exact h

/-- Settles O21: each operand check with the ones before it passed. -/
theorem operandFaults : Obligations.OperandFaults := by
  intro i c s hi hf hs hw
  have hl := legalOp_of_encode hi
  refine ⟨fun ho ha => ?_, fun ho => ⟨fun hlen => ?_, fun hlen hb => ?_⟩⟩
  · have hr : addrInRange c.addr = false := by rw [← Bool.not_eq_true, addrInRange_iff]; omega
    exact exec_of_issueFault hi hf (issueFault_addrRange hs hl hw ((usesAddr_iff _).2 ho) hr)
  · exact exec_of_issueFault hi hf (issueFault_zeroLength hs hl hw ((usesBuffer_iff _).2 ho) hlen)
  · have hr : bufferInRange s.cfg c.buf c.len = false := by rw [← Bool.not_eq_true, bufferInRange_iff]; omega
    exact exec_of_issueFault hi hf (issueFault_hostAddrRange hs hl hw ((usesBuffer_iff _).2 ho) hlen hr)

/-- Settles O22: a reserved op decodes to nothing, so mainline's line is the issue step. -/
theorem reservedOpFaults : Obligations.ReservedOpFaults := by
  intro c s ho hf hs
  have hl : legalOp c.op = false := by rw [← Bool.not_eq_true, legalOp_iff]; omega
  refine ⟨issue_of_issueFault (issueFault_reserved hs hl), fun after hp => ?_⟩
  rw [mainlineStep, hp]
  show commandLine c { s with prog := after } = _
  rw [commandLine, decodeRecord_reserved _ ho]
  exact issue_of_issueFault (issueFault_reserved hs hl)

/-- Settles O23: no check fails. -/
theorem acceptedCommandStarts : Obligations.AcceptedCommandStarts := by
  intro c s hs h1 h2 hw ha hb
  have hnone : issueFault c s = none :=
    issueFault_eq_none hs ((legalOp_iff _).2 ⟨h1, h2⟩) hw
      (fun hu => (addrInRange_iff _).2 (ha ((usesAddr_iff _).1 hu)))
      (fun hu => by
        obtain ⟨hlen, hbuf⟩ := hb ((usesBuffer_iff _).1 hu)
        exact ⟨hlen, (bufferInRange_iff _ _ _).2 hbuf⟩)
  rw [issue, hnone]; rfl

/-- Settles O52: each responding primitive at its place, and a primitive responds exactly if it is the last. -/
theorem respondRule : Obligations.RespondRule := by
  intro s run hs
  refine ⟨fun hx => ?_, fun r hr hx => ?_, fun r hr hx => ?_, fun hx => ?_, fun hx => ?_, fun hx => ?_, fun hx => ?_,
    fun t ht => ?_⟩
  · rw [seqStep_of_nextPrim hs hx]; rfl
  · rw [seqStep_of_nextPrim hs hx]; simp only [primStep, respondStep, hr]; rfl
  · rw [seqStep_of_nextPrim hs hx]; simp only [primStep, respondStep, hr]; rfl
  · rw [seqStep_of_nextPrim hs hx]; rfl
  · rw [seqStep_of_nextPrim hs hx]; rfl
  · have hctrl : ctrlByte s = if s.actIrqEn then 0x01 else 0x00 := by cases he : s.actIrqEn <;> simp [ctrlByte, bit, he]
    rw [seqStep_of_nextPrim hs hx, primStep, hctrl]; rfl
  · rw [seqStep_of_nextPrim hs hx]; rfl
  · rcases seqStep_next ht with ⟨hn, _⟩ | ⟨run', x, hs', hx, h⟩
    · rw [hs] at hn; cases hn
    · rw [hs] at hs'; cases hs'
      rw [primStep_seq (by simp [hs]) h, responds_nextPrim hx]

/-- Settles O59: the output is computed from the line and the enable as they stand. -/
theorem activityInterruptIsForwarded : Obligations.ActivityInterruptIsForwarded := by
  intro s level rest hf hs
  refine ⟨step_of_sched hf hs, ?_⟩
  cases s.actIrqEn <;> simp [irqOut]

end

section
/-! SUPPORT. What one step of `SEQ` and one step of `BUS` answer at the bus primitives and at each phase of the reference
peer (20_memory.md R72–R96), and that no agent but `BUS` ends the shifting of a byte. -/

namespace Sys2Proof.Machine

/-! ### Chip-select (20_memory.md R76, R77) -/

/-- A primitive that ends with a chip-select event, whichever the peer: the reference peer's phase follows the level, the
unconstrained peer moves freely (20_memory.md R86, R87). -/
theorem advance_onSel (level : Bool) (run : Run) (s : State) : ∃ p n,
    advance run (onSel level s) = .next { s with seq := some { run with upc := run.upc + 1 }, peer := p, draws := n } ∧
    (s.cfg.peerKind = .reference → p = { s.peer with ph := if level then .cmd else .idle } ∧ n = s.draws) := by
  obtain ⟨p, n, he, hp⟩ := onSel_eq level s
  exact ⟨p, n, by rw [he]; rfl, hp⟩

/-! ### `SEND` and `WAIT` (20_memory.md R72, R73, R78, R79) -/

/-- `MemRead` at an address of host memory (20_memory.md R72). -/
theorem withMemRead_of_lt {a : Nat} {s : State} (k : Byte → Result) (h : a < s.cfg.hostSize) :
    withMemRead a s k = k (Memory.read s.mem a) :=
  if_pos (decide_eq_true h)

/-- `MemWrite` at an address of host memory (20_memory.md R73). -/
theorem memWrite_of_lt {a : Nat} {s : State} (v : Byte) (h : a < s.cfg.hostSize) :
    memWrite a v s = .next { s with mem := Memory.write s.mem a v } :=
  hostWrite_of_lt v h

/-- A `SEND` with the shifter taken is the fault and nothing else (20_memory.md R78). -/
theorem send_of_not_idle {b : Byte} {s : State} (h : s.shifter ≠ .idle) :
    send b s = .next { s with fault := some ⟨.shifterBusy, b.toNat⟩ } := by
  unfold send
  split
  · next hi => exact absurd hi h
  · rfl

/-- A `SEND` of a body with the shifter taken, its source holding byte `b`. -/
theorem sendFrom_of_not_idle {s : State} {run : Run} {src : Source} {b : Byte} (h : s.shifter ≠ .idle)
    (hb : ∀ k, withSource src run s k = k b) :
    sendFrom src run s = .next { s with fault := some ⟨.shifterBusy, b.toNat⟩ } := by
  rw [sendFrom, hb, send_of_not_idle h]; rfl

/-- A `WAIT` holds where the done latch is empty (20_memory.md R79; log 4). -/
theorem waitStep_held {dst : Sink} {s : State} {run : Run} {k : Run → State → Result}
    (h : ∀ rx, s.shifter ≠ .done rx) : waitStep dst s run k = .next s := by
  unfold waitStep
  split
  · next rx hrx => exact absurd hrx (h rx)
  · rfl

/-- A `WAIT` takes the byte of the done latch (20_memory.md R79). -/
theorem waitStep_done {dst : Sink} {s : State} {run : Run} {k : Run → State → Result} {rx : Byte}
    (h : s.shifter = .done rx) : waitStep dst s run k = withSink dst rx run { s with shifter := .idle } k := by
  rw [waitStep, h]

/-- The sink in host memory, at an address it has (20_memory.md R73). -/
theorem withSink_hostByte {rx : Byte} {run : Run} {s : State} (k : Run → State → Result) (hf : s.fault = none)
    (h : bufferAddr run.cmd.buf run.i < s.cfg.hostSize) :
    withSink .hostByte rx run s k = k run { s with mem := Memory.write s.mem (bufferAddr run.cmd.buf run.i) rx } := by
  rw [withSink, memWrite_of_lt rx h]
  exact andThen_of_none _ hf

/-! ### The byte in the shifter stays while `BUS` does not move (20_memory.md R79) -/

/-- What an operation leaves of the shifter, going on with the body leaves. -/
theorem andThen_advance_shifter {r : Result} {run : Run} {t : State} {sh : Shifter}
    (h : andThen r (advance run) = .next t) (hr : ∀ u, r = .next u → u.shifter = sh) : t.shifter = sh := by
  rcases andThen_next h with ⟨h1, _⟩ | ⟨u, h1, _, h2⟩
  · exact hr t h1
  · rw [advance_next h2]; exact hr u h1

/-- A `SEND` while a byte is shifting leaves the byte there: it can only fault. -/
theorem sendFrom_keeps_busy {src : Source} {run : Run} {s t : State} {tx : Byte} (hs : s.shifter = .busy tx)
    (h : sendFrom src run s = .next t) : t.shifter = .busy tx := by
  have key : ∀ b, andThen (send b s) (advance run) = .next t → t.shifter = .busy tx := fun b hb =>
    andThen_advance_shifter hb fun u hu => by
      rw [send_of_not_idle (by simp [hs])] at hu; cases hu; exact hs
  cases src with
  | byte b => exact key b h
  | hostByte => exact key _ (withMemRead_next (k := fun b => andThen (send b s) (advance run)) h).2
  | merged =>
    simp only [sendFrom, withSource] at h
    cases hr : run.r with
    | some r => rw [hr] at h; exact key _ h
    | none => rw [hr] at h; cases h

/-- No primitive ends the shifting of a byte. -/
theorem primStep_keeps_busy {run : Run} {s t : State} {x : Prim} {tx : Byte} (hs : s.shifter = .busy tx)
    (h : primStep run s x = .next t) : t.shifter = .busy tx := by
  cases x with
  | guardEnter =>
    exact andThen_advance_shifter h fun u hu => by rcases guardEnter_next hu with ⟨_, rfl⟩ | ⟨_, rfl⟩ <;> exact hs
  | guardExit =>
    exact andThen_advance_shifter h fun u hu => by rcases guardExit_next hu with ⟨_, rfl⟩ | ⟨_, rfl⟩ <;> exact hs
  | selAssert => rw [advance_next h]; simpa using hs
  | selDeassert => rw [advance_next h]; simpa using hs
  | settle => rw [advance_next h]; exact hs
  | send src => exact sendFrom_keeps_busy hs h
  | sendRound k src => exact sendFrom_keeps_busy hs h
  | wait dst =>
    rw [primStep, waitStep_held (by simp [hs])] at h
    cases h; exact hs
  | respond v =>
    simp only [primStep, respondStep] at h
    split at h <;> cases h <;> exact hs
  | asyncSelect => rw [advance_next h]; simpa using hs
  | asyncArm => cases h; exact hs
  | ctrlWrite => cases h; exact hs
  | ctrlRead => cases h; exact hs
  | statusRead => cases h; exact hs

/-- `STATUS_READ` run whole makes no bus move: it fails its issue check or responds (46_control_status.md R217). -/
theorem exec_statusRead_shifter {s t : State} (h : exec .statusRead s = .next t) : t.shifter = s.shifter := by
  have hi : encode .statusRead = .record .statusRead := rfl
  rw [exec_record hi] at h
  obtain ⟨hf, _⟩ := whileRunning_next.1 h
  cases hc : issueFault .statusRead s with
  | some f => rw [runCommand_of_issueFault hf hc] at h; cases h; rfl
  | none => rw [runCommand_of_single hf hc rfl (by simp) rfl rfl] at h; cases h; rfl

/-- The poll takes its line off the program or keeps it; the shifter it leaves (30_encoding.md R135). -/
theorem pollLine_shifter {after : List Line} {s t : State} (h : pollLine after s = .next t) : t.shifter = s.shifter := by
  rcases andThen_next h with ⟨h, _⟩ | ⟨u, h1, _, h2⟩
  · exact exec_statusRead_shifter h
  · rw [← exec_statusRead_shifter h1]
    cases h2
    split <;> rfl

/-- A move of mainline whose next line is no command leaves the shifter. -/
theorem mainlineStep_shifter {s t : State} (hp : ∀ c after, s.prog ≠ .command c :: after)
    (h : mainlineStep s = .next t) : t.shifter = s.shifter := by
  unfold mainlineStep at h
  split at h
  · cases h; rfl
  · next c after hc => exact absurd hc (hp c after)
  · next a v after _ =>
    obtain ⟨_, rfl⟩ := memWrite_next (s := { s with prog := after }) h
    rfl
  · exact pollLine_shifter h

/-- The completion event waits for the done latch: while a byte is shifting it holds (45_async_frame_write.md R202). -/
theorem completionStep_of_busy {s : State} {tx : Byte} (hs : s.shifter = .busy tx) : completionStep s = .next s := by
  have he : completionEnabled s = false := by simp [completionEnabled, completionPending, hs]
  rw [completionStep, he]; rfl

/-- No move but `BUS` ends the shifting of a byte, a command of mainline's program aside (log 3). -/
theorem runEvent_keeps_busy {e : Event} {s t : State} {tx : Byte} (hs : s.shifter = .busy tx)
    (h : runEvent e s = .next t) (hb : e ≠ .bus) (hp : e = .mainline → ∀ c after, s.prog ≠ .command c :: after) :
    t.shifter = .busy tx := by
  cases e with
  | mainline => exact (mainlineStep_shifter (hp rfl) h).trans hs
  | issue c => rcases issue_next h with ⟨f, _, rfl⟩ | ⟨_, rfl⟩ <;> exact hs
  | hostWrite a v => obtain ⟨_, rfl⟩ := memWrite_next h; exact hs
  | sequencer =>
    rcases seqStep_next h with ⟨_, rfl⟩ | ⟨run, x, _, _, h⟩
    · exact hs
    · exact primStep_keeps_busy hs h
  | bus => exact absurd rfl hb
  | completion => cases (completionStep_of_busy hs).symm.trans h; exact hs
  | environment l => cases h; exact hs

/-! ### The `BUS` step with the reference peer (20_memory.md R82, R88–R96) -/

/-- The reference peer answers: the byte is done. -/
theorem busStep_of_exchange_answer {s : State} {tx rx : Byte} {p : Peer} (hk : s.cfg.peerKind = .reference)
    (hs : s.shifter = .busy tx) (he : exchange s.cfg s.peer tx (Config.freeByte s.draws) = .answer rx p) :
    busStep s = .next (byteDone tx rx p s) := by
  rw [busStep_reference hs hk, he]

/-- The reference peer faults: the fault is recorded and nothing else. -/
theorem busStep_of_exchange_raises {s : State} {tx : Byte} {code : FaultCode} {info : Nat}
    (hk : s.cfg.peerKind = .reference) (hs : s.shifter = .busy tx)
    (he : exchange s.cfg s.peer tx (Config.freeByte s.draws) = .raises code info) :
    busStep s = .next { s with fault := some ⟨code, info⟩ } := by
  rw [busStep_reference hs hk, he]; rfl

section
variable {cfg : Params} {peer : Peer} {tx d : Byte}

theorem exchange_cmd_reserved (h : peer.ph = .cmd) (hc : commandPhase tx = none) :
    exchange cfg peer tx d = .raises .reservedCmd tx.toNat := by
  simp only [exchange, h, hc]

theorem exchange_regw {a : RegAddr} (h : peer.ph = .regw a) :
    exchange cfg peer tx d = .answer d { peer with regs := Cells.put peer.regs a.toNat tx, ph := .done } := by
  simp only [exchange, h]

theorem exchange_regr {a : RegAddr} (h : peer.ph = .regr a) :
    exchange cfg peer tx d =
      .answer (if a ∈ cfg.sideEffectRegs then d else (Cells.get peer.regs a.toNat).getD d) { peer with ph := .done } := by
  simp only [exchange, h, List.contains_iff_mem]

theorem exchange_fbw {k : Nat} (h : peer.ph = .fbw k) :
    exchange cfg peer tx d = if k < cfg.frameBufferSize then
      .answer d { peer with fb := Cells.put peer.fb k tx, ph := .fbw (k + 1) } else .raises .peerRange k := by
  simp only [exchange, h]

theorem exchange_fbr {k : Nat} (h : peer.ph = .fbr k) :
    exchange cfg peer tx d = if k < cfg.frameBufferSize then
      .answer ((Cells.get peer.fb k).getD d) { peer with ph := .fbr (k + 1) } else .raises .peerRange k := by
  simp only [exchange, h]

theorem exchange_srwOff (h : peer.ph = .srwOff) :
    exchange cfg peer tx d = .answer d { peer with ph := .srw tx.toNat } := by
  simp only [exchange, h]

theorem exchange_srrOff (h : peer.ph = .srrOff) :
    exchange cfg peer tx d = .answer d { peer with ph := .srr tx.toNat } := by
  simp only [exchange, h]

theorem exchange_srw {a : Nat} (h : peer.ph = .srw a) :
    exchange cfg peer tx d = if a < cfg.sramSize then
      .answer d { peer with sram := Cells.put peer.sram a tx, ph := .srw (a + 1) } else .raises .peerRange a := by
  simp only [exchange, h]

theorem exchange_srr {a : Nat} (h : peer.ph = .srr a) :
    exchange cfg peer tx d = if a < cfg.sramSize then
      .answer ((Cells.get peer.sram a).getD d) { peer with ph := .srr (a + 1) } else .raises .peerRange a := by
  simp only [exchange, h]

theorem exchange_done (h : peer.ph = .done) : exchange cfg peer tx d = .answer d peer := by
  simp only [exchange, h]

end

/-- A phase of a stream: the byte at place `k` is answered below the end `n` of the store, and refused with `PEER_RANGE`
at the end (20_memory.md R91–R95). -/
theorem busStep_stream {s : State} {tx rx : Byte} {p : Peer} {k n : Nat} (hk : s.cfg.peerKind = .reference)
    (hs : s.shifter = .busy tx) (he : exchange s.cfg s.peer tx (Config.freeByte s.draws) =
      if k < n then .answer rx p else .raises .peerRange k) :
    (k < n → busStep s = .next (byteDone tx rx p s)) ∧
      (n ≤ k → busStep s = .next { s with fault := some ⟨.peerRange, k⟩ }) :=
  ⟨fun h => busStep_of_exchange_answer hk hs (he.trans (if_pos h)),
    fun h => busStep_of_exchange_raises hk hs (he.trans (if_neg (by omega)))⟩

/-! ### Command bytes (20_memory.md R88, 30_encoding.md R122, R128) -/

/-- A byte with bit 7 at 0 and bits 4:0 not 0 leads to no phase (30_encoding.md R128). -/
theorem commandPhase_reserved {tx : Byte} : tx.getLsbD 7 = false → tx.extractLsb' 0 5 ≠ 0#5 → commandPhase tx = none := by
  revert tx; decide

/-- Completing a command byte that is there is the `BUS` step (log 13). -/
theorem completeCommandByte_of_ready {tx : Byte} {s : State} (hf : s.fault = none) (hs : s.shifter = .busy tx)
    (hp : s.cfg.peerKind = .reference → s.peer.ph = .cmd) : completeCommandByte tx s = busStep s := by
  have hr : commandByteReady tx s = true := by
    cases hk : s.cfg.peerKind with
    | reference => simp [commandByteReady, hs, hp hk]
    | unconstrained => simp [commandByteReady, hs, hk]
  rw [completeCommandByte, whileRunning_of_none _ hf, if_pos hr]

/-- Both peers answer a command byte with the free byte; the reference peer enters the byte's phase, the unconstrained one
a free state (20_memory.md R86, R88). -/
theorem peerAnswer_commandByte {cfg : Params} {peer : Peer} {tx : Byte} {ph : Phase} (draws : Nat)
    (hc : commandPhase tx = some ph) (hp : cfg.peerKind = .reference → peer.ph = .cmd) :
    peerAnswer cfg draws peer tx = some (Config.freeByte draws,
      if cfg.peerKind = .reference then { peer with ph := ph } else Config.freePeer draws) := by
  cases hk : cfg.peerKind with
  | reference => simp [peerAnswer, hk, exchange, hp hk, hc]
  | unconstrained => simp [peerAnswer, hk]

end Sys2Proof.Machine
end

section
/-! SUPPORT. The statements about host memory, the bus primitives and the peer (20_memory.md): each theorem settles one
obligation. -/

open Sys2Proof Sys2Proof.Machine

/-- Settles O36: each form's byte leads to its phase, and both peers answer it. -/
theorem commandByteEffect : Obligations.CommandByteEffect := by
  intro i b ph s hform he hf hs hp
  have hc : commandPhase b = some ph := by
    rcases hform with ⟨a, rfl, rfl⟩ | ⟨a, rfl, rfl⟩ | ⟨rfl, rfl⟩ | ⟨rfl, rfl⟩ | ⟨rfl, rfl⟩ | ⟨rfl, rfl⟩ <;> cases he
    · exact commandPhase_regWriteByte a
    · exact commandPhase_regReadByte a
    · exact commandPhase_frameWriteByte
    · exact commandPhase_frameReadByte
    · exact commandPhase_sramWriteByte
    · exact commandPhase_sramReadByte
  rw [exec_byte he, completeCommandByte_of_ready hf hs hp]
  exact busStep_of_answer hs (peerAnswer_commandByte s.draws hc hp)

/-- Settles O50: step 1 of the asynchronous start is the same primitive after `act_irq_en` is cleared. -/
theorem selAssertRule : Obligations.SelAssertRule := by
  intro s run x hs hx hsel
  rw [seqStep_of_nextPrim hs hx]
  rcases hsel with rfl | rfl
  · exact advance_onSel true run { s with cs := true, trace := s.trace ++ [.sel true] }
  · exact advance_onSel true run { s with actIrqEn := false, cs := true, trace := s.trace ++ [.sel true] }

/-- Settles O51: the one ends with a chip-select event, the other only appends its delay. -/
theorem selDeassertAndSettleRules : Obligations.SelDeassertAndSettleRules := by
  intro s run hs
  refine ⟨fun hx => ?_, fun hx => ?_⟩
  · rw [seqStep_of_nextPrim hs hx]
    exact advance_onSel false run { s with cs := false, trace := s.trace ++ [.sel false] }
  · rw [seqStep_of_nextPrim hs hx]; rfl

/-- Settles O53: each source holds the byte, and the step is the `SEND` of it with `i` as this step has it. -/
theorem sendRule : Obligations.SendRule := by
  intro s run x src i b hf hs hx hprim hsrc
  have hstep : seqStep s = sendFrom src { run with i := i } s := by
    rw [seqStep_of_nextPrim hs hx]
    rcases hprim with ⟨rfl, rfl⟩ | ⟨k, rfl, rfl⟩ <;> rfl
  have hb : ∀ k, withSource src { run with i := i } s k = k b := by
    intro k
    rcases hsrc with rfl | ⟨rfl, hlt, rfl⟩ | ⟨rfl, r, hr, rfl⟩
    · rfl
    · exact withMemRead_of_lt k hlt
    · simp only [withSource, hr]; rfl
  rw [hstep]
  exact ⟨fun hi => sendFrom_idle hf hi hb, fun hi => sendFrom_of_not_idle hi hb⟩

/-- Settles O54: the hold, the three sinks, and the moves of the other agents. -/
theorem waitRule : Obligations.WaitRule := by
  refine ⟨fun s run dst hs hx hd => ?_, fun s run rx hf hs hd => ⟨fun hx => ?_, fun hx => ?_, fun hx hlt => ?_⟩,
    fun s t tx e hs h => runEvent_keeps_busy hs h⟩
  · rw [seqStep_of_nextPrim hs hx]; exact waitStep_held hd
  · rw [seqStep_of_nextPrim hs hx]; exact waitStep_done hd
  · rw [seqStep_of_nextPrim hs hx]; exact waitStep_done hd
  · refine ⟨_, ?_, Memory.read_write s.mem _ rx⟩
    rw [seqStep_of_nextPrim hs hx]
    exact (waitStep_done hd).trans (withSink_hostByte (s := { s with shifter := .idle }) advance hf hlt)

/-- Settles O55: whichever byte it is, the move is the `BUS` step. -/
theorem busStepRule : Obligations.BusStepRule := by
  intro s tx rest hf hs hsched
  have hstep : step s = busStep { s with sched := rest } := by
    rw [step_of_sched hf hsched]
    exact busMove_eq_busStep (s := { s with sched := rest }) hf
  rw [hstep]
  exact ⟨fun rx p hk he => busStep_of_exchange_answer (s := { s with sched := rest }) hk hs he,
    fun hk => ⟨_, _, busStep_unconstrained (s := { s with sched := rest }) hs hk⟩⟩

/-- Settles O56, phase by phase. -/
theorem referencePeerDataRules : Obligations.ReferencePeerDataRules := by
  intro s tx hk hs d answers faults
  have answered : ∀ {rx : Byte} {p : Peer}, exchange s.cfg s.peer tx d = .answer rx p → answers rx p :=
    busStep_of_exchange_answer hk hs
  exact ⟨fun a h => answered (exchange_regw h),
    fun a h hn => answered ((exchange_regr h).trans (by rw [if_neg hn])),
    fun a h hm => answered ((exchange_regr h).trans (by rw [if_pos hm])),
    fun k h => busStep_stream hk hs (exchange_fbw h),
    fun k h => busStep_stream hk hs (exchange_fbr h),
    fun h => answered (exchange_srwOff h),
    fun h => answered (exchange_srrOff h),
    fun a h => busStep_stream hk hs (exchange_srw h),
    fun a h => busStep_stream hk hs (exchange_srr h),
    fun h => answered (exchange_done h)⟩

/-- Settles O57: a reserved byte leads to no phase. -/
theorem reservedCommandByteFaults : Obligations.ReservedCommandByteFaults := by
  intro s tx hk hs hp h7 h5
  exact busStep_of_exchange_raises hk hs (exchange_cmd_reserved hp (commandPhase_reserved h7 h5))

/-- Settles O58: the address is in range, and a read after a write is of the byte written or of the old one. -/
theorem memWriteRule : Obligations.MemWriteRule :=
  fun a v s h => ⟨_, memWrite_of_lt v h, Memory.read_write s.mem a v⟩

end

section
/-! SUPPORT. The encoder and the two decoders undo each other (30_encoding.md R122, R131), which records decode, and what
`STATUS_READ` answers to the poll (R135). -/

namespace Sys2Proof.Machine

/-! ### The command byte -/

/-- A command byte decodes to its instruction: `encode_of_decodeByte` read the other way. -/
theorem decodeByte_of_encode {i : Instr} {b : Byte} (h : encode i = .byte b) : decodeByte b = .instr i := by
  cases i with
  | busRegWrite addr => cases h; exact decodeByte_regWriteByte addr
  | busRegRead addr => cases h; exact decodeByte_regReadByte addr
  | busFrameWrite => cases h; rfl
  | busFrameRead => cases h; rfl
  | busSramWrite => cases h; rfl
  | busSramRead => cases h; rfl
  | _ => cases h

/-- A byte is rejected by one name only (30_encoding.md R128). -/
theorem eq_reserved_of_decodeByte_reject {b : Byte} {e : DecodeError} (h : decodeByte b = .reject e) :
    e = .reservedCommandByte b := by
  unfold decodeByte at h
  split_ifs at h
  cases h; rfl

/-! ### The host record -/

/-- The record of an instruction of this `MODE` decodes to it (30_encoding.md R131; log 7). -/
theorem decodeRecord_of_encode {m : Mode} {i : Instr} {c : Command} (hm : i.inMode m = true)
    (h : encode i = .record c) : decodeRecord m c = .instr i := by
  cases i with
  | frameWriteBlocking buf len => obtain rfl := of_decide_eq_true hm; cases h; rfl
  | frameWriteNonblocking buf len => obtain rfl := of_decide_eq_true hm; cases h; rfl
  | _ => cases h <;> rfl

/-- What a record decodes to is of this `MODE`, and its own record has the same op (30_encoding.md R131). -/
theorem encode_of_decodeRecord {m : Mode} {c : Command} {i : Instr} (h : decodeRecord m c = .instr i) :
    i.inMode m = true ∧ ∃ c', encode i = .record c' ∧ c'.op = c.op := by
  rcases decodeRecord_cases h with ⟨ho, rfl⟩ | ⟨ho, rfl⟩ | ⟨ho, rfl, rfl⟩ | ⟨ho, rfl, rfl⟩ | ⟨ho, rfl⟩ | ⟨ho, rfl⟩ |
    ⟨ho, rfl⟩ | ⟨ho, rfl⟩ | ⟨ho, rfl⟩ | ⟨ho, rfl⟩ | ⟨ho, rfl⟩ | ⟨ho, rfl⟩ <;> exact ⟨rfl, _, rfl, ho.symm⟩

/-- Exactly the records of a legal op decode: a legal op has a body, and a reserved one decodes to nothing
(30_encoding.md R131, R132). -/
theorem exists_decodeRecord_iff (m : Mode) (c : Command) :
    (∃ i, decodeRecord m c = .instr i) ↔ legalOp c.op = true := by
  constructor
  · rintro ⟨i, hi⟩
    obtain ⟨_, c', hc', hop⟩ := encode_of_decodeRecord hi
    exact hop ▸ legalOp_of_encode hc'
  · intro hl
    cases hd : decodeRecord m c with
    | instr i => exact ⟨i, rfl⟩
    | reject e => exact absurd (bodyOf_length_pos m hl) (by simp [bodyOf, hd])

/-- Decoding reads no field but the op and those the op uses (30_encoding.md R130). -/
theorem decodeRecord_congr (m : Mode) {c c' : Command} (hop : c.op = c'.op)
    (haddr : usesAddr c.op = true → c.addr = c'.addr)
    (hvalue : c.op = 0x1#4 ∨ c.op = 0x8#4 ∨ c.op = 0x9#4 → c.value = c'.value)
    (hfield : c.op = 0x7#4 ∨ c.op = 0x8#4 → c.mask = c'.mask ∧ c.pos = c'.pos)
    (hoffset : c.op = 0x5#4 ∨ c.op = 0x6#4 → c.offset = c'.offset)
    (hbuffer : usesBuffer c.op = true → c.len = c'.len ∧ c.buf = c'.buf) :
    decodeRecord m c = decodeRecord m c' := by
  rw [usesAddr_iff] at haddr
  rw [usesBuffer_iff] at hbuffer
  unfold decodeRecord
  rw [← hop]
  refine ite_congr rfl (fun h1 => ?_) fun _ => ite_congr rfl (fun h2 => ?_) fun _ =>
    ite_congr rfl (fun h3 => ?_) fun _ => ite_congr rfl (fun h4 => ?_) fun _ => ite_congr rfl (fun h5 => ?_) fun _ =>
    ite_congr rfl (fun h6 => ?_) fun _ => ite_congr rfl (fun h7 => ?_) fun _ => ite_congr rfl (fun h8 => ?_) fun _ =>
    ite_congr rfl (fun h9 => ?_) fun _ => rfl
  · rw [haddr (.inl h1), hvalue (.inl h1)]
  · rw [haddr (.inr (.inl h2))]
  · obtain ⟨hlen, hbuf⟩ := hbuffer (.inl h3)
    rw [hlen, hbuf]
  · obtain ⟨hlen, hbuf⟩ := hbuffer (.inr (.inl h4))
    rw [hlen, hbuf]
  · obtain ⟨hlen, hbuf⟩ := hbuffer (.inr (.inr (.inl h5)))
    rw [hoffset (.inl h5), hlen, hbuf]
  · obtain ⟨hlen, hbuf⟩ := hbuffer (.inr (.inr (.inr h6)))
    rw [hoffset (.inr h6), hlen, hbuf]
  · obtain ⟨hmask, hpos⟩ := hfield (.inl h7)
    rw [haddr (.inr (.inr (.inl h7))), hmask, hpos]
  · obtain ⟨hmask, hpos⟩ := hfield (.inr h8)
    rw [haddr (.inr (.inr (.inr h8))), hmask, hpos, hvalue (.inr (.inl h8))]
  · rw [hvalue (.inr (.inr h9))]

/-! ### The poll -/

/-- Bit 0 of `STATUS` is `ASYNC_BUSY` (10_state.md R50). -/
theorem statusByte_bit0 (s : State) : (statusByte s).getLsbD 0 = decide (s.asyncState = .writing) := by
  rw [statusByte, BitVec.getLsbD_append]
  cases s.asyncState <;> simp [bit]

/-- `STATUS_READ` is accepted while an asynchronous write runs too, and only appends its response (46_control_status.md
R217, 45_async_frame_write.md R206). -/
theorem exec_statusRead {s : State} (hf : s.fault = none) (hs : s.seq = none) :
    exec .statusRead s = .next { s with resp := s.resp ++ [⟨0xB, some (statusByte s)⟩] } := by
  have hi : encode .statusRead = .record .statusRead := rfl
  have hc : issueFault .statusRead s = none :=
    issueFault_eq_none hs rfl (fun _ => rfl) (fun h => by cases h) (fun h => by cases h)
  have ht : respond 0xB (some (statusByte s)) s = { s with resp := s.resp ++ [⟨0xB, some (statusByte s)⟩] } := by
    rw [respond, ← hs]
  rw [exec_record hi, ← ht]
  exact runCommand_of_single hf hc rfl (by simp) rfl rfl

/-- The poll reads the answer of the response appended last (30_encoding.md R135). -/
theorem answeredBusy_append (s : State) (op : OpCode) (v : Byte) :
    answeredBusy { s with resp := s.resp ++ [⟨op, some v⟩] } = v.getLsbD 0 := by
  simp [answeredBusy]

/-- The poll takes itself off the program exactly if no asynchronous write runs (30_encoding.md R135). -/
theorem pollLine_of_idlePort {s : State} (after : List Line) (hf : s.fault = none) (hs : s.seq = none) :
    pollLine after s = .next { s with
      prog := if s.asyncState = .writing then s.prog else after
      resp := s.resp ++ [⟨0xB, some (statusByte s)⟩] } := by
  rw [pollLine, Pseudo.command, exec_statusRead hf hs, andThen_of_none _ (by exact hf), answeredBusy_append,
    statusByte_bit0]
  by_cases h : s.asyncState = .writing <;> simp [h]

end Sys2Proof.Machine
end

section
/-! SUPPORT. The statements about the encodings and the poll (30_encoding.md): each theorem settles one obligation. -/

open Sys2Proof Sys2Proof.Machine

/-- Settles O1: a byte and a record each decode to the instruction they encode. -/
theorem decodeOfEncode : Obligations.DecodeOfEncode := by
  intro p i _ hm
  cases he : encode i with
  | byte b => exact decodeByte_of_encode he
  | record c => exact decodeRecord_of_encode hm he

/-- Settles O2: the encoder and the byte decoder undo each other, and what does not decode has one name. -/
theorem onlyTheSixByteFormsDecode : Obligations.OnlyTheSixByteFormsDecode := by
  refine ⟨fun b i => ⟨encode_of_decodeByte, decodeByte_of_encode⟩, fun b h => ?_⟩
  cases hd : decodeByte b with
  | instr i => exact absurd (encode_of_decodeByte hd) (h i)
  | reject e => rw [eq_reserved_of_decodeByte_reject hd]

/-- Settles O3: the legal ops decode, by their own fields, and the encoder keeps the op. -/
theorem recordDecodesByItsOp : Obligations.RecordDecodesByItsOp := by
  refine ⟨fun m c => (exists_decodeRecord_iff m c).trans (legalOp_iff c.op), fun m _ _ => decodeRecord_congr m,
    fun m c i hi => ?_⟩
  obtain ⟨hm, c', hc', hop⟩ := encode_of_decodeRecord hi
  exact ⟨c', hc', hop, decodeRecord_of_encode hm hc'⟩

/-- Settles O4: each word is the code of what it stands for, and op 0xC is reserved. -/
theorem tableWordsDecode : Obligations.TableWordsDecode :=
  ⟨decodeByte_of_encode rfl, decodeByte_of_encode rfl, decodeByte_of_encode rfl, decodeByte_of_encode rfl,
    decodeByte_of_encode rfl, decodeByte_of_encode rfl, decodeRecord_of_encode rfl rfl, decodeRecord_of_encode rfl rfl,
    decodeRecord_of_encode rfl rfl, decodeRecord_of_encode rfl rfl, decodeRecord_reserved _ (.inr (by decide))⟩

/-- Settles O60: mainline's move is the poll, whose `STATUS_READ` is accepted whether or not a write runs. -/
theorem pollIdleRule : Obligations.PollIdleRule := by
  intro s rest after hf hs hsched hprog
  have hmain : step s = pollLine after { s with sched := rest } := by
    rw [step_of_sched hf hsched, runEvent, mainlineStep, hprog]
  rw [hmain, pollLine_of_idlePort after (by exact hf) (by exact hs), hprog]
  rfl

end

section
/-! SUPPORT. What the commands with a register address share: the operand as the command byte and the peer read it, the
issue check, and the state after one transaction and its response. -/

namespace Sys2Proof.Machine

/-! ### The address operand (30_encoding.md R123) -/

theorem addrLow_toNat {addr : Byte} (h : addr.toNat < 0x40) : (addrLow addr).toNat = addr.toNat := by
  rw [addrLow, BitVec.extractLsb'_toNat, Nat.shiftRight_zero]
  exact Nat.mod_eq_of_lt h

/-- A register address fills its field of the command byte unchanged. -/
theorem regField_addrLow {addr : Byte} (h : addr.toNat < 0x40) : regField (addrLow addr) = addr := by
  apply BitVec.eq_of_toNat_eq
  rw [regField, BitVec.toNat_setWidth, addrLow_toNat h]
  exact Nat.mod_eq_of_lt addr.isLt

theorem regWriteByte_addrLow {addr : Byte} (h : addr.toNat < 0x40) : regWriteByte (addrLow addr) = 0xC0#8 ||| addr := by
  rw [regWriteByte, regField_addrLow h]

theorem regReadByte_addrLow {addr : Byte} (h : addr.toNat < 0x40) : regReadByte (addrLow addr) = 0x80#8 ||| addr := by
  rw [regReadByte, regField_addrLow h]

/-! ### From a ready state to the response -/

/-- A ready port accepts every command whose operand is a register address (10_state.md R57). -/
theorem Ready.issueFault_eq_none_of_usesAddr {c : Command} {s : State} (h : Ready s) (hl : legalOp c.op = true)
    (hu : usesAddr c.op = true) (ha : c.addr.toNat < 0x40) : issueFault c s = none :=
  issueFault_eq_none h.seq hl (fun hw => by rw [h.asyncState] at hw; cases hw) (fun _ => (addrInRange_iff _).2 ha)
    (fun hb => by rw [usesAddr_of_usesBuffer hb] at hu; cases hu)

/-- The state after a command of one guarded transaction of two bytes has responded. -/
def State.served (s : State) (tx0 rx0 tx1 rx1 : Byte) (p : Peer) (n : Nat) (r : Response) : State :=
  { s.transacted tx0 rx0 tx1 rx1 p n with resp := s.resp ++ [r] }

/-- Such a command leaves the port ready for the next one. -/
theorem Ready.served {s : State} (h : Ready s) (tx0 rx0 tx1 rx1 : Byte) (p : Peer) (n : Nat) (r : Response) :
    Ready (s.served tx0 rx0 tx1 rx1 p n r) :=
  ⟨h.fault, h.seq, h.asyncState, h.shifter, h.guardDepth⟩

/-- The response frees the port again, as it was before the issue. -/
theorem respond_transacted_accept {s : State} (hs : s.seq = none) (c : Command) (run : Run) (op : OpCode)
    (w : Option Byte) (tx0 rx0 tx1 rx1 : Byte) (p : Peer) (n : Nat) :
    respond op w (((accept c s).transacted tx0 rx0 tx1 rx1 p n).at run) = s.served tx0 rx0 tx1 rx1 p n ⟨op, w⟩ := by
  simp only [respond, State.at, State.served, State.transacted, accept, hs]

/-- A body of one transaction (the eight primitives `ps`, ten moves) and a `RESPOND` that returns `w`. -/
theorem runCommand_of_transaction {c : Command} {s : State} {run : Run} {v : Returns} {ps : List Prim}
    {w : Option Byte} {tx0 rx0 tx1 rx1 : Byte} {p : Peer} {n : Nat} (hr : Ready s) (hc : issueFault c s = none)
    (hb : bodyOf s.cfg.mode c = ps ++ [.respond v]) (hps : ps.length = 8) (hcmd : run.cmd = c)
    (hd : Drives (accept c s) (((accept c s).transacted tx0 rx0 tx1 rx1 p n).at run) 10)
    (ha : At (((accept c s).transacted tx0 rx0 tx1 rx1 p n).at run) run [.respond v])
    (hv : ∀ t, respondStep v run t = .next (respond run.cmd.op w t)) :
    runCommand c s = .next (s.served tx0 rx0 tx1 rx1 p n ⟨c.op, w⟩) := by
  subst hcmd
  rw [← respond_transacted_accept hr.seq run.cmd run]
  exact runCommand_of_drives hr.fault hc hd ha (ha.notHeld nofun) (hv _) rfl (by simp [hb, hps])

end Sys2Proof.Machine
end

section
/-! SUPPORT. The statements about register access (40_register_access.md): each theorem settles one obligation. -/

open Sys2Proof Sys2Proof.Machine

/-- Settles O24: the guarded write transaction, then its response. -/
theorem regWriteEffect : Obligations.RegWriteEffect := by
  intro addr value s hr ha
  obtain ⟨d0, d1, p, n, run, hcmd, _, hd, hat, hp⟩ :=
    At.regWriteTransaction (addr := addr) (v := value) (at_accept (c := .regWrite addr value) hr.fault) hr.shifter
      hr.guardDepth (fun _ _ _ _ _ => rfl)
  have hrun := runCommand_of_transaction hr (hr.issueFault_eq_none_of_usesAddr rfl rfl ha) rfl rfl hcmd hd hat
    (fun _ => rfl)
  rw [regWriteByte_addrLow ha] at hrun
  rw [addrLow_toNat ha] at hp
  exact ⟨d0, d1, p, n, hrun, hp⟩

/-- Settles O25: the guarded read transaction, then the response with the local it filled. -/
theorem regReadEffect : Obligations.RegReadEffect := by
  intro addr s hr ha
  obtain ⟨d0, r, p, n, run, hcmd, hlocal, hd, hat, hp, hread⟩ :=
    At.regReadTransaction (addr := addr) (at_accept (c := .regRead addr) hr.fault) hr.shifter hr.guardDepth
  have hrun := runCommand_of_transaction (w := some r) hr (hr.issueFault_eq_none_of_usesAddr rfl rfl ha) rfl rfl hcmd hd
    hat (fun _ => by simp only [respondStep, hlocal])
  rw [regReadByte_addrLow ha] at hrun
  rw [addrLow_toNat ha] at hread
  exact ⟨d0, r, p, n, hrun, hp, fun ⟨hk, hside⟩ => hread hk hside⟩

/-- Settles O39: the write leaves the port ready and the value in the peer's register, where the read finds it. -/
theorem registerRoundTrip : Obligations.RegisterRoundTrip := by
  intro addr value s hr ha hplain
  obtain ⟨d0, d1, p, n, hwrite, hp⟩ := regWriteEffect addr value s hr ha
  have hstored : Cells.get p.regs addr.toNat = some value := by
    rw [hp hplain.1]; exact Cells.get_put_same _ _ _
  obtain ⟨_, r, _, _, hread, _, hanswer⟩ :=
    regReadEffect addr _ (hr.served (0xC0#8 ||| addr) d0 value d1 p n ⟨0x1, none⟩) ha
  refine ⟨_, _, hwrite, hread, ?_⟩
  rw [hanswer hplain value hstored]
  exact List.append_assoc ..

end

section
/-! SUPPORT. What a whole host command leaves unchanged, from any state (10_state.md R43, R57). -/

namespace Sys2Proof.Machine

/-- A property that each step of a command keeps, a command run forward keeps. -/
theorem drive_keeps {P : State → Prop} (hP : ∀ {s t}, forward s = .next t → P s → P t) {n : Nat} {s t : State}
    (h : drive n s = .next t) (hs : P s) : P t := by
  induction n generalizing s with
  | zero => cases h; exact hs
  | succ n ih =>
    unfold drive at h
    split at h
    · cases h; exact hs
    · cases hw : forward s with
      | next u => rw [hw] at h; exact ih h (hP hw hs)
      | fault f => rw [hw] at h; cases h
      | refused f => rw [hw] at h; cases h

/-- What command `c` leaves unchanged between two states, by its op: the asynchronous registers, host memory (outside
its buffer in any case), the guard, the activity-interrupt enable. -/
structure CommandFrame (c : Command) (s t : State) : Prop where
  async   : c.op ≠ 0x3#4 → t.cmpIrqEn = s.cmpIrqEn ∧ t.asyncState = s.asyncState ∧
    t.asyncRemaining = s.asyncRemaining ∧ t.asyncCursor = s.asyncCursor
  mem     : c.op ≠ 0x4#4 → c.op ≠ 0x6#4 → t.mem = s.mem
  outside : ∀ a, a < c.buf ∨ c.buf + c.len.toNat ≤ a → Memory.read t.mem a = Memory.read s.mem a
  guard   : c.op = 0x4#4 ∨ c.op = 0x9#4 ∨ c.op = 0xA#4 ∨ c.op = 0xB#4 →
    t.guardDepth = s.guardDepth ∧ t.guardSaved = s.guardSaved
  enable  : c.op = 0x4#4 ∨ c.op = 0xA#4 ∨ c.op = 0xB#4 → t.actIrqEn = s.actIrqEn

/-- The frame says nothing of the port, the bus, the peer, the histories, the fault. -/
theorem CommandFrame.of_bus (c : Command) (s : State) (cs : Bool) (sh : Shifter) (q : Option Run) (tr : List BusEvent)
    (rs : List Response) (f : Option FaultRecord) (p : Peer) (d : Nat) :
    CommandFrame c s
      { s with cs := cs, shifter := sh, seq := q, trace := tr, resp := rs, fault := f, peer := p, draws := d } :=
  ⟨fun _ => ⟨rfl, rfl, rfl, rfl⟩, fun _ _ => rfl, fun _ _ => rfl, fun _ => ⟨rfl, rfl⟩, fun _ => rfl⟩

theorem CommandFrame.trans {c : Command} {s t u : State} (h1 : CommandFrame c s t) (h2 : CommandFrame c t u) :
    CommandFrame c s u where
  async h := by
    obtain ⟨a1, a2, a3, a4⟩ := h1.async h
    obtain ⟨b1, b2, b3, b4⟩ := h2.async h
    exact ⟨b1.trans a1, b2.trans a2, b3.trans a3, b4.trans a4⟩
  mem h h' := (h2.mem h h').trans (h1.mem h h')
  outside a h := (h2.outside a h).trans (h1.outside a h)
  guard h := ⟨(h2.guard h).1.trans (h1.guard h).1, (h2.guard h).2.trans (h1.guard h).2⟩
  enable h := (h2.enable h).trans (h1.enable h)

/-- The port is free, or command `c` is in flight there and its loop index is that of its place. -/
def PortRunsOnly (c : Command) (s : State) : Prop :=
  s.seq = none ∨ ∃ run, s.seq = some run ∧ run.cmd = c ∧ run.i.toNat = (run.spot s.cfg.mode).index

/-- The loop index changes only where a round opens. -/
theorem Spot.after_index (p : Spot) {x : Prim} (hx : ∀ k src, x ≠ .sendRound k src) : (p.after x).index = p.index := by
  cases x with
  | sendRound k src => exact absurd rfl (hx k src)
  | wait dst => cases dst <;> rfl
  | _ => rfl

/-- After a primitive the command's loop index is again that of its place (10_state.md R32; log 16). -/
theorem primStep_portRunsOnly {run : Run} {s t : State} {x : Prim} (hs : s.seq = some run)
    (hi : run.i.toNat = (run.spot s.cfg.mode).index) (hx : nextPrim s.cfg.mode run = some x)
    (h : primStep run s x = .next t) : PortRunsOnly run.cmd t := by
  have F := primStep_frame h
  rcases F.seq with hnone | hsame | ⟨run', hrun', hcmd, hupc, hkeep, hround⟩
  · exact .inl hnone
  · exact .inr ⟨run, hsame.trans hs, rfl, by rw [F.cfg]; exact hi⟩
  · refine .inr ⟨run', hrun', hcmd, ?_⟩
    rw [F.cfg, spot_next hx hcmd hupc]
    by_cases hr : ∃ k src, x = .sendRound k src
    · obtain ⟨k, src, rfl⟩ := hr
      obtain ⟨_, _, _, _, hk, _⟩ := (fits_nextPrim hx).1
      rw [hround k src rfl, BitVec.toNat_ofNat, Nat.mod_eq_of_lt (hk.trans run.cmd.len.isLt)]
      rfl
    · have hne : ∀ k src, x ≠ .sendRound k src := fun k src he => hr ⟨k, src, he⟩
      rw [hkeep hne, Spot.after_index _ hne, hi]

/-- A primitive of a command's body leaves what the command leaves: the bodies hold the primitives that write the rest
only for the other ops, and a round stores inside the buffer. -/
theorem primStep_commandFrame {run : Run} {s t : State} {x : Prim} (hi : run.i.toNat = (run.spot s.cfg.mode).index)
    (hx : nextPrim s.cfg.mode run = some x) (h : primStep run s x = .next t) : CommandFrame run.cmd s t := by
  have F := primStep_frame h
  obtain ⟨harm, hselect, hctrl, hstore, hguard⟩ := mem_bodyOf (List.mem_of_getElem? hx)
  refine ⟨fun ho => F.async fun he => ho (harm he), fun h4 h6 => ?_, fun a ha => ?_, fun ho => ?_, fun ho => ?_⟩
  · rcases F.mem with hm | ⟨he, _⟩
    · exact hm
    · rcases hstore he with ho | ho
      · exact absurd ho h4
      · exact absurd ho h6
  · rcases F.mem with hm | ⟨rfl, v, _, hm⟩
    · rw [hm]
    · obtain ⟨_, _, hlt⟩ := (fits_nextPrim hx).1
      rw [hm, bufferAddr, hi, Memory.read_write_other _ _ (by omega)]
  · have hno : ¬(x = .guardEnter ∨ x = .guardExit) := fun he => by
      obtain ⟨h4, h9, hA, hB⟩ := hguard he
      rcases ho with ho | ho | ho | ho <;> contradiction
    exact F.guard (fun he => hno (.inl he)) fun he => hno (.inr he)
  · have hno : ¬(x = .guardEnter ∨ x = .guardExit) := fun he => by
      obtain ⟨h4, _, hA, hB⟩ := hguard he
      rcases ho with ho | ho | ho <;> contradiction
    have h3 : run.cmd.op ≠ 0x3#4 := by rcases ho with ho | ho | ho <;> rw [ho] <;> decide
    have h9 : run.cmd.op ≠ 0x9#4 := by rcases ho with ho | ho | ho <;> rw [ho] <;> decide
    exact F.enable (fun he => hno (.inl he)) (fun he => hno (.inr he)) (fun he => h3 (hselect he))
      fun he => h9 (hctrl he)

/-- A step that takes command `c` forward keeps the command in flight and leaves what the command leaves. -/
theorem forward_commandFrame {c : Command} {s t : State} (hc : PortRunsOnly c s) (h : forward s = .next t) :
    PortRunsOnly c t ∧ CommandFrame c s t := by
  unfold forward at h
  split at h
  · obtain ⟨_, _, _, _, _, rfl⟩ := busStep_frame h
    exact ⟨hc, .of_bus ..⟩
  · rcases seqStep_next h with ⟨_, rfl⟩ | ⟨run, x, hs, hx, hp⟩
    · exact ⟨hc, .of_bus ..⟩
    · rcases hc with hnone | ⟨_, hrun, rfl, hi⟩
      · rw [hnone] at hs; cases hs
      · obtain rfl := Option.some.inj (hrun.symm.trans hs)
        exact ⟨primStep_portRunsOnly hs hi hx hp, primStep_commandFrame hi hx hp⟩

/-- A host command leaves what its frame says, whatever state it is issued in and however it ends. -/
theorem runCommand_commandFrame {c : Command} {s t : State} (h : runCommand c s = .next t) : CommandFrame c s t := by
  obtain ⟨_, h⟩ := whileRunning_next.1 h
  rcases andThen_next h with ⟨hi, _⟩ | ⟨u, hi, huf, hd⟩
  · obtain ⟨_, _, rfl⟩ := issue_writes hi
    exact .of_bus ..
  · have hu : PortRunsOnly c u ∧ CommandFrame c s u := by
      rcases issue_next hi with ⟨f, _, rfl⟩ | ⟨_, rfl⟩
      · cases huf
      · exact ⟨.inr ⟨_, rfl, rfl, rfl⟩, .of_bus ..⟩
    have hkeep : ∀ {v w : State}, forward v = .next w → PortRunsOnly c v ∧ CommandFrame c s v →
        PortRunsOnly c w ∧ CommandFrame c s w := fun hw ⟨hv, hF⟩ =>
      have ⟨hw1, hw2⟩ := forward_commandFrame hv hw
      ⟨hw1, hF.trans hw2⟩
    exact (drive_keeps hkeep hd hu).2

end Sys2Proof.Machine
end

section
/-! SUPPORT. Frame buffer access (41_frame_buffer.md): what the peer makes of a frame, and the blocking write and the
read from issue to response. -/

namespace Sys2Proof.Machine

/-! ### The peer's side of a frame (20_memory.md R91, R92) -/

/-- Both peers answer a frame's bytes; the reference peer with room for them holds them from its buffer's start. -/
theorem answers_frameOut {cfg : Params} (draws : Nat) {peer : Peer} {txs : List Byte}
    (hp : cfg.peerKind = .reference → peer.ph = .fbw 0 ∧ txs.length ≤ cfg.frameBufferSize) :
    ∃ rxs q, talk cfg draws peer txs = some (rxs, q) ∧ (cfg.peerKind = .reference → q.regs = peer.regs ∧
      q.sram = peer.sram ∧
        ∀ k, Cells.get q.fb k = if k < txs.length then some (txs.getD k 0) else Cells.get peer.fb k) := by
  cases hk : cfg.peerKind with
  | unconstrained =>
    obtain ⟨rxs, q, ht⟩ := talk_unconstrained hk draws peer txs
    exact ⟨rxs, q, ht, by simp⟩
  | reference =>
    obtain ⟨hph, hroom⟩ := hp hk
    obtain ⟨rxs, q, ht, _, hregs, hsram, hfb⟩ := talk_fbw (draws := draws) (txs := txs) hk hph (by omega)
    exact ⟨rxs, q, ht, fun _ => ⟨hregs, hsram, by simpa using hfb⟩⟩

/-- Both peers answer the dummy bytes of a frame read; the reference peer with room answers its written cells. -/
theorem answers_frameIn {cfg : Params} (draws : Nat) {peer : Peer} {txs : List Byte}
    (hp : cfg.peerKind = .reference → peer.ph = .fbr 0 ∧ txs.length ≤ cfg.frameBufferSize) :
    ∃ rxs q, talk cfg draws peer txs = some (rxs, q) ∧ (cfg.peerKind = .reference →
      (∃ ph, q = { peer with ph := ph }) ∧
        ∀ k v, k < txs.length → Cells.get peer.fb k = some v → rxs[k]? = some v) := by
  cases hk : cfg.peerKind with
  | unconstrained =>
    obtain ⟨rxs, q, ht⟩ := talk_unconstrained hk draws peer txs
    exact ⟨rxs, q, ht, by simp⟩
  | reference =>
    obtain ⟨hph, hroom⟩ := hp hk
    obtain ⟨rxs, ht, hread⟩ := talk_fbr (draws := draws) (txs := txs) hk hph (by omega)
    exact ⟨rxs, _, ht, fun _ => ⟨⟨_, rfl⟩, by simpa using hread⟩⟩

/-- The reference peer's room for a frame that starts at its buffer's start. -/
theorem PeerRoom.le {s : State} {size n : Nat} (h : PeerRoom s size 0 n) (hk : s.cfg.peerKind = .reference) :
    n ≤ size := by
  rcases h with hu | hle
  · rw [hk] at hu; cases hu
  · omega

@[simp] theorem bufferBytes_length (m : List Host.Cell) (buf n : Nat) : (bufferBytes m buf n).length = n := by
  simp [bufferBytes]

theorem bufferBytes_getD (m : List Host.Cell) (buf : Nat) {k n : Nat} (h : k < n) :
    (bufferBytes m buf n).getD k 0 = Memory.read m (buf + k) := by
  simp [bufferBytes, h]

/-- Peer `q` holds the `n` bytes of a host buffer from its frame buffer's start; the rest of its stores are those of
`p`. -/
def FrameStored (m : List Host.Cell) (buf n : Nat) (p q : Peer) : Prop :=
  q.regs = p.regs ∧ q.sram = p.sram ∧
    ∀ k, Cells.get q.fb k = if k < n then some (Memory.read m (buf + k)) else Cells.get p.fb k

/-- Both peers answer the command byte of a frame write and the buffer's bytes; the reference peer with room for them
stores them (20_memory.md R88, R91). -/
theorem answers_frameWrite {cfg : Params} (draws : Nat) {peer : Peer} (m : List Host.Cell) (buf : Nat) {n : Nat}
    (hp : cfg.peerKind = .reference → peer.ph = .cmd ∧ n ≤ cfg.frameBufferSize) :
    ∃ d0 p ds q, peerAnswer cfg draws peer frameWriteByte = some (d0, p) ∧
      talk cfg (draws + 1) p (bufferBytes m buf n) = some (ds, q) ∧ ds.length = n ∧
      (cfg.peerKind = .reference → FrameStored m buf n peer q) := by
  obtain ⟨d0, p, hcmd, hph⟩ := answers_commandByte cfg draws peer commandPhase_frameWriteByte fun hk => (hp hk).1
  obtain ⟨ds, q, hdata, hq⟩ := answers_frameOut (cfg := cfg) (draws + 1) (peer := p) (txs := bufferBytes m buf n)
    fun hk => ⟨by rw [hph hk], by rw [bufferBytes_length]; exact (hp hk).2⟩
  refine ⟨d0, p, ds, q, hcmd, hdata, by rw [talk_length hdata, bufferBytes_length], fun hk => ?_⟩
  obtain ⟨hregs, hsram, hfb⟩ := hq hk
  rw [hph hk] at hregs hsram hfb
  refine ⟨hregs, hsram, fun k => (hfb k).trans ?_⟩
  rw [bufferBytes_length]
  exact ite_congr rfl (fun hlt => by rw [bufferBytes_getD m buf hlt]) fun _ => rfl

/-! ### A command with a buffer, from a ready state -/

/-- A ready port accepts every command whose buffer passes the check (10_state.md R57). -/
theorem Ready.issueFault_eq_none_of_usesBuffer {c : Command} {s : State} (h : Ready s) (hl : legalOp c.op = true)
    (hu : usesBuffer c.op = true) (hb : BufferOk s c.buf c.len) : issueFault c s = none :=
  issueFault_eq_none h.seq hl (fun hw => by rw [h.asyncState] at hw; cases hw)
    (fun ha => by rw [usesAddr_of_usesBuffer hu] at ha; cases ha) (fun _ => ⟨hb.1, (bufferInRange_iff ..).2 hb.2⟩)

/-- The whole of an accepted buffer lies in host memory. -/
theorem BufferOk.end_le {s : State} {buf : Nat} {len : Byte} (h : BufferOk s buf len) :
    buf + len.toNat ≤ s.cfg.hostSize := by
  obtain ⟨hne, hlt⟩ := h
  have hpos : len.toNat ≠ 0 := fun h0 => hne (BitVec.eq_of_toNat_eq h0)
  omega

/-! ### The blocking write (41_frame_buffer.md R160) -/

/-- The state after the guarded transaction that sends a frame. -/
def State.frameSent (s : State) (d0 : Byte) (txs ds : List Byte) (p : Peer) (n : Nat) : State :=
  { s with
    cs := false
    guardSaved := s.actIrqEn
    trace := s.trace ++ [.sel true, .xfer frameWriteByte d0] ++ xfers txs ds ++ [.sel false]
    peer := p
    draws := n }

/-- The guarded transaction of a frame write, up to its `RESPOND`. -/
theorem At.frameWriteTransaction {s : State} {run : Run} {len : Byte} (h : At s run (frameWriteBody len))
    (hi : s.shifter = .idle) (hd : s.guardDepth = 0) (hb : run.cmd.buf + len.toNat ≤ s.cfg.hostSize)
    (hroom : PeerRoom s s.cfg.frameBufferSize 0 len.toNat) :
    ∃ d0 ds p n run', run'.cmd = run.cmd ∧ ds.length = len.toNat ∧
      Drives s ((s.frameSent d0 (bufferBytes s.mem run.cmd.buf len.toNat) ds p n).at run') (3 * len.toNat + 7) ∧
      At ((s.frameSent d0 (bufferBytes s.mem run.cmd.buf len.toNat) ds p n).at run') run' [.respond .nothing] ∧
      (s.cfg.peerKind = .reference → p.ph = .idle ∧ FrameStored s.mem run.cmd.buf len.toNat s.peer p) := by
  obtain ⟨p, n, o1, o2, o3⟩ := At.openGuarded h hi hd
  obtain ⟨d0, p0, ds, q, b0, t1, hds, hq⟩ := answers_frameWrite (cfg := s.cfg) n (peer := p) s.mem run.cmd.buf
    (fun hk => ⟨by rw [(o3 hk).1], hroom.le hk⟩)
  obtain ⟨x1, x2⟩ := At.xferDiscard o2 hi (fun _ => rfl) b0
  rw [← hostBytes_eq_bufferBytes] at t1
  obtain ⟨y1, y2⟩ := At.streamOut x2 rfl (by omega) hb t1
  obtain ⟨p2, m, c1, c2, c3⟩ := At.closeGuarded y2 rfl rfl
  refine ⟨d0, ds, p2, m, (run.next.next.next.next.rounds 0 len.toNat).next.next, rfl, hds,
    (o1.trans (x1.trans (y1.trans c1 rfl) rfl) (by omega)).to ?e, c2.to ?e, fun hk => ?_⟩
  · rw [← hostBytes_eq_bufferBytes]
    simp [State.closed, State.streamed, State.exchanged, State.opened, State.at, State.frameSent, Run.rounds, hi, hd]
  · obtain ⟨hp2, _⟩ := c3 hk
    have hstored := hq hk
    rw [(o3 hk).1] at hstored
    rw [hp2]
    exact ⟨rfl, hstored⟩

/-- A body whose transaction leaves only a `RESPOND()` to do, after `k` moves. -/
theorem runCommand_of_respond {c : Command} {s t : State} {run : Run} {k : Nat} (hf : s.fault = none)
    (hc : issueFault c s = none) (hcmd : run.cmd = c) (hd : Drives (accept c s) (t.at run) k)
    (ha : At (t.at run) run [.respond .nothing]) (hk : k + 1 ≤ 2 * (bodyOf s.cfg.mode c).length) :
    runCommand c s = .next (respond c.op none t) := by
  subst hcmd
  exact runCommand_of_drives hf hc hd ha (ha.notHeld nofun) rfl rfl hk

theorem frameWriteBody_length (len : Byte) : (frameWriteBody len).length = 2 * len.toNat + 7 := by
  simp [frameWriteBody, xfer]

/-- The blocking write of a frame, from issue to response, and what the reference peer then holds. -/
theorem runCommand_frameWrite_blocking {buf : Nat} {len : Byte} {s : State} (hr : Ready s)
    (hm : s.cfg.mode = .blocking) (hb : BufferOk s buf len) (hroom : PeerRoom s s.cfg.frameBufferSize 0 len.toNat) :
    ∃ d0 ds p n, ds.length = len.toNat ∧ runCommand (.frameWrite buf len) s =
        .next { s.frameSent d0 (bufferBytes s.mem buf len.toNat) ds p n with resp := s.resp ++ [⟨0x3, none⟩] } ∧
      (s.cfg.peerKind = .reference → p.ph = .idle ∧ FrameStored s.mem buf len.toNat s.peer p) := by
  have hbody : bodyOf s.cfg.mode (.frameWrite buf len) = frameWriteBody len := by rw [hm]; rfl
  have ha : At (accept (.frameWrite buf len) s) ⟨.frameWrite buf len, 0, 0, none⟩ (frameWriteBody len) :=
    hbody ▸ at_accept hr.fault
  obtain ⟨d0, ds, p, n, run, hcmd, hds, hd, hat, hp⟩ :=
    ha.frameWriteTransaction hr.shifter hr.guardDepth hb.end_le hroom
  have hrun := runCommand_of_respond hr.fault (hr.issueFault_eq_none_of_usesBuffer rfl rfl hb) hcmd hd hat
    (by rw [hbody, frameWriteBody_length]; omega)
  refine ⟨d0, ds, p, n, hds, hrun.trans ?_, hp⟩
  simp only [respond, State.frameSent, accept, hr.seq, Command.frameWrite]

/-! ### The read (41_frame_buffer.md R161) -/

/-- The state after the transaction that receives a frame into host memory. -/
def State.frameReceived (s : State) (d0 : Byte) (rxs : List Byte) (m : List Host.Cell) (p : Peer) (n : Nat) : State :=
  { s with
    cs := false
    trace := s.trace ++ [.sel true, .xfer frameReadByte d0] ++ rxs.map (.xfer dummyByte) ++ [.sel false]
    mem := m
    peer := p
    draws := n }

/-- The events of dummy bytes sent, by the bytes received. -/
theorem xfers_replicate (tx : Byte) (rxs : List Byte) :
    xfers (List.replicate rxs.length tx) rxs = rxs.map (.xfer tx) := by
  induction rxs with
  | nil => rfl
  | cons rx rest ih => exact congrArg _ ih

/-- The unguarded transaction of a frame read, up to its `RESPOND`. -/
theorem At.frameReadTransaction {s : State} {run : Run} {len : Byte} (h : At s run (frameReadBody len))
    (hi : s.shifter = .idle) (hb : run.cmd.buf + len.toNat ≤ s.cfg.hostSize)
    (hroom : PeerRoom s s.cfg.frameBufferSize 0 len.toNat) :
    ∃ d0 rxs p n run', run'.cmd = run.cmd ∧ rxs.length = len.toNat ∧
      Drives s ((s.frameReceived d0 rxs (storeBytes s.mem run.cmd.buf 0 rxs) p n).at run') (3 * len.toNat + 5) ∧
      At ((s.frameReceived d0 rxs (storeBytes s.mem run.cmd.buf 0 rxs) p n).at run') run' [.respond .nothing] ∧
      (s.cfg.peerKind = .reference → p = { s.peer with ph := .idle } ∧
        ∀ k v, k < len.toNat → Cells.get s.peer.fb k = some v → rxs[k]? = some v) := by
  obtain ⟨p, n, o1, o2, o3⟩ := At.openPlain h hi
  obtain ⟨d0, p0, b0, b1⟩ :=
    answers_commandByte s.cfg n p commandPhase_frameReadByte (fun hk => by rw [(o3 hk).1])
  obtain ⟨x1, x2⟩ := At.xferDiscard o2 hi (fun _ => rfl) b0
  obtain ⟨rxs, q, t1, t2⟩ := answers_frameIn (n + 1) (cfg := s.cfg) (peer := p0)
    (txs := List.replicate len.toNat dummyByte)
    (fun hk => ⟨by rw [b1 hk], by rw [List.length_replicate]; exact hroom.le hk⟩)
  have hrxs : rxs.length = len.toNat := by rw [talk_length t1, List.length_replicate]
  obtain ⟨y1, y2⟩ := At.streamIn x2 rfl (by omega) hb t1
  obtain ⟨p2, m, c1, c2, c3⟩ := At.closePlain y2 rfl
  refine ⟨d0, rxs, p2, m, (run.next.next.next.rounds 0 len.toNat).next, rfl, hrxs,
    (o1.trans (x1.trans (y1.trans c1 rfl) rfl) (by omega)).to ?e, c2.to ?e, fun hk => ?_⟩
  · rw [← hrxs]
    simp [xfers_replicate, State.streamed, State.exchanged, State.at, State.frameReceived, Run.rounds, hi]
  · obtain ⟨hp2, _⟩ := c3 hk
    obtain ⟨⟨ph, hq⟩, hread⟩ := t2 hk
    rw [b1 hk, (o3 hk).1] at hq hread
    rw [List.length_replicate] at hread
    exact ⟨by rw [hp2]; simp [State.streamed, State.at, hq], hread⟩

theorem frameReadBody_length (len : Byte) : (frameReadBody len).length = 2 * len.toNat + 5 := by
  simp [frameReadBody, xfer]

/-- The read of a frame, from issue to response, and which bytes the reference peer answered. -/
theorem runCommand_frameRead {buf : Nat} {len : Byte} {s : State} (hr : Ready s) (hb : BufferOk s buf len)
    (hroom : PeerRoom s s.cfg.frameBufferSize 0 len.toNat) :
    ∃ d0 rxs p n, rxs.length = len.toNat ∧ runCommand (.frameRead buf len) s =
        .next { s.frameReceived d0 rxs (storeBytes s.mem buf 0 rxs) p n with resp := s.resp ++ [⟨0x4, none⟩] } ∧
      (s.cfg.peerKind = .reference → p = { s.peer with ph := .idle } ∧
        ∀ k v, k < len.toNat → Cells.get s.peer.fb k = some v → rxs[k]? = some v) := by
  have hbody : bodyOf s.cfg.mode (.frameRead buf len) = frameReadBody len := rfl
  have ha : At (accept (.frameRead buf len) s) ⟨.frameRead buf len, 0, 0, none⟩ (frameReadBody len) :=
    hbody ▸ at_accept hr.fault
  obtain ⟨d0, rxs, p, n, run, hcmd, hrxs, hd, hat, hp⟩ := ha.frameReadTransaction hr.shifter hb.end_le hroom
  have hrun := runCommand_of_respond hr.fault (hr.issueFault_eq_none_of_usesBuffer rfl rfl hb) hcmd hd hat
    (by rw [hbody, frameReadBody_length]; omega)
  refine ⟨d0, rxs, p, n, hrxs, hrun.trans ?_, hp⟩
  simp only [respond, State.frameReceived, accept, hr.seq, Command.frameRead]

end Sys2Proof.Machine
end

section
/-! SUPPORT. The asynchronous frame write (45_async_frame_write.md): its start, and the run in which `BUS` completes
each byte before its completion event (log 1). -/

namespace Sys2Proof.Machine

/-! ### The start (45_async_frame_write.md R201) -/

/-- `asyncSelect` from an idle shifter. -/
theorem At.asyncSelect {s : State} {run : Run} {ps : List Prim} (h : At s run (.asyncSelect :: ps))
    (hi : s.shifter = .idle) :
    ∃ p n, let t : State :=
        { s with actIrqEn := false, cs := true, trace := s.trace ++ [.sel true], peer := p, draws := n }
      Drives s (t.at run.next) 1 ∧ At (t.at run.next) run.next ps ∧
      (s.cfg.peerKind = .reference → p = { s.peer with ph := .cmd } ∧ n = s.draws) := by
  obtain ⟨p, n, he, hp⟩ :=
    advance_onSel true run { s with actIrqEn := false, cs := true, trace := s.trace ++ [.sel true] }
  obtain ⟨d, a⟩ := h.simple (notHeld_of_idle hi)
    (t := { s with actIrqEn := false, cs := true, trace := s.trace ++ [.sel true], peer := p, draws := n }) he rfl h.run
  exact ⟨p, n, d, a, hp⟩

/-- A `SEND` that no `WAIT` follows: the byte stays in the shifter. -/
theorem At.send {s : State} {run : Run} {b : Byte} {ps : List Prim} (h : At s run (.send (.byte b) :: ps))
    (hi : s.shifter = .idle) : Drives s ({ s with shifter := .busy b }.at run.next) 1 ∧
      At ({ s with shifter := .busy b }.at run.next) run.next ps :=
  h.simple (notHeld_of_idle hi) (sendFrom_idle h.run hi fun _ => rfl) rfl h.run

/-- The state after the start of an asynchronous write has responded. -/
def State.asyncStarted (s : State) (buf : Nat) (len : Byte) (p : Peer) (n : Nat) : State :=
  { s with
    cs := true
    shifter := .busy frameWriteByte
    actIrqEn := false
    cmpIrqEn := true
    asyncState := .writing
    asyncRemaining := len
    asyncCursor := buf
    trace := s.trace ++ [.sel true]
    resp := s.resp ++ [⟨0x3, none⟩]
    peer := p
    draws := n }

/-- The asynchronous write's start, from issue to response. -/
theorem runCommand_frameWrite_nonblocking {buf : Nat} {len : Byte} {s : State} (hr : Ready s)
    (hm : s.cfg.mode = .nonblocking) (hb : BufferOk s buf len) :
    ∃ p n, runCommand (.frameWrite buf len) s = .next (s.asyncStarted buf len p n) ∧
      (s.cfg.peerKind = .reference → p = { s.peer with ph := .cmd } ∧ n = s.draws) := by
  have hbody : bodyOf s.cfg.mode (.frameWrite buf len) = asyncStartBody := by rw [hm]; rfl
  have ha : At (accept (.frameWrite buf len) s) ⟨.frameWrite buf len, 0, 0, none⟩ asyncStartBody :=
    hbody ▸ at_accept hr.fault
  obtain ⟨p, n, d1, a1, hp⟩ := At.asyncSelect ha hr.shifter
  obtain ⟨d2, a2⟩ := At.send a1 hr.shifter
  refine ⟨p, n, (runCommand_of_drives hr.fault (hr.issueFault_eq_none_of_usesBuffer rfl rfl hb) (d1.trans d2 rfl) a2
    (a2.notHeld nofun) rfl rfl (by rw [hbody]; decide)).trans ?_, hp⟩
  simp only [asyncArm, respond, State.at, State.asyncStarted, accept, hr.seq, Command.frameWrite, Run.next_cmd]

/-! ### The completion event on a finished byte (45_async_frame_write.md R202–R204) -/

/-- The completion branch, whichever the peer: select is deasserted and the machine is idle. -/
theorem completionFinish_eq (s : State) : ∃ p n,
    completionFinish s = { s with
      cs := false, trace := s.trace ++ [.sel false], cmpIrqEn := false, actIrqEn := true, asyncState := .idle
      peer := p, draws := n } ∧
    (s.cfg.peerKind = .reference → p = { s.peer with ph := .idle } ∧ n = s.draws) := by
  obtain ⟨p, n, he, hp⟩ := onSel_eq false { s with cs := false, trace := s.trace ++ [.sel false] }
  exact ⟨p, n, by rw [completionFinish, selDeassert, he], hp⟩

/-- An asynchronous write is on its way with byte `tx` in the shifter. -/
structure Writing (s : State) (tx : Byte) : Prop where
  fault   : s.fault = none
  mode    : s.cfg.mode = .nonblocking
  cmpIrq  : s.cmpIrqEn = true
  writing : s.asyncState = .writing
  shifter : s.shifter = .busy tx

/-- The state after a byte has been exchanged and its completion event has sent the next one. -/
def State.pushed (s : State) (tx rx : Byte) (p : Peer) : State :=
  { s.exchanged tx rx p with
    shifter := .busy (Memory.read s.mem s.asyncCursor)
    asyncCursor := nextCursor s
    asyncRemaining := s.asyncRemaining - 1 }

section
variable {s : State} {tx rx : Byte} {p : Peer}

theorem Writing.pushed (h : Writing s tx) (rx : Byte) (p : Peer) :
    Writing (s.pushed tx rx p) (Memory.read s.mem s.asyncCursor) :=
  ⟨h.fault, h.mode, h.cmpIrq, h.writing, rfl⟩

theorem Writing.withSched (h : Writing s tx) (l : List Event) : Writing { s with sched := l } tx :=
  ⟨h.fault, h.mode, h.cmpIrq, h.writing, h.shifter⟩

theorem Writing.completionEnabled (h : Writing s tx) : completionEnabled (byteDone tx rx p s) = true := by
  simp [Machine.completionEnabled, completionPending, h.mode, h.cmpIrq]

theorem Writing.completionStep_push (h : Writing s tx) (hn : s.asyncRemaining ≠ 0)
    (hc : s.asyncCursor < s.cfg.hostSize) : completionStep (byteDone tx rx p s) = .next (s.pushed tx rx p) := by
  rw [completionStep, if_pos h.completionEnabled, byteDone_asyncRemaining, if_neg hn, completionPush]
  refine (withMemRead_of_lt (s := s.exchanged tx rx p) _ hc).trans ?_
  rw [send]
  exact andThen_of_none _ h.fault

theorem Writing.completionStep_finish (h : Writing s tx) (hn : s.asyncRemaining = 0) :
    completionStep (byteDone tx rx p s) = .next (completionFinish (s.exchanged tx rx p)) := by
  rw [completionStep, if_pos h.completionEnabled, byteDone_asyncRemaining, if_pos hn]; rfl

/-! ### The run of one schedule (45_async_frame_write.md R205) -/

theorem Writing.step_bus (h : Writing s tx) (ha : peerAnswer s.cfg s.draws s.peer tx = some (rx, p)) (l : List Event) :
    step { s with sched := .bus :: l } = .next { byteDone tx rx p s with sched := l } :=
  (step_event _ _ h.fault).trans
    ((busMove_eq_busStep (s := { s with sched := l }) h.fault).trans (busStep_of_answer h.shifter ha))

/-- The completion event that follows does not read the schedule. -/
theorem Writing.step_push (h : Writing s tx) (hn : s.asyncRemaining ≠ 0) (hc : s.asyncCursor < s.cfg.hostSize)
    (l : List Event) : step { byteDone tx rx p s with sched := .completion :: l } =
      .next { s.pushed tx rx p with sched := l } :=
  (step_event (s := byteDone tx rx p s) _ _ h.fault).trans
    ((h.withSched l).completionStep_push hn hc)

theorem Writing.step_finish (h : Writing s tx) (hn : s.asyncRemaining = 0) (l : List Event) :
    step { byteDone tx rx p s with sched := .completion :: l } =
      .next (completionFinish { s.exchanged tx rx p with sched := l }) :=
  (step_event (s := byteDone tx rx p s) _ _ h.fault).trans
    ((h.withSched l).completionStep_finish hn)

/-- `BUS`, then the completion event, `n` times. -/
def busThenCompletion (n : Nat) : List Event := (List.replicate n [Event.bus, Event.completion]).flatten

/-- The state after an asynchronous write has sent the bytes `txs` and completed. -/
def State.asyncDone (s : State) (txs rxs : List Byte) (a : Nat) (p : Peer) (n : Nat) (l : List Event) : State :=
  { s with
    cs := false
    shifter := .idle
    actIrqEn := true
    cmpIrqEn := false
    asyncState := .idle
    asyncRemaining := 0
    asyncCursor := a
    trace := s.trace ++ xfers txs rxs ++ [.sel false]
    peer := p
    sched := l
    draws := n }

theorem State.asyncDone_pushed (s : State) (tx rx : Byte) (txs rxs : List Byte) (p q : Peer) (a n : Nat)
    (l : List Event) :
    (s.pushed tx rx p).asyncDone txs rxs a q n l = s.asyncDone (tx :: txs) (rx :: rxs) a q n l := by
  simp [State.asyncDone, State.pushed, State.exchanged, xfers]

/-- What a stream of bytes was answered, first byte first: `talk_cons` read the other way. -/
theorem talk_cons_inv {cfg : Params} {tx : Byte} {txs rxs : List Byte} {draws : Nat} {peer q : Peer}
    (h : talk cfg draws peer (tx :: txs) = some (rxs, q)) : ∃ rx p rxs', peerAnswer cfg draws peer tx = some (rx, p) ∧
      talk cfg (draws + 1) p txs = some (rxs', q) ∧ rxs = rx :: rxs' := by
  unfold talk at h
  split at h
  · cases h
  · next rx p ha =>
    split at h
    · cases h
    · next rxs' q' ht =>
      cases h
      exact ⟨rx, p, rxs', ha, ht, rfl⟩

theorem bufferBytes_succ (m : List Host.Cell) (buf n : Nat) :
    bufferBytes m buf (n + 1) = Memory.read m buf :: bufferBytes m (buf + 1) n := by
  simp [bufferBytes, List.range_succ_eq_map, Function.comp_def, Nat.add_assoc, Nat.add_comm 1]

/-- The cursor wraps only past the last byte (45_async_frame_write.md R203), so the bytes after it are the buffer's. -/
theorem bufferBytes_nextCursor (m : List Host.Cell) {n : Nat} (h : s.asyncCursor + (n + 1) ≤ s.cfg.hostSize) :
    bufferBytes m (nextCursor s) n = bufferBytes m (s.asyncCursor + 1) n := by
  cases n with
  | zero => rfl
  | succ n => rw [nextCursor, Nat.mod_eq_of_lt (by omega)]

/-- From a byte in the shifter with `n` bytes remaining, `n + 1` rounds send them all and complete the write. -/
theorem Writing.run_busThenCompletion {n : Nat} (h : Writing s tx) (hn : s.asyncRemaining.toNat = n)
    (hb : s.asyncCursor + n ≤ s.cfg.hostSize) {rxs : List Byte} {q : Peer}
    (ht : talk s.cfg s.draws s.peer (tx :: bufferBytes s.mem s.asyncCursor n) = some (rxs, q)) (l : List Event) :
    ∃ a p m, Sys2Proof.core.run (2 * (n + 1)) { s with sched := busThenCompletion (n + 1) ++ l } =
        .next (s.asyncDone (tx :: bufferBytes s.mem s.asyncCursor n) rxs a p m l) ∧
      (s.cfg.peerKind = .reference → p = { q with ph := .idle }) := by
  induction n generalizing s tx rxs with
  | zero =>
    obtain ⟨rx, p, rxs', ha, ht', rfl⟩ := talk_cons_inv ht
    cases ht'
    obtain ⟨p', m, he, hp⟩ := completionFinish_eq { s.exchanged tx rx q with sched := l }
    have h0 : s.asyncRemaining = 0 := BitVec.eq_of_toNat_eq hn
    refine ⟨s.asyncCursor, p', m, ?_, fun hk => (hp hk).1⟩
    refine (run_succ (h.step_bus ha _) _).trans ((run_succ (h.step_finish h0 l) 0).trans ?_)
    rw [he, State.asyncDone, ← h0]
    rfl
  | succ n ih =>
    obtain ⟨rx, p, rxs', ha, ht', rfl⟩ := talk_cons_inv ht
    have h0 : s.asyncRemaining ≠ 0 := fun h0 => by rw [h0] at hn; cases hn
    have hless : (s.asyncRemaining - 1).toNat = n := by bv_omega
    have hcursor : nextCursor s + n ≤ s.cfg.hostSize := by
      have hle : nextCursor s ≤ s.asyncCursor + 1 := Nat.mod_le _ _
      omega
    rw [bufferBytes_succ, ← bufferBytes_nextCursor _ hb] at ht' ⊢
    obtain ⟨a, p', m, hrun, hp⟩ := ih (h.pushed rx p) hless hcursor ht'
    refine ⟨a, p', m, ?_, hp⟩
    rw [← State.asyncDone_pushed s tx rx _ _ p]
    exact (run_succ (h.step_bus ha _) _).trans ((run_succ (h.step_push h0 (by omega) _) _).trans hrun)

end

/-- The asynchronous write from its start's response, each byte completed before its event, to its completion. -/
theorem run_asyncWrite {buf : Nat} {len : Byte} {s : State} {p : Peer} (n : Nat) (hr : Ready s)
    (hm : s.cfg.mode = .nonblocking) (hb : BufferOk s buf len) (hroom : PeerRoom s s.cfg.frameBufferSize 0 len.toNat)
    (hp : s.cfg.peerKind = .reference → p = { s.peer with ph := .cmd }) (l : List Event) :
    ∃ d0 ds a q m, ds.length = len.toNat ∧
      Sys2Proof.core.run (2 * (len.toNat + 1))
          { s.asyncStarted buf len p n with sched := busThenCompletion (len.toNat + 1) ++ l } =
        .next ((s.asyncStarted buf len p n).asyncDone (frameWriteByte :: bufferBytes s.mem buf len.toNat) (d0 :: ds)
          a q m l) ∧
      (s.cfg.peerKind = .reference → q.ph = .idle ∧ FrameStored s.mem buf len.toNat s.peer q) := by
  have hw : Writing (s.asyncStarted buf len p n) frameWriteByte := ⟨hr.fault, hm, rfl, rfl, rfl⟩
  obtain ⟨d0, p0, ds, q, hcmd, hdata, hds, hq⟩ := answers_frameWrite (cfg := s.cfg) n (peer := p) s.mem buf
    (fun hk => ⟨by rw [hp hk], hroom.le hk⟩)
  obtain ⟨a, q', m, hrun, hq'⟩ := hw.run_busThenCompletion rfl hb.end_le (talk_cons hcmd hdata) l
  refine ⟨d0, ds, a, q', m, hds, hrun, fun hk => ?_⟩
  have hstored := hq hk
  rw [hp hk] at hstored
  rw [hq' hk]
  exact ⟨rfl, hstored⟩

/-- A completed asynchronous write leaves the port ready for the next command. -/
theorem Ready.asyncDone {s : State} (h : Ready s) (buf : Nat) (len : Byte) (p q : Peer) (n m a : Nat)
    (txs rxs : List Byte) (l : List Event) : Ready ((s.asyncStarted buf len p n).asyncDone txs rxs a q m l) :=
  ⟨h.fault, h.seq, rfl, rfl, h.guardDepth⟩

/-- A frame read stores what the reference peer's frame buffer holds (41_frame_buffer.md R162). -/
theorem Ready.exec_frameRead_of_holds {s : State} {buf : Nat} {len : Byte} {f : Nat → Byte} (h : Ready s)
    (hk : s.cfg.peerKind = .reference) (hb : BufferOk s buf len) (hroom : len.toNat ≤ s.cfg.frameBufferSize)
    (hf : ∀ k, k < len.toNat → Cells.get s.peer.fb k = some (f k)) :
    ∃ t, exec (.frameRead buf len) s = .next t ∧ ∀ k, k < len.toNat → Memory.read t.mem (buf + k) = f k := by
  obtain ⟨d0, rxs, p, n, hlen, hrun, hp⟩ := runCommand_frameRead h hb (.inr (by omega))
  refine ⟨_, hrun, fun k hlt => ?_⟩
  obtain ⟨_, hread⟩ := hp hk
  refine (read_storeBytes ..).trans ?_
  rw [if_pos (by omega), List.getD_eq_getElem?_getD, show buf + k - (buf + 0) = k by omega, hread k _ hlt (hf k hlt)]
  rfl

end Sys2Proof.Machine
end

section
/-! SUPPORT. The statements about the frame buffer (41_frame_buffer.md) and about what a host command leaves unchanged:
each theorem settles one obligation. -/

open Sys2Proof Sys2Proof.Machine

/-- Settles O28: both names issue one record, and `BLOCKING` runs the guarded transaction. -/
theorem frameWriteBlockingEffect : Obligations.FrameWriteBlockingEffect := by
  intro i buf len s hi hr hm hb hroom
  have hrec : encode i = .record (.frameWrite buf len) := by rcases hi with rfl | rfl <;> rfl
  rw [exec_record hrec]
  exact runCommand_frameWrite_blocking hr hm hb hroom

/-- Settles O30: the unguarded transaction, whose answers stand in the buffer. -/
theorem frameReadEffect : Obligations.FrameReadEffect := by
  intro buf len s hr hb hroom
  obtain ⟨d0, rxs, p, n, hrxs, hrun, hp⟩ := runCommand_frameRead hr hb hroom
  refine ⟨d0, rxs, _, p, n, hrxs, hrun, fun a => ?_, hp⟩
  exact (read_storeBytes ..).trans (by rw [hrxs, Nat.add_zero])

/-- Settles O38: the frame of the record's run, whichever instruction issued it. -/
theorem hostCommandFrame : Obligations.HostCommandFrame := by
  intro i c s t hi h
  obtain ⟨hcfg, hprog, hsched, hirq⟩ := exec_surroundings h
  rw [exec_record hi] at h
  have F := runCommand_commandFrame h
  exact ⟨hcfg, hprog, hsched, hirq, F.async, F.mem, F.outside, F.guard, F.enable⟩

/-- Settles O40: either write leaves the port ready and the frame in the peer's buffer, where the read finds it. -/
theorem frameRoundTrip : Obligations.FrameRoundTrip := by
  refine ⟨fun b c len s hr hm hk hb hc hroom => ?_, fun b c len s rest hr hm hk hb hc hroom => ?_⟩
  · obtain ⟨d0, ds, p, n, _, hwrite, hp⟩ := runCommand_frameWrite_blocking hr hm hb (.inr (by omega))
    obtain ⟨_, _, _, hfb⟩ := hp hk
    obtain ⟨u, hread, hmem⟩ := Ready.exec_frameRead_of_holds
      (s := { s.frameSent d0 (bufferBytes s.mem b len.toNat) ds p n with resp := s.resp ++ [⟨0x3, none⟩] })
      ⟨hr.fault, hr.seq, hr.asyncState, hr.shifter, hr.guardDepth⟩ hk hc hroom
      fun k hlt => (hfb k).trans (if_pos hlt)
    exact ⟨_, u, hwrite, hread, hmem⟩
  · obtain ⟨p, n, hstart, hp⟩ := runCommand_frameWrite_nonblocking hr hm hb
    obtain ⟨d0, ds, a, q, m, _, hrun, hq⟩ :=
      run_asyncWrite n hr hm hb (.inr (by omega)) (fun hk => (hp hk).1) rest
    obtain ⟨_, _, _, hfb⟩ := hq hk
    obtain ⟨v, hread, hmem⟩ := (hr.asyncDone b len p q n m a _ _ rest).exec_frameRead_of_holds hk hc hroom
      fun k hlt => (hfb k).trans (if_pos hlt)
    exact ⟨_, _, v, hstart, hrun, rfl, hread, hmem⟩

end

section
/-! SUPPORT. SRAM access (42_sram.md): what the peer makes of the command byte, the offset and the data bytes, and the
write and the read from issue to response. -/

namespace Sys2Proof.Machine

/-! ### The peer's side of an SRAM access (20_memory.md R93–R95) -/

/-- Both peers answer a command byte and an offset byte; the reference peer, waiting for a command, enters the phase of
the access at that offset (20_memory.md R88, R93). -/
theorem answers_sramHeader (cfg : Params) (draws : Nat) (peer : Peer) {tx offset : Byte} {ph access : Phase}
    (hc : commandPhase tx = some ph)
    (ho : ∀ d, exchange cfg { peer with ph := ph } offset d = .answer d { peer with ph := access })
    (hp : cfg.peerKind = .reference → peer.ph = .cmd) :
    ∃ d0 p0 d1 p1, peerAnswer cfg draws peer tx = some (d0, p0) ∧
      peerAnswer cfg (draws + 1) p0 offset = some (d1, p1) ∧
      (cfg.peerKind = .reference → p1 = { peer with ph := access }) := by
  obtain ⟨d0, p0, hcmd, hp0⟩ := answers_commandByte cfg draws peer hc hp
  cases hk : cfg.peerKind with
  | unconstrained => exact ⟨d0, p0, _, _, hcmd, peerAnswer_unconstrained hk _ _ _, by simp⟩
  | reference =>
    refine ⟨d0, p0, Config.freeByte (draws + 1), _, hcmd, ?_, fun _ => rfl⟩
    simp only [peerAnswer, hk, hp0 hk, ho]

/-- Peer `q` holds the `n` bytes of a host buffer from place `k` of its SRAM; the rest of its stores are those of `p`. -/
def SramStored (m : List Host.Cell) (buf k n : Nat) (p q : Peer) : Prop :=
  q.regs = p.regs ∧ q.fb = p.fb ∧
    ∀ a, Cells.get q.sram a =
      if k ≤ a ∧ a < k + n then some (Memory.read m (buf + (a - k))) else Cells.get p.sram a

/-- Both peers answer a buffer's bytes; the reference peer with room for them stores them in its SRAM (20_memory.md
R94). -/
theorem answers_sramOut {cfg : Params} (draws : Nat) {peer : Peer} (m : List Host.Cell) (buf : Nat) {k n : Nat}
    (hp : cfg.peerKind = .reference → peer.ph = .srw k ∧ k + n ≤ cfg.sramSize) :
    ∃ ds q, talk cfg draws peer (bufferBytes m buf n) = some (ds, q) ∧ ds.length = n ∧
      (cfg.peerKind = .reference → SramStored m buf k n peer q) := by
  cases hk : cfg.peerKind with
  | unconstrained =>
    obtain ⟨ds, q, ht⟩ := talk_unconstrained hk draws peer (bufferBytes m buf n)
    exact ⟨ds, q, ht, by rw [talk_length ht, bufferBytes_length], by simp⟩
  | reference =>
    obtain ⟨hph, hroom⟩ := hp hk
    obtain ⟨ds, q, ht, _, hregs, hfb, hsram⟩ :=
      talk_srw (draws := draws) (txs := bufferBytes m buf n) hk hph (by rwa [bufferBytes_length])
    refine ⟨ds, q, ht, by rw [talk_length ht, bufferBytes_length], fun _ => ⟨hregs, hfb, fun a => (hsram a).trans ?_⟩⟩
    rw [bufferBytes_length]
    exact ite_congr rfl (fun hin => by rw [bufferBytes_getD m buf (by omega)]) fun _ => rfl

/-- Both peers answer the dummy bytes of an SRAM read; the reference peer with room answers its written cells
(20_memory.md R95). -/
theorem answers_sramIn {cfg : Params} (draws : Nat) {peer : Peer} {k n : Nat}
    (hp : cfg.peerKind = .reference → peer.ph = .srr k ∧ k + n ≤ cfg.sramSize) :
    ∃ rxs q, talk cfg draws peer (List.replicate n dummyByte) = some (rxs, q) ∧ rxs.length = n ∧
      (cfg.peerKind = .reference → (∃ ph, q = { peer with ph := ph }) ∧
        ∀ j v, j < n → Cells.get peer.sram (k + j) = some v → rxs[j]? = some v) := by
  cases hk : cfg.peerKind with
  | unconstrained =>
    obtain ⟨rxs, q, ht⟩ := talk_unconstrained hk draws peer (List.replicate n dummyByte)
    exact ⟨rxs, q, ht, by rw [talk_length ht, List.length_replicate], by simp⟩
  | reference =>
    obtain ⟨hph, hroom⟩ := hp hk
    obtain ⟨rxs, ht, hread⟩ :=
      talk_srr (draws := draws) (txs := List.replicate n dummyByte) hk hph (by rwa [List.length_replicate])
    rw [List.length_replicate] at hread
    exact ⟨rxs, _, ht, by rw [talk_length ht, List.length_replicate], fun _ => ⟨⟨_, rfl⟩, hread⟩⟩

/-- The reference peer's room from a place on. -/
theorem PeerRoom.add_le {s : State} {size k n : Nat} (h : PeerRoom s size k n) (hk : s.cfg.peerKind = .reference) :
    k + n ≤ size := by
  rcases h with hu | hle
  · rw [hk] at hu; cases hu
  · exact hle

/-! ### What the two commands share -/

/-- The command byte and the offset byte of a body, both answers discarded. -/
theorem At.sramHeader {s : State} {run : Run} {ps : List Prim} {tx offset : Byte} {ph access : Phase}
    (h : At s run (Machine.xfer (.byte tx) .discard ++ Machine.xfer (.byte offset) .discard ++ ps))
    (hi : s.shifter = .idle) (hc : commandPhase tx = some ph)
    (ho : ∀ d, exchange s.cfg { s.peer with ph := ph } offset d = .answer d { s.peer with ph := access })
    (hp : s.cfg.peerKind = .reference → s.peer.ph = .cmd) :
    ∃ d0 d1 p run', run'.cmd = run.cmd ∧
      Drives s ((s.streamed [tx, offset] [d0, d1] p s.mem).at run') 6 ∧
      At ((s.streamed [tx, offset] [d0, d1] p s.mem).at run') run' ps ∧
      (s.cfg.peerKind = .reference → p = { s.peer with ph := access }) := by
  obtain ⟨d0, p0, d1, p1, b0, b1, b2⟩ := answers_sramHeader s.cfg s.draws s.peer hc ho hp
  obtain ⟨x1, x2⟩ := At.xferDiscard h hi (fun _ => rfl) b0
  obtain ⟨y1, y2⟩ := At.xferDiscard x2 rfl (fun _ => rfl) b1
  refine ⟨d0, d1, p1, run.next.next.next.next, rfl, (x1.trans y1 rfl).to ?e, y2.to ?e, b2⟩
  simp [State.streamed, State.exchanged, State.at, xfers]

/-- The state after a guarded transaction with these events before and for its data bytes. -/
def State.sramAccessed (s : State) (header data : List BusEvent) (m : List Host.Cell) (p : Peer) (n : Nat) : State :=
  { s with
    cs := false
    guardSaved := s.actIrqEn
    trace := s.trace ++ (.sel true :: header) ++ data ++ [.sel false]
    mem := m
    peer := p
    draws := n }

/-- An SRAM command whose transaction leaves only its `RESPOND()` to do: the response frees the port again. -/
theorem runCommand_of_sramAccess {c : Command} {s : State} {run : Run} {k : Nat} {header data : List BusEvent}
    {m : List Host.Cell} {p : Peer} {n : Nat} (hr : Ready s) (hc : issueFault c s = none) (hcmd : run.cmd = c)
    (hd : Drives (accept c s) (((accept c s).sramAccessed header data m p n).at run) k)
    (ha : At (((accept c s).sramAccessed header data m p n).at run) run [.respond .nothing])
    (hk : k + 1 ≤ 2 * (bodyOf s.cfg.mode c).length) :
    runCommand c s = .next { s.sramAccessed header data m p n with resp := s.resp ++ [⟨c.op, none⟩] } := by
  refine (runCommand_of_respond hr.fault hc hcmd hd ha hk).trans ?_
  simp only [respond, State.sramAccessed, accept, hr.seq]

/-- Such a command leaves the port ready for the next one. -/
theorem Ready.sramAccessed {s : State} (h : Ready s) (header data : List BusEvent) (m : List Host.Cell) (p : Peer)
    (n : Nat) (rs : List Response) : Ready { s.sramAccessed header data m p n with resp := rs } :=
  ⟨h.fault, h.seq, h.asyncState, h.shifter, h.guardDepth⟩

/-! ### The write (42_sram.md R170) -/

/-- The guarded transaction of an SRAM write, up to its `RESPOND`. -/
theorem At.sramWriteTransaction {s : State} {run : Run} {offset len : Byte} (h : At s run (sramWriteBody offset len))
    (hi : s.shifter = .idle) (hd : s.guardDepth = 0) (hb : run.cmd.buf + len.toNat ≤ s.cfg.hostSize)
    (hroom : PeerRoom s s.cfg.sramSize offset.toNat len.toNat) :
    ∃ d0 d1 ds p n run', run'.cmd = run.cmd ∧ ds.length = len.toNat ∧
      let t := s.sramAccessed [.xfer sramWriteByte d0, .xfer offset d1]
        (xfers (bufferBytes s.mem run.cmd.buf len.toNat) ds) s.mem p n
      Drives s (t.at run') (3 * len.toNat + 10) ∧ At (t.at run') run' [.respond .nothing] ∧
      (s.cfg.peerKind = .reference →
        p.ph = .idle ∧ SramStored s.mem run.cmd.buf offset.toNat len.toNat s.peer p) := by
  obtain ⟨p, n, o1, o2, o3⟩ := At.openGuarded h hi hd
  obtain ⟨d0, d1, p1, run1, hcmd, x1, x2, x3⟩ := At.sramHeader (access := .srw offset.toNat) o2 hi
    commandPhase_sramWriteByte (fun _ => exchange_srwOff rfl) (fun hk => congrArg Peer.ph (o3 hk).1)
  obtain ⟨ds, q, t1, hds, hq⟩ := answers_sramOut (cfg := s.cfg) (n + 2) (peer := p1) (k := offset.toNat) s.mem
    run.cmd.buf (fun hk => ⟨by rw [x3 hk], hroom.add_le hk⟩)
  rw [Run.next_cmd, Run.next_cmd] at hcmd
  rw [← hostBytes_eq_bufferBytes, ← hcmd] at t1
  obtain ⟨y1, y2⟩ := At.streamOut x2 rfl (by omega) (by rw [hcmd]; exact hb) t1
  obtain ⟨p2, m, c1, c2, c3⟩ := At.closeGuarded y2 rfl rfl
  refine ⟨d0, d1, ds, p2, m, (run1.rounds 0 len.toNat).next.next, hcmd, hds,
    (o1.trans (x1.trans (y1.trans c1 rfl) rfl) (by omega)).to ?e, c2.to ?e, fun hk => ?_⟩
  · rw [← hostBytes_eq_bufferBytes, ← hcmd]
    simp [State.closed, State.streamed, State.opened, State.at, State.sramAccessed, xfers, hi, hd]
  · obtain ⟨hp2, _⟩ := c3 hk
    have hstored := hq hk
    rw [x3 hk] at hstored
    simp only [State.opened, State.at, (o3 hk).1] at hstored
    rw [hp2]
    exact ⟨rfl, hstored⟩

theorem sramWriteBody_length (offset len : Byte) : (sramWriteBody offset len).length = 2 * len.toNat + 9 := by
  simp [sramWriteBody, xfer]

/-- The write, from issue to response, and what the reference peer then holds. -/
theorem runCommand_sramWrite {offset len : Byte} {buf : Nat} {s : State} (hr : Ready s) (hb : BufferOk s buf len)
    (hroom : PeerRoom s s.cfg.sramSize offset.toNat len.toNat) :
    ∃ d0 d1 ds p n, ds.length = len.toNat ∧ runCommand (.sramWrite offset buf len) s =
        .next { s.sramAccessed [.xfer sramWriteByte d0, .xfer offset d1] (xfers (bufferBytes s.mem buf len.toNat) ds)
          s.mem p n with resp := s.resp ++ [⟨0x5, none⟩] } ∧
      (s.cfg.peerKind = .reference → p.ph = .idle ∧ SramStored s.mem buf offset.toNat len.toNat s.peer p) := by
  have hbody : bodyOf s.cfg.mode (.sramWrite offset buf len) = sramWriteBody offset len := rfl
  obtain ⟨d0, d1, ds, p, n, run, hcmd, hds, hd, hat, hp⟩ :=
    (hbody ▸ at_accept (c := .sramWrite offset buf len) hr.fault).sramWriteTransaction hr.shifter hr.guardDepth
      hb.end_le hroom
  have hrun := runCommand_of_sramAccess hr (hr.issueFault_eq_none_of_usesBuffer rfl rfl hb) hcmd hd hat
    (by rw [hbody, sramWriteBody_length]; omega)
  exact ⟨d0, d1, ds, p, n, hds, hrun, hp⟩

/-! ### The read (42_sram.md R171) -/

/-- The guarded transaction of an SRAM read, up to its `RESPOND`. -/
theorem At.sramReadTransaction {s : State} {run : Run} {offset len : Byte} (h : At s run (sramReadBody offset len))
    (hi : s.shifter = .idle) (hd : s.guardDepth = 0) (hb : run.cmd.buf + len.toNat ≤ s.cfg.hostSize)
    (hroom : PeerRoom s s.cfg.sramSize offset.toNat len.toNat) :
    ∃ d0 d1 rxs p n run', run'.cmd = run.cmd ∧ rxs.length = len.toNat ∧
      let t := s.sramAccessed [.delay s.cfg.tSramSettle, .xfer sramReadByte d0, .xfer offset d1]
        (rxs.map (.xfer dummyByte)) (storeBytes s.mem run.cmd.buf 0 rxs) p n
      Drives s (t.at run') (3 * len.toNat + 11) ∧ At (t.at run') run' [.respond .nothing] ∧
      (s.cfg.peerKind = .reference → p = { s.peer with ph := .idle } ∧
        ∀ k v, k < len.toNat → Cells.get s.peer.sram (offset.toNat + k) = some v → rxs[k]? = some v) := by
  obtain ⟨p, n, o1, o2, o3⟩ := At.openGuarded h hi hd
  obtain ⟨w1, w2⟩ := At.settle o2 hi
  obtain ⟨d0, d1, p1, run1, hcmd, x1, x2, x3⟩ := At.sramHeader (access := .srr offset.toNat) w2 hi
    commandPhase_sramReadByte (fun _ => exchange_srrOff rfl) (fun hk => congrArg Peer.ph (o3 hk).1)
  obtain ⟨rxs, q, t1, hrxs, hq⟩ := answers_sramIn (cfg := s.cfg) (n + 2) (peer := p1) (k := offset.toNat)
    (n := len.toNat) (fun hk => ⟨by rw [x3 hk], hroom.add_le hk⟩)
  obtain ⟨y1, y2⟩ := At.streamIn x2 rfl (by omega) (by rw [hcmd]; exact hb) t1
  obtain ⟨p2, m, c1, c2, c3⟩ := At.closeGuarded y2 rfl rfl
  refine ⟨d0, d1, rxs, p2, m, (run1.rounds 0 len.toNat).next.next, hcmd, hrxs,
    (o1.trans (w1.trans (x1.trans (y1.trans c1 rfl) rfl) rfl) (by omega)).to ?e, c2.to ?e, fun hk => ?_⟩
  · rw [← hrxs, hcmd, ← xfers_replicate]
    simp [State.closed, State.streamed, State.opened, State.at, State.sramAccessed, Machine.settle, xfers, hi, hd]
  · obtain ⟨hp2, _⟩ := c3 hk
    obtain ⟨⟨ph, hph⟩, hread⟩ := hq hk
    rw [x3 hk] at hph hread
    simp only [Machine.settle, State.opened, State.at, (o3 hk).1] at hph hread
    exact ⟨by rw [hp2]; simp [State.streamed, State.at, hph], hread⟩

theorem sramReadBody_length (offset len : Byte) : (sramReadBody offset len).length = 2 * len.toNat + 10 := by
  simp [sramReadBody, xfer]

/-- The read, from issue to response, and which bytes the reference peer answered. -/
theorem runCommand_sramRead {offset len : Byte} {buf : Nat} {s : State} (hr : Ready s) (hb : BufferOk s buf len)
    (hroom : PeerRoom s s.cfg.sramSize offset.toNat len.toNat) :
    ∃ d0 d1 rxs p n, rxs.length = len.toNat ∧ runCommand (.sramRead offset buf len) s =
        .next { s.sramAccessed [.delay s.cfg.tSramSettle, .xfer sramReadByte d0, .xfer offset d1]
          (rxs.map (.xfer dummyByte)) (storeBytes s.mem buf 0 rxs) p n with resp := s.resp ++ [⟨0x6, none⟩] } ∧
      (s.cfg.peerKind = .reference → p = { s.peer with ph := .idle } ∧
        ∀ k v, k < len.toNat → Cells.get s.peer.sram (offset.toNat + k) = some v → rxs[k]? = some v) := by
  have hbody : bodyOf s.cfg.mode (.sramRead offset buf len) = sramReadBody offset len := rfl
  obtain ⟨d0, d1, rxs, p, n, run, hcmd, hrxs, hd, hat, hp⟩ :=
    (hbody ▸ at_accept (c := .sramRead offset buf len) hr.fault).sramReadTransaction hr.shifter hr.guardDepth
      hb.end_le hroom
  have hrun := runCommand_of_sramAccess hr (hr.issueFault_eq_none_of_usesBuffer rfl rfl hb) hcmd hd hat
    (by rw [hbody, sramReadBody_length]; omega)
  exact ⟨d0, d1, rxs, p, n, hrxs, hrun, hp⟩

/-- A read stores what the reference peer's SRAM holds from the offset on (42_sram.md R172). -/
theorem Ready.exec_sramRead_of_holds {s : State} {offset len : Byte} {buf : Nat} {f : Nat → Byte} (h : Ready s)
    (hk : s.cfg.peerKind = .reference) (hb : BufferOk s buf len) (hroom : offset.toNat + len.toNat ≤ s.cfg.sramSize)
    (hf : ∀ k, k < len.toNat → Cells.get s.peer.sram (offset.toNat + k) = some (f k)) :
    ∃ t, exec (.sramRead offset buf len) s = .next t ∧ ∀ k, k < len.toNat → Memory.read t.mem (buf + k) = f k := by
  obtain ⟨_, _, rxs, _, _, hlen, hrun, hp⟩ := runCommand_sramRead h hb (.inr hroom)
  refine ⟨_, hrun, fun k hlt => ?_⟩
  obtain ⟨_, hread⟩ := hp hk
  refine (read_storeBytes ..).trans ?_
  rw [if_pos (by omega), List.getD_eq_getElem?_getD, Nat.add_zero, Nat.add_sub_cancel_left, hread k _ hlt (hf k hlt)]
  rfl

end Sys2Proof.Machine
end

section
/-! SUPPORT. The statements about the SRAM (42_sram.md): each theorem settles one obligation. -/

open Sys2Proof Sys2Proof.Machine

/-- Settles O31: the guarded transaction with the offset before the buffer's bytes. -/
theorem sramWriteEffect : Obligations.SramWriteEffect := by
  intro offset buf len s hr hb hroom
  exact runCommand_sramWrite hr hb hroom

/-- Settles O32: the guarded transaction with the settling delay, whose answers stand in the buffer. -/
theorem sramReadEffect : Obligations.SramReadEffect := by
  intro offset buf len s hr hb hroom
  obtain ⟨d0, d1, rxs, p, n, hrxs, hrun, hp⟩ := runCommand_sramRead hr hb hroom
  refine ⟨d0, d1, rxs, _, p, n, hrxs, hrun, fun a => ?_, hp⟩
  exact (read_storeBytes ..).trans (by rw [hrxs, Nat.add_zero])

/-- Settles O41: the write leaves the port ready and the bytes in the peer's SRAM, where the read finds them. -/
theorem sramRoundTrip : Obligations.SramRoundTrip := by
  intro offset b c len s hr hk hb hc hroom
  obtain ⟨d0, d1, ds, p, n, _, hwrite, hp⟩ := runCommand_sramWrite hr hb (.inr hroom)
  obtain ⟨_, _, _, hsram⟩ := hp hk
  have hready := hr.sramAccessed [.xfer sramWriteByte d0, .xfer offset d1]
    (xfers (bufferBytes s.mem b len.toNat) ds) s.mem p n (s.resp ++ [⟨0x5, none⟩])
  obtain ⟨u, hread, hmem⟩ := hready.exec_sramRead_of_holds hk hc hroom (f := fun k => Memory.read s.mem (b + k))
    fun k hlt => (hsram (offset.toNat + k)).trans (by rw [if_pos (by omega), Nat.add_sub_cancel_left])
  exact ⟨_, u, hwrite, hread, hmem⟩

end

section
/-! SUPPORT. The guard's two primitives (43_critical_section_guard.md R180, R181): what each answers below and at its bound
of the depth, and that the one undoes the other. -/

namespace Sys2Proof.Machine

theorem guardEnter_of_lt {s : State} (h : s.guardDepth.toNat < 255) : guardEnter s = .next s.guarded := if_pos h

theorem guardEnter_of_not_lt {s : State} (h : ¬ s.guardDepth.toNat < 255) :
    guardEnter s = raise .guardDepth s.guardDepth.toNat s := if_neg h

theorem guardExit_of_ne_zero {s : State} (h : s.guardDepth ≠ 0) : guardExit s = .next s.unguarded :=
  if_pos (by bv_omega)

theorem guardExit_of_zero {s : State} (h : s.guardDepth = 0) : guardExit s = raise .guardDepth 0 s :=
  if_neg (by bv_omega)

/-- The exit is the outermost one from depth 1 alone. -/
theorem State.unguarded_eq (s : State) : s.unguarded =
    { s with
      guardDepth := s.guardDepth - 1
      actIrqEn := if s.guardDepth = 1 then s.guardSaved else s.actIrqEn } := by
  have h : s.guardDepth - 1 = 0 ↔ s.guardDepth = 1 := sub_eq_zero
  simp only [State.unguarded, h]

/-- The exit counts back to the depth of the entry, and restores the enable: from depth 0 the one saved, from a greater
depth the 0 that a held guard keeps it at. -/
theorem State.guarded_unguarded {s : State} (h : s.guardDepth ≠ 0 → s.actIrqEn = false) : s.guarded.unguarded =
    { s with guardSaved := if s.guardDepth = 0 then s.actIrqEn else s.guardSaved } := by
  have hdepth : s.guardDepth + 1 - 1 = s.guardDepth := add_sub_cancel_right _ _
  simp only [State.unguarded, State.guarded, hdepth]
  by_cases hd : s.guardDepth = 0
  · simp only [hd, if_true]
  · simp only [hd, if_false, h hd]

/-- A primitive that records a fault does not go on to the next place. -/
theorem andThen_raise (code : FaultCode) (info : Nat) (s : State) (k : State → Result) :
    andThen (raise code info s) k = raise code info s := rfl

end Sys2Proof.Machine
end

section
/-! SUPPORT. The statements about the guard (43_critical_section_guard.md): each theorem settles one obligation. -/

open Sys2Proof Sys2Proof.Machine

/-- Settles O48: below its bound each primitive goes on to the next place, at the bound it records its fault. -/
theorem guardRules : Obligations.GuardRules := by
  intro s run hf hs
  refine ⟨fun hx => ⟨fun hlt => ?_, fun hmax => ?_⟩, fun hx => ⟨fun hne => ?_, fun hzero => ?_⟩⟩ <;>
    rw [seqStep_of_nextPrim hs hx, primStep]
  · rw [guardEnter_of_lt hlt, andThen_of_none _ (by exact hf)]; rfl
  · rw [guardEnter_of_not_lt (by omega), andThen_raise, hmax]; rfl
  · rw [guardExit_of_ne_zero hne, State.unguarded_eq, andThen_of_none _ (by exact hf)]; rfl
  · rw [guardExit_of_zero hzero, andThen_raise]; rfl

/-- Settles O49: the entry leaves a depth above 0, and the exit from there undoes it. -/
theorem emptyGuardIsNoOp : Obligations.EmptyGuardIsNoOp := by
  intro s hlt hen
  have hne : s.guarded.guardDepth ≠ 0 := by
    show s.guardDepth + 1 ≠ 0
    bv_omega
  exact ⟨s.guarded, guardEnter_of_lt hlt, by rw [guardExit_of_ne_zero hne, State.guarded_unguarded hen]⟩

end

section
/-! SUPPORT. The subregister codec (44_subregister_codec.md): the laws of its field arithmetic (R190, R191), its two
commands from issue to response, and what a register of the reference peer that holds a known byte makes of them
(R193). -/

namespace Sys2Proof.Machine

/-! ### The field arithmetic -/

/-- The codec reads back from the merge what was placed: the mask drops the old bits and keeps the placed ones. -/
theorem fieldRead_fieldMerge (r mask : Byte) (pos : BitVec 3) (value : Byte) :
    fieldRead (fieldMerge r mask pos value) mask pos = fieldPlaced value mask pos >>> pos.toNat := by
  have hmasked : fieldMerge r mask pos value &&& mask = fieldPlaced value mask pos := by
    ext i hi
    simp only [fieldMerge, fieldPlaced, BitVec.getElem_and, BitVec.getElem_or, BitVec.getElem_not]
    cases mask[i] <;> simp
  rw [fieldRead, hmasked]

/-- A bit outside the mask is that of the old byte. -/
theorem fieldMerge_getLsbD_of_unmasked (r : Byte) {mask : Byte} (pos : BitVec 3) (value : Byte) {n : Nat}
    (h : mask.getLsbD n = false) : (fieldMerge r mask pos value).getLsbD n = r.getLsbD n := by
  by_cases hn : n < 8
  · simp only [fieldMerge, fieldPlaced, BitVec.getLsbD_or, BitVec.getLsbD_and, BitVec.getLsbD_not, h, hn]
    simp
  · rw [BitVec.getLsbD_of_ge _ _ (by omega), BitVec.getLsbD_of_ge _ _ (by omega)]

/-- A value that fits the field comes back whole: the mask, which has 8 bits, covers each of its bits at its place. -/
theorem fieldPlaced_shiftRight_of_fits {value mask : Byte} {pos : BitVec 3}
    (h : (value.setWidth 16 <<< pos.toNat) &&& mask.setWidth 16 = value.setWidth 16 <<< pos.toNat) :
    fieldPlaced value mask pos >>> pos.toNat = value := by
  have hpos := pos.isLt
  ext i hi
  have hcovered : value[i] = true → mask.getLsbD (pos.toNat + i) = true := fun hv => by
    have hbit := congrArg (·.getLsbD (pos.toNat + i)) h
    have h16 : pos.toNat + i < 16 := by omega
    simpa [BitVec.getLsbD_eq_getElem hi, hv, h16] using hbit
  have hplaced : (fieldPlaced value mask pos >>> pos.toNat)[i] = (value[i] && mask.getLsbD (pos.toNat + i)) := by
    by_cases h8 : pos.toNat + i < 8
    · simp [fieldPlaced, h8]
    · simp [fieldPlaced, h8, BitVec.getLsbD_of_ge mask _ (by omega : 8 ≤ pos.toNat + i)]
  rw [hplaced]
  cases hv : value[i] with
  | false => rfl
  | true => exact hcovered hv

/-! ### The commands -/

/-- `BITFIELD_READ` from issue to response: the guarded read transaction, then the field of the byte it received
(44_subregister_codec.md R190). -/
theorem exec_bitfieldRead {addr : Byte} (mask : Byte) (pos : BitVec 3) {s : State} (hr : Ready s)
    (ha : addr.toNat < 0x40) : ∃ d0 r p n,
    exec (.bitfieldRead addr mask pos) s =
      .next (s.served (0x80#8 ||| addr) d0 dummyByte r p n ⟨0x7, some (fieldRead r mask pos)⟩) ∧
    (s.cfg.peerKind = .reference → p = { s.peer with ph := .idle }) ∧
    (PlainRegister s addr → ∀ v, Cells.get s.peer.regs addr.toNat = some v → r = v) := by
  obtain ⟨d0, r, p, n, run, hcmd, hlocal, hd, hat, hp, hread⟩ :=
    At.regReadTransaction (addr := addr) (at_accept (c := .bitfieldRead addr mask pos) hr.fault) hr.shifter
      hr.guardDepth
  have hrun := runCommand_of_transaction (w := some (fieldRead r mask pos)) hr
    (hr.issueFault_eq_none_of_usesAddr rfl rfl ha) rfl rfl hcmd hd hat
    (fun _ => by simp only [respondStep, hlocal, hcmd, Command.bitfieldRead])
  rw [regReadByte_addrLow ha] at hrun
  rw [addrLow_toNat ha] at hread
  exact ⟨d0, r, p, n, hrun, hp, fun ⟨hk, hside⟩ => hread hk hside⟩

/-- A transaction leaves the port as ready as it was. -/
theorem Ready.transacted {s : State} (h : Ready s) (tx0 rx0 tx1 rx1 : Byte) (p : Peer) (n : Nat) :
    Ready (s.transacted tx0 rx0 tx1 rx1 p n) :=
  ⟨h.fault, h.seq, h.asyncState, h.shifter, h.guardDepth⟩

/-- `BITFIELD_WRITE` from issue to response: the guarded read transaction, and from the state it leaves the guarded
write transaction of the merge (44_subregister_codec.md R191, R192). -/
theorem exec_bitfieldWrite {addr : Byte} (mask : Byte) (pos : BitVec 3) (value : Byte) {s : State} (hr : Ready s)
    (ha : addr.toNat < 0x40) : ∃ d0 r q k d1 d2 p n,
    exec (.bitfieldWrite addr mask pos value) s =
      .next ((s.transacted (0x80#8 ||| addr) d0 dummyByte r q k).served (0xC0#8 ||| addr) d1
        (fieldMerge r mask pos value) d2 p n ⟨0x8, none⟩) ∧
    (s.cfg.peerKind = .reference →
      p = { s.peer with regs := Cells.put s.peer.regs addr.toNat (fieldMerge r mask pos value), ph := .idle }) ∧
    (PlainRegister s addr → ∀ v, Cells.get s.peer.regs addr.toNat = some v → r = v) := by
  obtain ⟨d0, r, q, k, run, hcmd, hlocal, hd, hat, hq, hread⟩ :=
    At.regReadTransaction (addr := addr) (at_accept (c := .bitfieldWrite addr mask pos value) hr.fault) hr.shifter
      hr.guardDepth
  obtain ⟨d1, d2, p, n, run', hcmd', _, hd', hat', hp⟩ :=
    hat.regWriteTransaction (addr := addr) (v := fieldMerge r mask pos value) hr.shifter hr.guardDepth
      (fun t w k hw hc => by simp only [withSource, hw.trans hlocal, hc.trans hcmd, Command.bitfieldWrite])
  have hlength : (bodyOf s.cfg.mode (.bitfieldWrite addr mask pos value)).length = 17 := rfl
  have hrun := runCommand_of_respond (c := .bitfieldWrite addr mask pos value) hr.fault
    (hr.issueFault_eq_none_of_usesAddr rfl rfl ha) (hcmd'.trans hcmd) (hd.trans hd' rfl) hat' (by rw [hlength]; decide)
  rw [regReadByte_addrLow ha, regWriteByte_addrLow ha] at hrun
  rw [addrLow_toNat ha] at hread hp
  refine ⟨d0, r, q, k, d1, d2, p, n, hrun.trans ?_, fun hk => ?_, fun ⟨hk, hside⟩ => hread hk hside⟩
  · simp only [respond, State.at, State.served, State.transacted, accept, hr.seq, Command.bitfieldWrite]
  · exact (hp hk).trans (by rw [hq hk]; rfl)

/-! ### A register that holds a known byte (20_memory.md R90, R102) -/

/-- The port is ready, and register `addr` holds `v`, which is what a read of it answers. -/
structure RegisterHolds (s : State) (addr v : Byte) : Prop where
  ready : Ready s
  plain : PlainRegister s addr
  cell  : Cells.get s.peer.regs addr.toNat = some v

section
variable {s : State} {addr v : Byte}

/-- A bit-field write leaves the merge in the register (44_subregister_codec.md R191). -/
theorem RegisterHolds.bitfieldWrite (h : RegisterHolds s addr v) (ha : addr.toNat < 0x40) (mask : Byte)
    (pos : BitVec 3) (value : Byte) : ∃ t, exec (.bitfieldWrite addr mask pos value) s = .next t ∧
      t.resp = s.resp ++ [⟨0x8, none⟩] ∧ RegisterHolds t addr (fieldMerge v mask pos value) := by
  obtain ⟨_, r, _, _, _, _, p, _, hrun, hp, hread⟩ := exec_bitfieldWrite mask pos value h.ready ha
  obtain rfl := hread h.plain v h.cell
  have hcell : Cells.get p.regs addr.toNat = some (fieldMerge r mask pos value) := by
    rw [hp h.plain.1]
    exact Cells.get_put_same _ _ _
  exact ⟨_, hrun, rfl, (h.ready.transacted ..).served .., h.plain, hcell⟩

/-- A bit-field read answers the register's field and leaves the register (44_subregister_codec.md R190). -/
theorem RegisterHolds.bitfieldRead (h : RegisterHolds s addr v) (ha : addr.toNat < 0x40) (mask : Byte)
    (pos : BitVec 3) : ∃ t, exec (.bitfieldRead addr mask pos) s = .next t ∧
      t.resp = s.resp ++ [⟨0x7, some (fieldRead v mask pos)⟩] ∧ RegisterHolds t addr v := by
  obtain ⟨_, r, p, _, hrun, hp, hread⟩ := exec_bitfieldRead mask pos h.ready ha
  obtain rfl := hread h.plain v h.cell
  have hcell : Cells.get p.regs addr.toNat = some r := by
    rw [hp h.plain.1]
    exact h.cell
  exact ⟨_, hrun, rfl, h.ready.served .., h.plain, hcell⟩

/-- A register read answers the register's byte (40_register_access.md R151). -/
theorem RegisterHolds.regRead (h : RegisterHolds s addr v) (ha : addr.toNat < 0x40) :
    ∃ t, exec (.regRead addr) s = .next t ∧ t.resp = s.resp ++ [⟨0x2, some v⟩] := by
  obtain ⟨_, r, _, _, hrun, _, hread⟩ := regReadEffect addr s h.ready ha
  obtain rfl := hread h.plain v h.cell
  exact ⟨_, hrun, rfl⟩

end

end Sys2Proof.Machine
end

section
/-! SUPPORT. The statements about the subregister codec (44_subregister_codec.md): each theorem settles one
obligation. -/

open Sys2Proof Sys2Proof.Machine

/-- Settles O26: the guarded read transaction, then the response with the field of the byte it received. -/
theorem bitfieldReadEffect : Obligations.BitfieldReadEffect := by
  intro addr mask pos s hr ha
  exact exec_bitfieldRead mask pos hr ha

/-- Settles O27: the traces of the two transactions stand one after the other. -/
theorem bitfieldWriteEffect : Obligations.BitfieldWriteEffect := by
  intro addr mask pos value s hr ha
  obtain ⟨d0, r, q, k, d1, d2, p, n, hrun, hp, hread⟩ := exec_bitfieldWrite mask pos value hr ha
  refine ⟨d0, r, d1, d2, fieldMerge r mask pos value, p, n, rfl, hrun.trans ?_, hp, hread⟩
  simp only [State.served, State.transacted, List.append_assoc, List.cons_append, List.nil_append, dummyByte,
    fieldMerge, fieldPlaced]

/-- Settles O42: the write leaves the merge in the register, where both reads find it; the rest is the codec's
arithmetic. -/
theorem bitfieldRoundTrip : Obligations.BitfieldRoundTrip := by
  intro addr mask pos value r0 s hr ha hplain hcell
  have h0 : RegisterHolds s addr r0 := ⟨hr, hplain, hcell⟩
  obtain ⟨t, hwrite, hresp1, h1⟩ := h0.bitfieldWrite ha mask pos value
  obtain ⟨u, hfield, hresp2, h2⟩ := h1.bitfieldRead ha mask pos
  obtain ⟨w, hread, hresp3⟩ := h2.regRead ha
  rw [fieldRead_fieldMerge] at hresp2
  refine ⟨t, u, w, fieldMerge r0 mask pos value, hwrite, hfield, hread, ?_, rfl,
    fun n => fieldMerge_getLsbD_of_unmasked r0 pos value, fieldPlaced_shiftRight_of_fits⟩
  rw [hresp3, hresp2, hresp1, List.append_assoc, List.append_assoc]
  rfl

end

section
/-! SUPPORT. What each event does to the asynchronous machine's registers (45_async_frame_write.md R200–R204), and every
point of the run in which `BUS` completes each byte before its completion event. -/

namespace Sys2Proof.Machine

/-! ### The registers of the asynchronous machine, move by move -/

/-- The asynchronous machine's registers are as before. -/
def AsyncSame (s t : State) : Prop :=
  t.asyncState = s.asyncState ∧ t.asyncRemaining = s.asyncRemaining ∧ t.asyncCursor = s.asyncCursor

/-- The asynchronous machine is running, with the buffer and the length of this record (45_async_frame_write.md R201). -/
def StartedBy (c : Command) (t : State) : Prop :=
  t.asyncState = .writing ∧ t.asyncRemaining = c.len ∧ t.asyncCursor = c.buf

theorem AsyncSame.refl (s : State) : AsyncSame s s := ⟨rfl, rfl, rfl⟩

theorem AsyncSame.trans {s t u : State} (h1 : AsyncSame s t) (h2 : AsyncSame t u) : AsyncSame s u := by
  obtain ⟨a1, a2, a3⟩ := h1
  obtain ⟨b1, b2, b3⟩ := h2
  exact ⟨b1.trans a1, b2.trans a2, b3.trans a3⟩

theorem StartedBy.of_same {c : Command} {s t : State} (h1 : StartedBy c s) (h2 : AsyncSame s t) : StartedBy c t := by
  obtain ⟨a1, a2, a3⟩ := h1
  obtain ⟨b1, b2, b3⟩ := h2
  exact ⟨b1.trans a1, b2.trans a2, b3.trans a3⟩

/-- A command of another op leaves the registers (45_async_frame_write.md R200). -/
theorem CommandFrame.asyncSame {c : Command} {s t : State} (h : CommandFrame c s t) (ho : c.op ≠ 0x3#4) :
    AsyncSame s t := by
  obtain ⟨_, h1, h2, h3⟩ := h.async ho
  exact ⟨h1, h2, h3⟩

theorem busStep_asyncSame {s t : State} (h : busStep s = .next t) : AsyncSame s t := by
  obtain ⟨_, _, _, _, _, rfl⟩ := busStep_frame h
  exact .refl _

theorem issue_asyncSame {c : Command} {s t : State} (h : issue c s = .next t) : AsyncSame s t := by
  obtain ⟨_, _, rfl⟩ := issue_writes h
  exact .refl _

theorem hostWrite_asyncSame {a : Nat} {v : Byte} {s t : State} (h : hostWrite a v s = .next t) : AsyncSame s t := by
  obtain ⟨_, rfl, _⟩ := hostWrite_writes h
  exact .refl _

/-- The last step of the start is the only primitive that writes the registers (45_async_frame_write.md R201). -/
theorem primStep_async {run : Run} {s t : State} {x : Prim} (h : primStep run s x = .next t) :
    AsyncSame s t ∨ x = .asyncArm ∧ StartedBy run.cmd t := by
  by_cases hx : x = .asyncArm
  · subst hx; cases h; exact .inr ⟨rfl, rfl, rfl, rfl⟩
  · obtain ⟨_, h1, h2, h3⟩ := (primStep_frame h).async hx
    exact .inl ⟨h1, h2, h3⟩

/-- A `SEQ` step writes the registers only as the last step of a frame write's start. -/
theorem seqStep_async {s t : State} (h : seqStep s = .next t) :
    AsyncSame s t ∨ ∃ run, s.seq = some run ∧ nextPrim s.cfg.mode run = some .asyncArm ∧ run.cmd.op = 0x3#4 ∧
      StartedBy run.cmd t := by
  rcases seqStep_next h with ⟨_, rfl⟩ | ⟨run, x, hs, hx, hp⟩
  · exact .inl (.refl _)
  · rcases primStep_async hp with hsame | ⟨rfl, hstart⟩
    · exact .inl hsame
    · obtain ⟨harm, _⟩ := mem_bodyOf (List.mem_of_getElem? hx)
      exact .inr ⟨run, hs, hx, harm rfl, hstart⟩

/-- A step that takes command `c` forward leaves the registers or starts the machine with `c`'s record. -/
theorem forward_async {c : Command} {s t : State} (hc : PortRunsOnly c s) (h : forward s = .next t) :
    AsyncSame s t ∨ StartedBy c t := by
  unfold forward at h
  split at h
  · exact .inl (busStep_asyncSame h)
  · rcases seqStep_async h with hsame | ⟨run, hs, _, _, hstart⟩
    · exact .inl hsame
    · rcases hc with hnone | ⟨run', hrun, rfl, _⟩
      · rw [hnone] at hs; cases hs
      · obtain rfl := Option.some.inj (hrun.symm.trans hs)
        exact .inr hstart

/-- A whole host command leaves the registers, unless it is a frame write that starts the machine with its record. -/
theorem runCommand_async {c : Command} {s t : State} (h : runCommand c s = .next t) :
    AsyncSame s t ∨ c.op = 0x3#4 ∧ StartedBy c t := by
  by_cases ho : c.op = 0x3#4
  · obtain ⟨_, h⟩ := whileRunning_next.1 h
    rcases andThen_next h with ⟨hi, _⟩ | ⟨u, hi, huf, hd⟩
    · exact .inl (issue_asyncSame hi)
    · have hu : PortRunsOnly c u := by
        rcases issue_next hi with ⟨f, _, rfl⟩ | ⟨_, rfl⟩
        · cases huf
        · exact .inr ⟨_, rfl, rfl, rfl⟩
      have hkeep : ∀ {v w : State}, forward v = .next w → PortRunsOnly c v ∧ (AsyncSame s v ∨ StartedBy c v) →
          PortRunsOnly c w ∧ (AsyncSame s w ∨ StartedBy c w) := fun hw ⟨hv, hreg⟩ => by
        refine ⟨(forward_commandFrame hv hw).1, ?_⟩
        rcases forward_async hv hw with hsame | hstart
        · exact hreg.imp (·.trans hsame) (·.of_same hsame)
        · exact .inr hstart
      exact (drive_keeps hkeep hd ⟨hu, .inl (issue_asyncSame hi)⟩).2.imp_right fun hstart => ⟨ho, hstart⟩
  · exact .inl ((runCommand_commandFrame h).asyncSame ho)

/-- A record of a frame write decodes to one with its buffer and length (30_encoding.md R131). -/
theorem encode_of_decodeRecord_frameWrite {m : Mode} {c : Command} {i : Instr} (h : decodeRecord m c = .instr i)
    (ho : c.op = 0x3#4) : encode i = .record (.frameWrite c.buf c.len) := by
  cases m with
  | blocking =>
    obtain rfl : Instr.frameWriteBlocking c.buf c.len = i := by simpa [decodeRecord, ho] using h
    rfl
  | nonblocking =>
    obtain rfl : Instr.frameWriteNonblocking c.buf c.len = i := by simpa [decodeRecord, ho] using h
    rfl

/-- A command line of mainline's program, whatever its record holds in the fields its op does not use. -/
theorem commandLine_async {c : Command} {s t : State} (h : commandLine c s = .next t) :
    AsyncSame s t ∨ c.op = 0x3#4 ∧ StartedBy c t := by
  unfold commandLine at h
  split at h
  · next i hdec =>
    obtain ⟨_, c', henc, hop⟩ := encode_of_decodeRecord hdec
    by_cases ho : c.op = 0x3#4
    · rw [exec_record (encode_of_decodeRecord_frameWrite hdec ho)] at h
      exact (runCommand_async h).imp_right fun ⟨_, hstart⟩ => ⟨ho, hstart⟩
    · rw [exec_record henc] at h
      exact .inl ((runCommand_commandFrame h).asyncSame (hop ▸ ho))
  · exact .inl (issue_asyncSame h)

/-- The poll is a `STATUS_READ`, whatever it does with its line (30_encoding.md R135). -/
theorem pollLine_asyncSame {after : List Line} {s t : State} (h : pollLine after s = .next t) : AsyncSame s t := by
  have poll : ∀ {u}, exec .statusRead s = .next u → AsyncSame s u := fun {u} hu => by
    rw [exec_record (c := .statusRead) rfl] at hu
    exact (runCommand_commandFrame hu).asyncSame (by decide)
  rcases andThen_next h with ⟨h, _⟩ | ⟨u, h1, _, h2⟩
  · exact poll h
  · refine (poll h1).trans ?_
    cases h2
    split <;> exact .refl _

/-- Of mainline's lines only a frame write's record starts the machine. -/
theorem mainlineStep_async {s t : State} (h : mainlineStep s = .next t) :
    AsyncSame s t ∨ ∃ c after, s.prog = .command c :: after ∧ c.op = 0x3#4 ∧ StartedBy c t := by
  unfold mainlineStep at h
  split at h
  · cases h; exact .inl (.refl _)
  · next c after hp =>
    exact (commandLine_async h).imp id fun ⟨ho, hstart⟩ => ⟨c, after, hp, ho, hstart⟩
  · next a v after _ => exact .inl (hostWrite_asyncSame (s := { s with prog := after }) h)
  · exact .inl (pollLine_asyncSame h)

/-- Every move but the completion event leaves the registers, or is the start of a frame write by `SEQ` or as a line of
mainline (45_async_frame_write.md R200). -/
theorem runEvent_async {e : Event} {s t : State} (hf : s.fault = none) (he : e ≠ .completion)
    (h : runEvent e s = .next t) : AsyncSame s t ∨ ∃ c : Command, c.op = 0x3#4 ∧
      ((e = .mainline ∧ ∃ after, s.prog = .command c :: after) ∨
        (e = .sequencer ∧ ∃ run, s.seq = some run ∧ run.cmd = c ∧ nextPrim s.cfg.mode run = some .asyncArm)) ∧
      StartedBy c t := by
  cases e with
  | mainline =>
    exact (mainlineStep_async h).imp_right fun ⟨c, after, hp, ho, hstart⟩ =>
      ⟨c, ho, .inl ⟨rfl, after, hp⟩, hstart⟩
  | issue c => exact .inl (issue_asyncSame h)
  | hostWrite a v => exact .inl (hostWrite_asyncSame h)
  | sequencer =>
    exact (seqStep_async h).imp_right fun ⟨run, hs, hx, ho, hstart⟩ =>
      ⟨run.cmd, ho, .inr ⟨rfl, run, hs, rfl, hx⟩, hstart⟩
  | bus => exact .inl (busStep_asyncSame ((busMove_eq_busStep hf).symm.trans h))
  | completion => exact absurd rfl he
  | environment l => cases h; exact .inl (.refl _)

/-- The completion event leaves `async_state`, but where it finds no byte remaining (45_async_frame_write.md R203, R204). -/
theorem completionStep_asyncState {s t : State} (hf : s.fault = none) (h : completionStep s = .next t) :
    t.asyncState = s.asyncState ∨ completionEnabled s = true ∧ s.asyncRemaining = 0 ∧ t.asyncState = .idle := by
  rcases completionStep_next hf h with ⟨_, rfl⟩ | ⟨he, h0, rfl⟩ | ⟨_, _, _, rfl⟩
  · exact .inl rfl
  · exact .inr ⟨he, h0, rfl⟩
  · exact .inl rfl

/-- Every move of every agent keeps the controller's invariant. -/
theorem runEvent_keeps_inv {e : Event} {s t : State} (hI : BlockInv s) (hf : s.fault = none)
    (h : runEvent e s = .next t) : BlockInv t :=
  chain_keeps (fun _ _ hf hm hI => hm.keeps_inv hf hI) (runEvent_moves hf h) hI

/-- Only in `NONBLOCKING` does an asynchronous write run (10_state.md R51). -/
theorem BlockInv.nonblocking_of_writing {s : State} (h : BlockInv s) (hw : s.asyncState = .writing) :
    s.cfg.mode = .nonblocking := by
  cases hm : s.cfg.mode with
  | nonblocking => rfl
  | blocking => rw [h.blocking hm] at hw; cases hw

/-- No move writes the configuration (10_state.md R34). -/
theorem runEvent_cfg {e : Event} {s t : State} (hf : s.fault = none) (h : runEvent e s = .next t) : t.cfg = s.cfg := by
  obtain ⟨hcfg, _, _⟩ := chain_induction (R := HistoryExtends) (fun _ => .of_eq rfl rfl rfl) (fun _ _ _ => .trans)
    (fun _ _ hf hm => hm.historyExtends hf) (runEvent_moves hf h)
  exact hcfg

/-! ### The completion event where it is enabled, and where it is not (45_async_frame_write.md R202, R203) -/

/-- The push where the cursor is in host memory: the shifter has just been emptied, so the `SEND` goes through. -/
theorem completionStep_push {s : State} (hf : s.fault = none) (he : completionEnabled s = true)
    (hn : s.asyncRemaining ≠ 0) (hc : s.asyncCursor < s.cfg.hostSize) :
    completionStep s = .next { s with
      shifter := .busy (Memory.read s.mem s.asyncCursor)
      asyncCursor := nextCursor s
      asyncRemaining := s.asyncRemaining - 1 } := by
  rw [completionStep, if_pos he, if_neg hn, completionPush]
  refine (withMemRead_of_lt (s := { s with shifter := .idle }) _ hc).trans ?_
  exact andThen_of_none (u := { s with shifter := .busy (Memory.read s.mem s.asyncCursor) }) _ hf

theorem completionPending_of_not_done {s : State} (h : ∀ rx, s.shifter ≠ .done rx) : completionPending s = false := by
  cases hs : s.shifter with
  | done rx => exact absurd hs (h rx)
  | _ => simp [completionPending, hs]

/-- A completion event that is not enabled changes nothing (45_async_frame_write.md R202; log 4). -/
theorem completionStep_of_disabled {s : State} (h : completionEnabled s = false) : completionStep s = .next s := by
  rw [completionStep, h]; rfl

/-! ### Every point of the run before the last completion event (45_async_frame_write.md R205) -/

/-- From a byte in the shifter with `n` bytes remaining, the write is on its way at every point before the last event of
the `n + 1` rounds. -/
theorem Writing.run_stays_writing {s : State} {tx : Byte} {n : Nat} (h : Writing s tx) (hcs : s.cs = true)
    (hn : s.asyncRemaining.toNat = n) (hb : s.asyncCursor + n ≤ s.cfg.hostSize) {rxs : List Byte} {q : Peer}
    (ht : talk s.cfg s.draws s.peer (tx :: bufferBytes s.mem s.asyncCursor n) = some (rxs, q)) (l : List Event)
    {j : Nat} (hj : j < 2 * (n + 1)) :
    ∃ v, Sys2Proof.core.run j { s with sched := busThenCompletion (n + 1) ++ l } = .next v ∧
      v.asyncState = .writing ∧ v.cs = true := by
  obtain ⟨rx, p, rxs', ha, ht', rfl⟩ := talk_cons_inv ht
  match j with
  | 0 => exact ⟨_, rfl, h.writing, hcs⟩
  | 1 => exact ⟨_, run_succ (h.step_bus ha _) 0, h.writing, hcs⟩
  | j + 2 =>
    cases n with
    | zero => omega
    | succ n =>
      have h0 : s.asyncRemaining ≠ 0 := fun h0 => by rw [h0] at hn; cases hn
      have hless : (s.asyncRemaining - 1).toNat = n := by bv_omega
      have hcursor : nextCursor s + n ≤ s.cfg.hostSize := by
        have hle : nextCursor s ≤ s.asyncCursor + 1 := Nat.mod_le _ _
        omega
      rw [bufferBytes_succ, ← bufferBytes_nextCursor _ hb] at ht'
      obtain ⟨v, hrun, hv⟩ := (h.pushed rx p).run_stays_writing hcs hless hcursor ht' l (j := j) (by omega)
      exact ⟨v, (run_succ (h.step_bus ha _) _).trans ((run_succ (h.step_push h0 (by omega) _) _).trans hrun), hv⟩
termination_by n

/-- Until the last completion event the asynchronous write is on its way and chip-select is asserted. -/
theorem run_asyncWrite_stays_writing {buf : Nat} {len : Byte} {s : State} {p : Peer} (n : Nat) (hr : Ready s)
    (hm : s.cfg.mode = .nonblocking) (hb : BufferOk s buf len) (hroom : PeerRoom s s.cfg.frameBufferSize 0 len.toNat)
    (hp : s.cfg.peerKind = .reference → p = { s.peer with ph := .cmd }) (l : List Event) {j : Nat}
    (hj : j < 2 * (len.toNat + 1)) : ∃ v,
      Sys2Proof.core.run j { s.asyncStarted buf len p n with sched := busThenCompletion (len.toNat + 1) ++ l } =
        .next v ∧ v.asyncState = .writing ∧ v.cs = true := by
  have hw : Writing (s.asyncStarted buf len p n) frameWriteByte := ⟨hr.fault, hm, rfl, rfl, rfl⟩
  obtain ⟨d0, p0, ds, q, hcmd, hdata, _⟩ := answers_frameWrite (cfg := s.cfg) n (peer := p) s.mem buf
    (fun hk => ⟨by rw [hp hk], hroom.le hk⟩)
  exact hw.run_stays_writing rfl rfl hb.end_le (talk_cons hcmd hdata) l hj

end Sys2Proof.Machine
end

section
/-! SUPPORT. The statements about the asynchronous write (45_async_frame_write.md): each theorem settles one
obligation. -/

open Sys2Proof Sys2Proof.Machine

/-- Settles O46: what each event does to the registers, and the controller's invariant after a start. -/
theorem asyncStateTransitions : Obligations.AsyncStateTransitions := by
  intro s t e hI hf h
  refine ⟨fun hi hw => ?_, fun hw he hen hn => ?_, fun hw hi => ?_⟩
  · have hIt := runEvent_keeps_inv hI hf h
    obtain ⟨_, hcs, hsh⟩ := hIt.writing hw
    have hm : s.cfg.mode = .nonblocking := runEvent_cfg hf h ▸ hIt.nonblocking_of_writing hw
    by_cases he : e = .completion
    · subst he
      rcases completionStep_asyncState hf h with hsame | ⟨_, _, hidle⟩
      · rw [hsame, hi] at hw; cases hw
      · rw [hidle] at hw; cases hw
    · rcases runEvent_async hf he h with ⟨hsame, _⟩ | ⟨c, ho, hhow, _, hlen, hbuf⟩
      · rw [hsame, hi] at hw; cases hw
      · exact ⟨hm, hcs, hsh, c, ho, hhow, hlen, hbuf⟩
  · subst he
    rcases completionStep_next hf h with ⟨hdis, _⟩ | ⟨_, h0, _⟩ | ⟨_, _, _, rfl⟩
    · rw [hen] at hdis; cases hdis
    · exact absurd h0 hn
    · exact ⟨hw, rfl⟩
  · by_cases he : e = .completion
    · subst he
      rcases completionStep_asyncState hf h with hsame | ⟨hen, h0, _⟩
      · rw [hsame, hw] at hi; cases hi
      · exact ⟨rfl, hen, h0⟩
    · rcases runEvent_async hf he h with ⟨hsame, _⟩ | ⟨_, _, _, hstart, _⟩
      · rw [hsame, hw] at hi; cases hi
      · rw [hstart] at hi; cases hi

/-- Settles O29: both names issue one record, and `NONBLOCKING` runs the start. -/
theorem asyncStartEffect : Obligations.AsyncStartEffect := by
  intro i buf len s hi hr hm hb
  have hrec : encode i = .record (.frameWrite buf len) := by rcases hi with rfl | rfl <;> rfl
  rw [exec_record hrec]
  exact runCommand_frameWrite_nonblocking hr hm hb

/-- Settles O47: the run to the completion, and the points before it. -/
theorem asyncWriteTakesOneMoreEventThanBytes : Obligations.AsyncWriteTakesOneMoreEventThanBytes := by
  intro buf len s rest hr hm hb hroom
  obtain ⟨p, n, hstart, hp⟩ := runCommand_frameWrite_nonblocking hr hm hb
  have hpeer := fun hk => (hp hk).1
  obtain ⟨d0, ds, a, q, m, hds, hrun, hq⟩ := run_asyncWrite n hr hm hb hroom hpeer rest
  refine ⟨s.asyncStarted buf len p n, _, d0, ds, hds, hstart,
    fun j hj => run_asyncWrite_stays_writing n hr hm hb hroom hpeer rest hj, hrun, ?_,
    hr.asyncDone buf len p q n m a _ _ rest, rfl, rfl, rfl, rfl, rfl, rfl, rfl, rfl, fun hk k hlt => ?_⟩
  · simp [State.asyncDone, State.asyncStarted, xfers, frameWriteByte]
  · obtain ⟨_, _, _, hfb⟩ := hq hk
    exact (hfb k).trans (if_pos hlt)

/-- Settles O43: the push of an enabled event. -/
theorem completionPushRule : Obligations.CompletionPushRule :=
  fun _ => completionStep_push

/-- Settles O44: the event is enabled and finds no byte, and the peer sees the deassertion. -/
theorem completionFinishRule : Obligations.CompletionFinishRule := by
  intro s he h0
  obtain ⟨p, n, hfin, hp⟩ := completionFinish_eq { s with shifter := .idle }
  refine ⟨p, n, ?_, hp⟩
  rw [completionStep, if_pos he, if_pos h0, hfin]

/-- Settles O45: each of the three disables the event. -/
theorem completionOnlyWhenEnabled : Obligations.CompletionOnlyWhenEnabled := by
  intro s h
  refine completionStep_of_disabled ?_
  rcases h with hm | hc | hs
  · simp [completionEnabled, hm]
  · simp [completionEnabled, hc]
  · simp [completionEnabled, completionPending_of_not_done hs]

end

section
/-! SUPPORT. The control and status commands (46_control_status.md): the issue check they pass, the bits of `CTRL` and
`STATUS`, and the state after a command that only responds. -/

namespace Sys2Proof.Machine

/-! ### The bytes of `CTRL` and `STATUS` (10_state.md R49, R50) -/

/-- The one bit of `CTRL` is its bit 0. -/
theorem ctrlByte_eq_ite (s : State) : ctrlByte s = if s.actIrqEn then 0x01 else 0x00 := by
  rw [ctrlByte]
  cases s.actIrqEn <;> rfl

/-- The bit appended is bit 0, and moves the others up by one. -/
theorem getLsbD_append_bit_zero {w : Nat} (v : BitVec w) (b : Bool) : (v ++ bit b).getLsbD 0 = b := by
  rw [BitVec.getLsbD_append]
  cases b <;> rfl

theorem getLsbD_append_bit_succ {w : Nat} (v : BitVec w) (b : Bool) (n : Nat) :
    (v ++ bit b).getLsbD (n + 1) = v.getLsbD n := by
  simp [BitVec.getLsbD_append]

/-- The bits of `STATUS` from bit 0 up, with zeros above them. -/
theorem statusByte_getLsbD (s : State) (n : Nat) : (statusByte s).getLsbD n =
    [decide (s.asyncState = .writing), s.cs, s.cmpIrqEn, s.actIrqEn, decide (s.cfg.mode = .nonblocking)].getD n
      false := by
  rw [statusByte]
  match n with
  | 0 | 1 | 2 | 3 | 4 => simp only [getLsbD_append_bit_succ, getLsbD_append_bit_zero]; rfl
  | n + 5 => simp only [getLsbD_append_bit_succ, BitVec.getLsbD_zero]; rfl

/-! ### From an idle port to the response -/

/-- A command with neither a register address nor a buffer passes every check of an idle port while no asynchronous
write runs (10_state.md R57). -/
theorem issueFault_eq_none_of_noOperand {c : Command} {s : State} (hs : s.seq = none) (ha : s.asyncState = .idle)
    (hl : legalOp c.op = true) (hu : usesAddr c.op = false) (hb : usesBuffer c.op = false) : issueFault c s = none :=
  issueFault_eq_none hs hl (fun hw => by rw [ha] at hw; cases hw) (fun h => by rw [hu] at h; cases h)
    (fun h => by rw [hb] at h; cases h)

/-- An accepted command whose one primitive leaves `act_irq_en` at `e` and responds with `w`: the port is free again
and nothing else has changed. -/
theorem exec_of_control {i : Instr} {c : Command} {s : State} {p : Prim} {e : Bool} {w : Option Byte}
    (hi : encode i = .record c) (hf : s.fault = none) (hs : s.seq = none) (hc : issueFault c s = none)
    (hb : bodyOf s.cfg.mode c = [p]) (hw : ∀ dst, p ≠ .wait dst)
    (hp : primStep ⟨c, 0, 0, none⟩ (accept c s) p = .next (respond c.op w { accept c s with actIrqEn := e })) :
    exec i s = .next { s with actIrqEn := e, resp := s.resp ++ [⟨c.op, w⟩] } := by
  have ht : respond c.op w { accept c s with actIrqEn := e } =
      { s with actIrqEn := e, resp := s.resp ++ [⟨c.op, w⟩] } := by
    simp only [respond, accept, hs]
  rw [exec_record hi, ← ht]
  exact runCommand_of_single hf hc hb hw hp rfl

end Sys2Proof.Machine
end

section
/-! SUPPORT. The statements about control and status (46_control_status.md): each theorem settles one obligation. -/

open Sys2Proof Sys2Proof.Machine

/-- Settles O33: the one primitive writes the enable and responds. -/
theorem ctrlWriteEffect : Obligations.CtrlWriteEffect := by
  intro value s hf hs ha
  have hc : issueFault (.ctrlWrite value) s = none := issueFault_eq_none_of_noOperand hs ha rfl rfl rfl
  exact exec_of_control rfl hf hs hc rfl nofun rfl

/-- Settles O34: the one primitive responds with the `CTRL` byte and leaves the enable as it is. -/
theorem ctrlReadEffect : Obligations.CtrlReadEffect := by
  intro s hf hs ha
  have hc : issueFault .ctrlRead s = none := issueFault_eq_none_of_noOperand hs ha rfl rfl rfl
  rw [← ctrlByte_eq_ite]
  exact exec_of_control (e := s.actIrqEn) rfl hf hs hc rfl nofun rfl

/-- Settles O35: the answer is the `STATUS` byte, read bit by bit. -/
theorem statusReadEffect : Obligations.StatusReadEffect := by
  intro s hf hs
  have hbit := statusByte_getLsbD s
  exact ⟨statusByte s, exec_statusRead hf hs, (Bool.eq_iff_iff.1 (hbit 0)).trans decide_eq_true_iff, hbit 1, hbit 2,
    hbit 3, (Bool.eq_iff_iff.1 (hbit 4)).trans decide_eq_true_iff, hbit 5, hbit 6, hbit 7⟩

end

section
/-! SUPPORT. Every move of every agent has a next state of the invariant with no unreachable fault (60_exceptions.md R240):
mainline's lines, host writes, and the move that a step takes. -/

namespace Sys2Proof.Machine

/-- The invariant says nothing of mainline's program. -/
theorem BlockInv.withProg {s : State} (h : BlockInv s) (lines : List Line) : BlockInv { s with prog := lines } :=
  h.frame s.trace s.resp s.fault s.trxIrq s.mem lines s.sched s.draws s.guardSaved

theorem keeps_hostWrite {s : State} {a : Nat} (v : Byte) (h : BlockInv s) (hf : s.fault = none)
    (ha : a < s.cfg.hostSize) : Keeps (hostWrite a v s) := by
  rw [hostWrite_of_lt v ha]
  exact Keeps.next (h.frame s.trace s.resp s.fault s.trxIrq _ s.prog s.sched s.draws s.guardSaved) hf

theorem keeps_commandLine {s : State} (c : Command) (h : BlockInv s) (hf : s.fault = none) :
    Keeps (commandLine c s) := by
  unfold commandLine
  split
  · exact keeps_exec _ h hf
  · exact keeps_issue c h hf

theorem keeps_pollLine {s : State} (after : List Line) (h : BlockInv s) (hf : s.fault = none) :
    Keeps (pollLine after s) := by
  refine (keeps_exec _ h hf).andThen fun t ht htf => ?_
  split
  · exact Keeps.next ht htf
  · exact Keeps.next (ht.withProg after) htf

/-- Mainline's next line keeps the invariant; only an `hwrite` line could stop, outside host memory (log 9). -/
theorem keeps_mainlineStep {s : State} (h : BlockInv s) (hf : s.fault = none)
    (hp : ∀ a v after, s.prog = .hwrite a v :: after → a < s.cfg.hostSize) : Keeps (mainlineStep s) := by
  unfold mainlineStep
  split
  · exact Keeps.next h hf
  · exact keeps_commandLine _ (h.withProg _) hf
  · next a v after hs => exact keeps_hostWrite v (h.withProg after) hf (hp a v after hs)
  · exact keeps_pollLine _ h hf

/-- Each agent's move keeps the invariant, where a host write that it may make is in host memory. -/
theorem keeps_runEvent {e : Event} {s : State} (h : BlockInv s) (hf : s.fault = none)
    (he : ∀ a v, e = .hostWrite a v → a < s.cfg.hostSize)
    (hp : ∀ a v after, s.prog = .hwrite a v :: after → a < s.cfg.hostSize) : Keeps (runEvent e s) := by
  cases e with
  | mainline => exact keeps_mainlineStep h hf hp
  | issue c => exact keeps_issue c h hf
  | hostWrite a v => exact keeps_hostWrite v h hf (he a v rfl)
  | sequencer => exact keeps_seqStep h hf
  | bus =>
    show Keeps (busMove s)
    rw [busMove_eq_busStep hf]
    exact keeps_busStep h hf
  | completion => exact keeps_completionStep h hf
  | environment level =>
    exact Keeps.next (h.frame s.trace s.resp s.fault level s.mem s.prog s.sched s.draws s.guardSaved) hf

/-! ### The move that a step takes -/

/-- Taking the next move leaves the configuration and mainline's program. -/
theorem takeEvent_cfg_prog (s : State) : (takeEvent s).2.cfg = s.cfg ∧ (takeEvent s).2.prog = s.prog := by
  unfold takeEvent; split <;> exact ⟨rfl, rfl⟩

/-- A drawn host write is read modulo the address space, so it lies in host memory (log 2). -/
theorem within_hostWrite_lt {p : Params} {e : Event} {a : Nat} {v : Byte} (h : e.within p = .hostWrite a v) :
    a < p.hostSize := by
  cases e with
  | hostWrite b w =>
    cases h
    exact Nat.mod_lt b (Nat.two_pow_pos p.hostAddrWidth)
  | _ => cases h

/-- A host write that is taken as the next move is in host memory: if scheduled by hypothesis, if drawn by its draw. -/
theorem takeEvent_hostWrite_lt {s : State} {a : Nat} {v : Byte}
    (hs : ∀ a v rest, s.sched = .hostWrite a v :: rest → a < s.cfg.hostSize)
    (h : (takeEvent s).1 = .hostWrite a v) : a < s.cfg.hostSize := by
  unfold takeEvent at h
  split at h
  · next e rest hsched =>
    obtain rfl : e = .hostWrite a v := h
    exact hs a v rest hsched
  · exact within_hostWrite_lt h

/-- The step keeps the invariant and raises no unreachable fault (60_exceptions.md R240). -/
theorem keeps_step {s : State} (h : BlockInv s) (hf : s.fault = none) (hr : NextMoveInRange s) : Keeps (step s) := by
  obtain ⟨hsched, hprog⟩ := hr
  obtain ⟨hcfg, hlines⟩ := takeEvent_cfg_prog s
  rw [step, whileRunning_of_none _ hf]
  refine keeps_runEvent ((takeEvent_move s).keeps_inv hf h) (by simpa using hf) (fun a v he => ?_) ?_
  · rw [hcfg]; exact takeEvent_hostWrite_lt hsched he
  · rw [hcfg, hlines]; exact hprog

end Sys2Proof.Machine
end

section
/-! SUPPORT. The statement about the faults (60_exceptions.md): the theorem settles one obligation. -/

open Sys2Proof Sys2Proof.Machine

/-- Settles O12: each agent's move has a next state with no unreachable fault, and so has the move a step takes. -/
theorem stepNeverSticks : Obligations.StepNeverSticks := by
  intro s h hf hr
  obtain ⟨t, ht, _, hgood⟩ := keeps_step h hf hr
  exact ⟨t, ht, hgood⟩

end

section
/-! SUPPORT. Both memories stay in canonical form move by move (20_memory.md R71, R87; log 8), the port of an idle
controller is not overlapped (10_state.md R57), and a command byte that is not there to complete (20_memory.md R82). -/

namespace Sys2Proof.Machine

/-! ### The reference peer's stores (20_memory.md R87–R96) -/

theorem PeerStores.wf_iff (p : Peer) : PeerStores.wf p = true ↔
    Cells.rising p.regs = true ∧ Cells.rising p.fb = true ∧ Cells.rising p.sram = true := by
  simp [PeerStores.wf, and_assoc]

theorem exchange_cmd_accepted {cfg : Params} {peer : Peer} {tx d : Byte} {ph : Phase} (h : peer.ph = .cmd)
    (hc : commandPhase tx = some ph) : exchange cfg peer tx d = .answer d { peer with ph := ph } := by
  simp only [exchange, h, hc]

/-- In a stream's phase an answer is the one below the end of the store (20_memory.md R91–R95). -/
theorem Exchange.answer_of_ite {k n : Nat} {d rx : Byte} {p q : Peer}
    (h : (if k < n then Exchange.answer d p else .raises .peerRange k) = .answer rx q) : p = q := by
  split at h <;> cases h
  rfl

/-- An answered byte is written to one store or to none, and each store keeps its canonical form (20_memory.md
R88–R96). -/
theorem exchange_keeps_stores {cfg : Params} {peer q : Peer} {tx d rx : Byte}
    (h : exchange cfg peer tx d = .answer rx q) (hw : PeerStores.wf peer = true) : PeerStores.wf q = true := by
  obtain ⟨hregs, hfb, hsram⟩ := (PeerStores.wf_iff peer).1 hw
  cases hph : peer.ph with
  | idle => exact absurd hph (exchange_answer h).1
  | cmd =>
    cases hc : commandPhase tx with
    | none => rw [exchange_cmd_reserved hph hc] at h; cases h
    | some ph => rw [exchange_cmd_accepted hph hc] at h; cases h; exact hw
  | regw a =>
    rw [exchange_regw hph] at h
    cases h
    exact (PeerStores.wf_iff _).2 ⟨Cells.rising_put a.toNat tx hregs, hfb, hsram⟩
  | regr a => rw [exchange_regr hph] at h; cases h; exact hw
  | fbw k =>
    rw [exchange_fbw hph] at h
    rw [← Exchange.answer_of_ite h]
    exact (PeerStores.wf_iff _).2 ⟨hregs, Cells.rising_put k tx hfb, hsram⟩
  | fbr k => rw [exchange_fbr hph] at h; rw [← Exchange.answer_of_ite h]; exact hw
  | srwOff => rw [exchange_srwOff hph] at h; cases h; exact hw
  | srrOff => rw [exchange_srrOff hph] at h; cases h; exact hw
  | srw a =>
    rw [exchange_srw hph] at h
    rw [← Exchange.answer_of_ite h]
    exact (PeerStores.wf_iff _).2 ⟨hregs, hfb, Cells.rising_put a tx hsram⟩
  | srr a => rw [exchange_srr hph] at h; rw [← Exchange.answer_of_ite h]; exact hw
  | done => rw [exchange_done hph] at h; cases h; exact hw

/-- A chip-select event moves the reference peer's phase and leaves its stores (20_memory.md R87). -/
theorem onSel_keeps_stores {s : State} (level : Bool) (hk : s.cfg.peerKind = .reference)
    (hw : PeerStores.wf s.peer = true) : PeerStores.wf (onSel level s).peer = true := by
  rw [(onSel_reference level s hk).1]; exact hw

/-! ### Both memories, move by move -/

/-- What keeps the canonical form: the configuration stays, and each memory keeps its own. -/
theorem Canonical.of_keeps {s t : State} (h : Canonical s) (hc : t.cfg = s.cfg)
    (hm : Memory.wf s.mem = true → Memory.wf t.mem = true)
    (hp : s.cfg.peerKind = .reference → PeerStores.wf s.peer = true → PeerStores.wf t.peer = true) :
    Canonical t := by
  obtain ⟨hmem, hpeer⟩ := h
  refine ⟨hm hmem, fun hk => ?_⟩
  rw [hc] at hk
  exact hp hk (hpeer hk)

theorem Canonical.of_eq {s t : State} (h : Canonical s) (hc : t.cfg = s.cfg) (hm : t.mem = s.mem)
    (hp : t.peer = s.peer) : Canonical t :=
  h.of_keeps hc (fun hw => by rw [hm]; exact hw) (fun _ hw => by rw [hp]; exact hw)

/-- A write to host memory keeps both memories' form (20_memory.md R73). -/
theorem Canonical.hostWrite {a : Nat} {v : Byte} {s t : State} (h : Canonical s) (ht : hostWrite a v s = .next t) :
    Canonical t := by
  obtain ⟨_, rfl⟩ := memWrite_next ht
  exact h.of_keeps rfl (Memory.write_wf a v) (fun _ hw => hw)

/-- A primitive writes at most one byte of host memory, and the peer sees of it at most a chip-select event
(10_state.md R32). -/
theorem Canonical.primStep {run : Run} {x : Prim} {s t : State} (h : Canonical s) (ht : primStep run s x = .next t) :
    Canonical t := by
  have F := primStep_frame ht
  refine h.of_keeps F.cfg (fun hw => ?_) (fun hk hw => ?_)
  · rcases F.mem with hm | ⟨_, v, _, hm⟩ <;> rw [hm]
    · exact hw
    · exact Memory.write_wf _ v hw
  · rcases F.peer with hp | ⟨level, hp⟩ <;> rw [hp]
    · exact hw
    · exact onSel_keeps_stores level hk hw

theorem Canonical.issue {c : Command} {s t : State} (h : Canonical s) (ht : issue c s = .next t) : Canonical t := by
  obtain ⟨r, f, rfl⟩ := issue_writes ht
  exact h.of_eq rfl rfl rfl

theorem Canonical.seqStep {s t : State} (h : Canonical s) (ht : seqStep s = .next t) : Canonical t := by
  rcases seqStep_next ht with ⟨_, rfl⟩ | ⟨run, x, _, _, ht⟩
  · exact h
  · exact h.primStep ht

/-- The byte that `BUS` completes is the peer's to store (20_memory.md R82). -/
theorem Canonical.busStep {s t : State} (h : Canonical s) (ht : busStep s = .next t) : Canonical t := by
  rcases busStep_next ht with ⟨_, rfl⟩ | ⟨tx, _, ⟨rx, p, rfl, hx⟩ | ⟨code, info, _, rfl, _⟩⟩
  · exact h
  · exact h.of_keeps rfl (fun hw => hw) (fun hk => exchange_keeps_stores (hx hk))
  · exact h.of_eq rfl rfl rfl

theorem CommandMove.keeps_canonical {s t : State} (hm : CommandMove s t) (h : Canonical s) : Canonical t := by
  cases hm with
  | issue c _ ht => exact h.issue ht
  | sequencer _ ht => exact h.seqStep ht
  | bus _ ht => exact h.busStep ht

/-- The completion event writes no memory, and the peer sees of it at most a chip-select event
(45_async_frame_write.md R203, R204). -/
theorem Canonical.completionStep {s t : State} (hf : s.fault = none) (h : Canonical s)
    (ht : completionStep s = .next t) : Canonical t := by
  rcases completionStep_next hf ht with ⟨_, rfl⟩ | ⟨_, _, rfl⟩ | ⟨_, _, _, rfl⟩
  · exact h
  · obtain ⟨p, n, he, hp⟩ := completionFinish_eq { s with shifter := .idle }
    rw [he]
    refine h.of_keeps rfl (fun hw => hw) (fun hk hw => ?_)
    obtain ⟨rfl, _⟩ := hp hk
    exact hw
  · exact h.of_eq rfl rfl rfl

/-- Every move keeps both memories in canonical form. -/
theorem Move.keeps_canonical {s t : State} (hf : s.fault = none) (hm : Move s t) (h : Canonical s) : Canonical t := by
  cases hm with
  | command _ hc => exact hc.keeps_canonical h
  | completion _ ht => exact h.completionStep hf ht
  | hostWrite a v _ ht => exact h.hostWrite ht
  | environment level => exact h.of_eq rfl rfl rfl
  | schedule p e d => exact h.of_eq rfl rfl rfl

/-! ### The port of an idle controller, and a command byte that is not there -/

/-- With no command in flight no command finds the port taken (10_state.md R57). -/
theorem issueFault_ne_portOverlap {c : Command} {s : State} (hs : s.seq = none) (n : Nat) :
    issueFault c s ≠ some ⟨.portOverlap, n⟩ := by
  have hfree : ¬ s.seq.isSome := by simp [hs]
  rw [issueFault, if_neg hfree]
  split_ifs <;> simp

/-- Of a command byte that is not in the shifter, or that the reference peer does not await, `BUS` has no step
(20_memory.md R82; logs 4, 13). -/
theorem completeCommandByte_of_not_there {tx : Byte} {s : State} (hf : s.fault = none)
    (h : s.shifter ≠ .busy tx ∨ (s.cfg.peerKind = .reference ∧ s.peer.ph ≠ .cmd)) :
    completeCommandByte tx s = .next s := by
  have hr : ¬ commandByteReady tx s = true := by
    rcases h with hs | ⟨hk, hp⟩
    · simp [commandByteReady, hs]
    · simp [commandByteReady, hk, hp]
  rw [completeCommandByte, whileRunning_of_none _ hf, if_neg hr]

/-! ### A step runs what it decodes (30_encoding.md R134, 20_memory.md R82, R88) -/

/-- A command line that is next runs what its record decodes to, the line off the program. -/
theorem mainlineStep_of_decodeRecord {s : State} {c : Command} {after : List Line} {i : Instr}
    (hp : s.prog = .command c :: after) (hd : decodeRecord s.cfg.mode c = .instr i) :
    mainlineStep s = exec i { s with prog := after } := by
  have hline : mainlineStep s = commandLine c { s with prog := after } := by rw [mainlineStep, hp]
  have hdec : decodeRecord { s with prog := after }.cfg.mode c = .instr i := hd
  rw [hline, commandLine, hdec]

/-- The `BUS` move on a command byte that is there runs what the byte decodes to. -/
theorem busMove_of_decodeByte {s : State} {b : Byte} {i : Instr} (hf : s.fault = none) (hs : s.shifter = .busy b)
    (hp : s.cfg.peerKind = .reference → s.peer.ph = .cmd) (hd : decodeByte b = .instr i) : busMove s = exec i s := by
  rw [busMove_eq_busStep hf, exec_byte (encode_of_decodeByte hd), completeCommandByte_of_ready hf hs hp]

end Sys2Proof.Machine
end

section
/-! SUPPORT. The statements about reset (70_reset_and_hazards.md), the canonical form of both memories, and what a step
decodes: each theorem settles one obligation. -/

open Sys2Proof Sys2Proof.Machine

/-- Settles O13: a step is a chain of moves, and each move keeps both memories in canonical form. -/
theorem stepKeepsCanonicalMemory : Obligations.StepKeepsCanonicalMemory := by
  intro s t h hst
  exact chain_keeps (fun _ _ hf hm => hm.keeps_canonical hf) (step_moves hst) h

/-- Settles O8: the registers are those of `State.launch`, and of them `STATUS` shows the `MODE` alone. -/
theorem resetValues : Obligations.ResetValues := by
  intro p m q
  have hstatus : statusByte (State.launch p m q) = if p.mode = .nonblocking then 0x10 else 0x00 := by
    cases hm : p.mode <;> simp [statusByte, State.launch, bit, hm]
  exact ⟨rfl, rfl, rfl, rfl, rfl, rfl, rfl, rfl, rfl, rfl, rfl, rfl, rfl, rfl, rfl, rfl, rfl, hstatus,
    fun c => issueFault_ne_portOverlap rfl c.op.toNat⟩

/-- Settles O17: the empty history is closed, and no transaction is open. -/
theorem resetTraceIsClosed : Obligations.ResetTraceIsClosed :=
  fun _ _ _ => ⟨rfl, rfl, rfl, .inl ⟨rfl, rfl⟩⟩

/-- Settles O14: after reset neither memory lists a cell. -/
theorem resetMemoryIsCanonical : Obligations.ResetMemoryIsCanonical :=
  ⟨Memory.reset_wf, fun _ => rfl⟩

/-- Settles O5: the move at the head of the schedule runs what the line's record, or the byte in the shifter, decodes
to. -/
theorem stepRunsTheDecodedInstruction : Obligations.StepRunsTheDecodedInstruction := by
  refine ⟨fun s c rest after i hf hs hp hd => ?_, fun s b rest i hf hs hb _ hph hd => ?_⟩
  · exact (step_of_sched hf hs).trans (mainlineStep_of_decodeRecord (s := { s with sched := rest }) hp hd)
  · exact (step_of_sched hf hs).trans (busMove_of_decodeByte (s := { s with sched := rest }) hf hb (fun _ => hph) hd)

/-- Settles O37: a bus row is the completion of its byte, and that holds where the byte is not there. -/
theorem commandByteNotThere : Obligations.CommandByteNotThere := by
  intro i b s hi hf h
  rw [exec_byte hi]
  exact completeCommandByte_of_not_there hf h

end
